-- ==== Sys2Proof/Word.lean ====
section
/-! DEFINITION. The word types of BSX: the command word (30_encoding.md R45) and the widths of what the
spec treats as bits (10_state.md R15, 30_encoding.md R56). -/

namespace Sys2Proof

/-- One command word, 16 bits numbered 15 down to 0 (R45). -/
abbrev CmdWord := BitVec 16

/-- One entry of the output queue (R23). -/
abbrev OutSym := BitVec 8

/-- One entry of the extractor's slice (R24). -/
abbrev XSym := BitVec 5

/-- The DATA half of a response (R56). -/
abbrev Data := BitVec 64

end Sys2Proof
end

