-- ==== Sys2Proof/Syntax.lean ====
section
/-! DEFINITION. The nine commands of the BSX command set, edition 1 (30_encoding.md R52), each operand at exactly
the width of its field (R47 to R51), and the source lines of the assembler (R59, R60). -/

namespace Sys2Proof

/-- One command: a row of the opcode map (R52). The operand types are the fields themselves, so every term of
this type is a word of the command set and no term is ill formed. -/
inductive Instr where
  /-- NOP (R83). -/
  | nop
  /-- CFG F, T, P (R63): `pad` is P = 1. -/
  | cfg (f t : BitVec 4) (pad : Bool)
  /-- PUSH SYM (R64). -/
  | push (sym : BitVec 8)
  /-- FIN (R65). -/
  | fin
  /-- POP (R66). -/
  | pop
  /-- XPUSH SYM (R78). -/
  | xpush (sym : BitVec 8)
  /-- XRUN D (R79). -/
  | xrun (d : BitVec 7)
  /-- STAT (R84). -/
  | stat
  /-- RST (R86). -/
  | rst
deriving DecidableEq, Repr

/-- One source line of the assembler (R59) or one pseudo-instruction (R60), its numbers as written: whether they
fit their fields is `AsmLine.wellFormed`. -/
inductive AsmLine where
  | nop
  | cfg (f t : Nat) (pad : Bool)
  | push (sym : Nat)
  | fin
  | pop
  | xpush (sym : Nat)
  | xrun (d : Nat)
  | stat
  | rst
  /-- `.word v`: the value as it is, for illegal-word tests (R59). -/
  | word (v : Nat)
  /-- `cvt F, T, pad|nopad, s0, ...` (R60). -/
  | cvt (f t : Nat) (pad : Bool) (syms : List Nat)
  /-- `xget D, s0, ...` (R60). -/
  | xget (d : Nat) (syms : List Nat)
deriving DecidableEq, Repr

end Sys2Proof
end

