-- ==== Sys2Proof/Decode.lean ====
section
/-! DEFINITION. The decoder (30_encoding.md R46 to R54, R58), total on all 65 536 words and refusing by name, the
encoder that is its inverse (R58), and the opcode map as rows of match and mask (R52). -/

namespace Sys2Proof

/-- Why a word is no command: R53 and R54 are the only two reasons. -/
inductive Illegal where
  /-- OP is 0x9 to 0xF (R53). -/
  | reservedOpcode (op : BitVec 4)
  /-- OP is 0x0 to 0x8 and a bit its format marks "must be zero" is 1 (R54). -/
  | nonZeroMustBeZero (op : BitVec 4)
deriving DecidableEq, Repr

/-- Bits [15:12], the opcode field OP (R46). -/
def opOf (w : CmdWord) : BitVec 4 := w.extractLsb' 12 4

/-- F = w[11:8] (R48, R51). -/
def fieldF (w : CmdWord) : BitVec 4 := w.extractLsb' 8 4

/-- T = w[7:4] (R48, R51). -/
def fieldT (w : CmdWord) : BitVec 4 := w.extractLsb' 4 4

/-- P = w[0] (R48, R51), as "padding is requested" (R20). -/
def fieldP (w : CmdWord) : Bool := w.getLsbD 0

/-- SYM = w[7:0] (R49, R51). -/
def fieldSym (w : CmdWord) : BitVec 8 := w.extractLsb' 0 8

/-- D = w[6:0] (R50, R51). -/
def fieldD (w : CmdWord) : BitVec 7 := w.extractLsb' 0 7

/-- Bits [11:0], which format Z marks "must be zero" (R47). -/
def zeroZ (w : CmdWord) : Bool := w.extractLsb' 0 12 == 0

/-- Bits [3:1], which format C marks "must be zero" (R48). -/
def zeroC (w : CmdWord) : Bool := w.extractLsb' 1 3 == 0

/-- Bits [11:8], which format S marks "must be zero" (R49). -/
def zeroS (w : CmdWord) : Bool := w.extractLsb' 8 4 == 0

/-- Bits [11:7], which format D marks "must be zero" (R50). -/
def zeroD (w : CmdWord) : Bool := w.extractLsb' 7 5 == 0

/-- A command whose must-be-zero bits are zero, or R54's illegal word. -/
def legalIf (zero : Bool) (w : CmdWord) (i : Instr) : Except Illegal Instr :=
  if zero then .ok i else .error (.nonZeroMustBeZero (opOf w))

/-- The decoder of R58: OP alone selects the command and its format (R46). -/
def decode (w : CmdWord) : Except Illegal Instr :=
  match (opOf w).toNat with
  | 0 => legalIf (zeroZ w) w .nop
  | 1 => legalIf (zeroC w) w (.cfg (fieldF w) (fieldT w) (fieldP w))
  | 2 => legalIf (zeroS w) w (.push (fieldSym w))
  | 3 => legalIf (zeroZ w) w .fin
  | 4 => legalIf (zeroZ w) w .pop
  | 5 => legalIf (zeroS w) w (.xpush (fieldSym w))
  | 6 => legalIf (zeroD w) w (.xrun (fieldD w))
  | 7 => legalIf (zeroZ w) w .stat
  | 8 => legalIf (zeroZ w) w .rst
  | _ => .error (.reservedOpcode (opOf w))

/-- The word of a command, its fields laid out as R47 to R50 draw them, most significant first. -/
def encode : Instr → CmdWord
  | .nop => 0x0000#16
  | .cfg f t pad => 0x1#4 ++ f ++ t ++ 0#3 ++ BitVec.ofBool pad
  | .push sym => 0x2#4 ++ 0#4 ++ sym
  | .fin => 0x3000#16
  | .pop => 0x4000#16
  | .xpush sym => 0x5#4 ++ 0#4 ++ sym
  | .xrun d => 0x6#4 ++ 0#5 ++ d
  | .stat => 0x7000#16
  | .rst => 0x8000#16

/-- One row of the opcode map (R52). -/
structure OpRow where
  mnemonic : String
  matchBits : CmdWord
  maskBits : CmdWord
deriving DecidableEq, Repr

/-- The row of R52 that a command belongs to. -/
def rowOf : Instr → OpRow
  | .nop => ⟨"NOP", 0x0000#16, 0xFFFF#16⟩
  | .cfg _ _ _ => ⟨"CFG", 0x1000#16, 0xF00E#16⟩
  | .push _ => ⟨"PUSH", 0x2000#16, 0xFF00#16⟩
  | .fin => ⟨"FIN", 0x3000#16, 0xFFFF#16⟩
  | .pop => ⟨"POP", 0x4000#16, 0xFFFF#16⟩
  | .xpush _ => ⟨"XPUSH", 0x5000#16, 0xFF00#16⟩
  | .xrun _ => ⟨"XRUN", 0x6000#16, 0xFF80#16⟩
  | .stat => ⟨"STAT", 0x7000#16, 0xFFFF#16⟩
  | .rst => ⟨"RST", 0x8000#16, 0xFFFF#16⟩

/-- The whole opcode map, in the table's order (R52). -/
def opcodeMap : List OpRow :=
  [rowOf .nop, rowOf (.cfg 0 0 false), rowOf (.push 0), rowOf .fin, rowOf .pop, rowOf (.xpush 0),
    rowOf (.xrun 0), rowOf .stat, rowOf .rst]

/-- R52's test: the word under the row's mask is the row's match. -/
def OpRow.hits (r : OpRow) (w : CmdWord) : Bool := w &&& r.maskBits == r.matchBits

/-- The command word whose low `nbits` bits are those of `w`, the bits above zero (R45: a command is one word). -/
def tableWord (nbits w : Nat) : CmdWord := BitVec.ofNat 16 (w % 2 ^ nbits)

/-- The command the decoder reads from a table word: `none` where it refuses, and where the bits do not fit
in the one word a command has (R45). -/
def decodeTableWord (nbits w : Nat) : Option Instr :=
  if w % 2 ^ nbits < 2 ^ 16 then (decode (tableWord nbits w)).toOption else none

end Sys2Proof
end

