-- ==== Sys2Proof/Config.lean ====
section
/-! DEFINITION. The parameters of BSX (00_scope.md R10): what the spec fixes, and the range of the one it leaves
open. The model holds the open one, OUTQ_DEPTH, in `State.outqDepth` (log entry 4). -/

namespace Sys2Proof.Config

/-- The least legal OUTQ_DEPTH (R9). -/
abbrev minDepth : Nat := 8

/-- The greatest legal OUTQ_DEPTH (R9). -/
abbrev maxDepth : Nat := 255

/-- R9: "Its legal range is 8 ≤ OUTQ_DEPTH ≤ 255." -/
abbrev LegalDepth (d : Nat) : Prop := minDepth ≤ d ∧ d ≤ maxDepth

/-- The depth the spec's vectors assume (R9). DESIGN CHOICE (log entry 4), unsafe: `State.reset` carries it; no statement
rests on it. -/
abbrev vectorDepth : Nat := 16

/-- The greatest converter width, FROM or TO (R6). -/
abbrev maxWidth : Nat := 8

/-- The width of ACC (R7). -/
abbrev accWidth : Nat := 15

/-- XSYM_DEPTH, the most symbols a slice holds (R8). -/
abbrev xsymDepth : Nat := 13

/-- The width of one slice symbol (R24). -/
abbrev xsymWidth : Nat := 5

/-- The greatest legal `databits` (R8). -/
abbrev maxDatabits : Nat := 64

end Sys2Proof.Config
end

