-- ==== Sys2Proof/Machine/State.lean ====
section
/-! DEFINITION. The state of one BSX instance (10_state.md R15 to R24), the responses it gives (30_encoding.md R56, R57),
the events a host can offer it (70_reset_and_hazards.md R122), and its reset state (10_state.md R31). -/

namespace Sys2Proof.Machine

/-- The converter's mode (R16). -/
inductive Mode where
  /-- No conversion configured since reset. -/
  | idle
  /-- A conversion is open: PUSH and FIN are accepted. -/
  | run
  /-- The last conversion ended with FIN status OK. -/
  | done
  /-- The last conversion failed with a terminal error. -/
  | error
deriving DecidableEq, Repr

/-- The status codes a response can carry (R57); the codes 9 to 15 are never produced, so they are no constructors. -/
inductive Status where
  | ok
  | eIllegal
  | eParam
  | eRange
  | eState
  | eFull
  | eEmpty
  | eConv
  | eTrunc
deriving DecidableEq, Repr

/-- One response: STATUS and DATA (R56). -/
structure Response where
  status : Status
  data : Data
deriving DecidableEq, Repr

/-- What can reach BSX from outside, one at a time (R122): a command word, or the platform's reset (R107). -/
inductive HostEvent where
  | command (w : CmdWord)
  | hardwareReset
deriving DecidableEq, Repr

/-- The reasons a step can stop with a fault. There are none, which is safe: "No behaviour of BSX is `fault` or `stuck`:
every command completes with a response in every state" (93_implementation_defined.md), and an error is a status on a
response (R98, R102). Log entry 7. -/
inductive Fault
deriving DecidableEq, Repr

/-- The reasons a step can be refused. -/
inductive Refusal where
  /-- An instruction without a meaning yet, by its mnemonic. Raised only by an arm of `exec` that still rejects its
  instruction; no arm does. Safe: the machine stops where the hardware goes on. -/
  | notModelled (mnemonic : String)
deriving DecidableEq, Repr

/-- One BSX instance. The first nine fields are the spec's complete state (R15); the last three are the model's own. -/
structure State where
  /-- MODE (R16). -/
  mode : Mode
  /-- ERR, the code of the terminal error that moved MODE to ERROR, else 0 (R17). -/
  err : BitVec 4
  /-- FROM, the input symbol width (R18). -/
  fromBits : BitVec 4
  /-- TO, the output symbol width (R19). -/
  toBits : BitVec 4
  /-- PAD, the padding policy (R20). -/
  pad : Bool
  /-- ACC, the accumulator, 15 bits (R7, R21). -/
  acc : BitVec 15
  /-- BITS, the number of valid bits at the low end of ACC (R22). -/
  bits : BitVec 4
  /-- OUTQ, the output queue, oldest first (R12, R23). -/
  outq : List OutSym
  /-- XSYM, the extractor's slice, oldest first (R12, R24). -/
  xsym : List XSym
  /-- The parameter OUTQ_DEPTH (R9), which nothing writes. The model's own field (log entry 4). -/
  outqDepth : Nat
  /-- What the host has yet to issue, next first. The model's own field (log entry 1). -/
  inputs : List HostEvent
  /-- The responses given, oldest first. The model's own field (log entry 2). -/
  responses : List Response
deriving DecidableEq, Repr

/-- The machine right after reset (R31), for an instance whose OUTQ_DEPTH is `depth`. -/
def State.resetWith (depth : Nat) : State where
  mode := .idle
  err := 0
  fromBits := 0
  toBits := 0
  pad := false
  acc := 0
  bits := 0
  outq := []
  xsym := []
  outqDepth := depth
  inputs := []
  responses := []

/-- The machine right after reset at the depth the spec's vectors assume (R9, R31; log entry 4). -/
def State.reset : State := State.resetWith Config.vectorDepth

end Sys2Proof.Machine
end

