-- ==== Sys2Proof/Machine/Flags.lean ====
section
/-! DEFINITION. BSX has no flags or condition codes (10_state.md R27); what stands in their place is the numeric code of
the mode (R16) and of a status (30_encoding.md R57), the response as one word (R56), and the status word that
STAT returns (42_control.md R85). -/

namespace Sys2Proof.Machine

/-- The encoding of MODE (R16). -/
def Mode.code : Mode → BitVec 2
  | .idle => 0
  | .run => 1
  | .done => 2
  | .error => 3

/-- The STATUS codes (R57). -/
def Status.code : Status → BitVec 4
  | .ok => 0
  | .eIllegal => 1
  | .eParam => 2
  | .eRange => 3
  | .eState => 4
  | .eFull => 5
  | .eEmpty => 6
  | .eConv => 7
  | .eTrunc => 8

/-- A response carried as one word: STATUS in bits [67:64], DATA in bits [63:0] (R56). -/
def Response.word (r : Response) : BitVec 68 := r.status.code ++ r.data

/-- `statword()` (R85), as the unbounded number its formula gives. -/
def statNumber (s : State) : Nat :=
  s.mode.code.toNat ||| s.err.toNat <<< 4 ||| s.fromBits.toNat <<< 8 ||| s.toBits.toNat <<< 12
    ||| s.pad.toNat <<< 16 ||| s.bits.toNat <<< 20 ||| s.outq.length <<< 24 ||| s.xsym.length <<< 32

/-- The status word in a response's 64-bit DATA (R36, R85). -/
def statWord (s : State) : Data := BitVec.ofNat 64 (statNumber s)

end Sys2Proof.Machine
end

