-- ==== Sys2Proof/Machine/Ops.lean ====
section
/-! DEFINITION. The primitives every command is written with (00_scope.md R13): `respond`, and the three error exits
`reject` (60_exceptions.md R93), `abort` (R94) and `xdiscard` (R95), which are BSX's exceptions; the return to the reset
state (10_state.md R31); and taking the host's next event. BSX has no memory to read or write (20_memory.md R37). -/

namespace Sys2Proof.Machine

/-- The state with one more response given (R56). -/
def answer (st : Status) (data : Data) (s : State) : State :=
  { s with responses := s.responses ++ [⟨st, data⟩] }

/-- `respond(status, data)`: every write made so far stands, and the command's one response is given (R13, R56). -/
def respond (st : Status) (data : Data) (s : State) : Host.Outcome State Fault Refusal :=
  .next (answer st data s)

/-- `reject E_X`: no state change, and the response (E_X, 0) (R13, R93). -/
def reject (st : Status) (s : State) : Host.Outcome State Fault Refusal := respond st 0 s

/-- The writes of `abort` (R94): exactly MODE, ERR, OUTQ, ACC and BITS. -/
def enterError (st : Status) (s : State) : State :=
  { s with mode := .error, err := st.code, outq := [], acc := 0, bits := 0 }

/-- `abort E_X`: the converter's terminal error entry (R13, R94). -/
def abort (st : Status) (s : State) : Host.Outcome State Fault Refusal := respond st 0 (enterError st s)

/-- The write of `xdiscard` (R95): exactly XSYM. -/
def dropSlice (s : State) : State := { s with xsym := [] }

/-- `xdiscard E_X`: the extractor's error exit (R13, R95). -/
def xdiscard (st : Status) (s : State) : Host.Outcome State Fault Refusal := respond st 0 (dropSlice s)

/-- Every field of the spec's state at its reset value (R31), the parameter and the host's side as they are. One of the
three ways out of ERROR (R99). -/
def toReset (s : State) : State :=
  { State.resetWith s.outqDepth with inputs := s.inputs, responses := s.responses }

/-- The platform's hardware reset (R107): the reset state, and no response. -/
def hardwareReset (s : State) : Host.Outcome State Fault Refusal := .next (toReset s)

/-- The host's next event, taken from the front of what it has yet to issue (R5, R41); `none` where the host
issues nothing. BSX fetches nothing itself (R44). -/
def nextEvent (s : State) : Option (HostEvent × State) :=
  match s.inputs with
  | [] => none
  | e :: rest => some (e, { s with inputs := rest })

/-- The state with one event to be issued before the rest. -/
def offer (e : HostEvent) (s : State) : State := { s with inputs := e :: s.inputs }

end Sys2Proof.Machine
end

