-- ==== Sys2Proof/Machine/Control.lean ====
section
/-! DEFINITION. The control family: NOP, STAT and RST, and what an illegal word does (42_control.md R83 to R87). -/

namespace Sys2Proof.Machine

/-- NOP (R83). -/
def execNop (s : State) : Host.Outcome State Fault Refusal := respond .ok 0 s

/-- STAT (R84): the status word of R85, and no state change. -/
def execStat (s : State) : Host.Outcome State Fault Refusal := respond .ok (statWord s) s

/-- RST (R86): the effect of a hardware reset, and a response. -/
def execRst (s : State) : Host.Outcome State Fault Refusal := respond .ok 0 (toReset s)

/-- An illegal word (R53, R54, R87): `reject E_ILLEGAL`, in every mode. -/
def execIllegal (s : State) : Host.Outcome State Fault Refusal := reject .eIllegal s

end Sys2Proof.Machine
end

