-- ==== Sys2Proof/Machine/Operands.lean ====
section
/-! DEFINITION. Operand arithmetic and range checks (00_scope.md R11; 30_encoding.md R51, R55): every operand is an
unsigned number, neither scaled nor shifted, and BSX has no signed value, no register operand and no address. -/

namespace Sys2Proof.Machine

/-- `mask(n)` is 2^n − 1 (R11). -/
def mask (n : Nat) : Nat := 2 ^ n - 1

/-- `ceil(a/b)` is (a + b − 1) div b, for b > 0 (R11). -/
def ceilDiv (a b : Nat) : Nat := (a + b - 1) / b

/-- CFG's check on F and on T: "F < 1 or F > 8" rejects (R63). -/
abbrev LegalWidth (w : BitVec 4) : Prop := 1 ≤ w.toNat ∧ w.toNat ≤ Config.maxWidth

/-- PUSH's and XPUSH's check: a symbol of the given width is below 2^width (R11, R55, R64, R78). -/
abbrev FitsWidth (sym : BitVec 8) (width : Nat) : Prop := sym.toNat < 2 ^ width

/-- XRUN's check: "only 0..64 is legal at execution" (R50, R79). -/
abbrev LegalDatabits (d : BitVec 7) : Prop := d.toNat ≤ Config.maxDatabits

end Sys2Proof.Machine
end

