-- ==== Sys2Proof/Machine/Convert.lean ====
section
/-! DEFINITION. The two algorithms of the source as pure functions on unbounded numbers: `convert` (40_converter.md R61)
with the loop body and the exhaustion step that PUSH and FIN share (R64, R65, R68), and `extract` (41_extractor.md R75). -/

namespace Sys2Proof.Machine

/-- `ACC <- ((ACC << FROM) | SYM) mod 2^15` (R21, R61, R64). -/
def shiftIn (acc f sym : Nat) : Nat := ((acc <<< f) ||| sym) % 2 ^ Config.accWidth

/-- The emission loop "while bits >= T" of R61 and R64: the symbols it emits, in order, and the bit count it leaves.
`fuel` bounds the recursion; `b` rounds suffice, since each takes T ≥ 1 bits. T = 0, which no reachable state
and no precondition has (R30, R61), emits nothing (log entry 8). -/
def emitLoop (t acc : Nat) : Nat → Nat → List Nat × Nat
  | 0, b => ([], b)
  | fuel + 1, b =>
    if 0 < t ∧ t ≤ b then
      ((acc >>> (b - t) &&& mask t) :: (emitLoop t acc fuel (b - t)).1, (emitLoop t acc fuel (b - t)).2)
    else ([], b)

/-- The emission loop with fuel enough (R61, R64). -/
def emit (t acc b : Nat) : List Nat × Nat := emitLoop t acc b b

/-- The residual, placed at the top of a T-bit symbol with zeros in its low bits (R61, R65; 90_conflicts.md C1). -/
def topResidual (t acc bits : Nat) : Nat := acc <<< (t - bits) &&& mask t

/-- The variables of R61's loop. -/
structure ConvState where
  acc : Nat
  bits : Nat
  out : List Nat
deriving DecidableEq, Repr

/-- One round of R61's outer loop: one input symbol. -/
def feed (f t : Nat) (c : ConvState) (sym : Nat) : ConvState where
  acc := shiftIn c.acc f sym
  bits := (emit t (shiftIn c.acc f sym) (c.bits + f)).2
  out := c.out ++ (emit t (shiftIn c.acc f sym) (c.bits + f)).1

/-- R61's loop over the whole input, from an empty accumulator. -/
def feedAll (f t : Nat) (syms : List Nat) : ConvState := syms.foldl (feed f t) ⟨0, 0, []⟩

/-- R61's step on exhaustion: the padding policy on what the loop left. `none` is the source's `ConversionError`. -/
def finish (f t : Nat) (pad : Bool) (c : ConvState) : Option (List Nat) :=
  if pad then
    if 0 < c.bits then some (c.out ++ [topResidual t c.acc c.bits]) else some c.out
  else if f ≤ c.bits ∨ topResidual t c.acc c.bits ≠ 0 then none
  else some c.out

/-- The function the converter computes (R61). -/
def convert (f t : Nat) (pad : Bool) (syms : List Nat) : Option (List Nat) :=
  finish f t pad (feedAll f t syms)

/-- "Interpret big-endian": the first byte is the most significant, no bit is lost (R35, R75, R77). -/
def bigEndian (bytes : List Nat) : Nat := bytes.foldl (fun n b => n * 2 ^ 8 + b) 0

/-- The bytes of the extractor's own 5→8 conversion with padding, over the leading ceil(D/5) symbols (R75). The
conversion never fails, since P = 1 (R62). -/
def extractBytes (d : Nat) (syms : List Nat) : List Nat :=
  (convert Config.xsymWidth 8 true (syms.take (ceilDiv d Config.xsymWidth))).getD []

/-- The function the extractor computes (R75): symbols after the leading ceil(D/5) are not read. -/
def extract (d : Nat) (syms : List Nat) : Nat :=
  bigEndian (extractBytes d syms) >>> (8 * (extractBytes d syms).length - d)

end Sys2Proof.Machine
end

