-- ==== Sys2Proof/Machine/Converter.lean ====
section
/-! DEFINITION. The converter family: CFG, PUSH, FIN and POP (40_converter.md R63 to R66). -/

namespace Sys2Proof.Machine

/-- The writes of a legal CFG (R63): a new conversion is open, with nothing fed, nothing queued and no error. -/
def openConversion (f t : BitVec 4) (pad : Bool) (s : State) : State :=
  { s with
    mode := .run, err := 0, fromBits := f, toBits := t, pad := pad, acc := 0, bits := 0, outq := [] }

/-- CFG F, T, P (R63). -/
def execCfg (f t : BitVec 4) (pad : Bool) (s : State) : Host.Outcome State Fault Refusal :=
  if LegalWidth f ∧ LegalWidth t then respond .ok 0 (openConversion f t pad s)
  else reject .eParam s

/-- BITS + FROM, the bit count before the emission loop of a PUSH (R64). -/
def pushCount (s : State) : Nat := s.bits.toNat + s.fromBits.toNat

/-- `k := (BITS + FROM) div TO`, the number of symbols a PUSH emits (R64). -/
def pushEmits (s : State) : Nat := pushCount s / s.toBits.toNat

/-- ACC with the new symbol shifted in (R21, R64). -/
def pushAcc (sym : BitVec 8) (s : State) : Nat := shiftIn s.acc.toNat s.fromBits.toNat sym.toNat

/-- The symbols the emission loop of a PUSH appends, and the bit count it leaves (R64). -/
def pushEmission (sym : BitVec 8) (s : State) : List Nat × Nat :=
  emit s.toBits.toNat (pushAcc sym s) (pushCount s)

/-- The writes of an accepted PUSH (R64). -/
def acceptSymbol (sym : BitVec 8) (s : State) : State :=
  { s with
    acc := BitVec.ofNat 15 (pushAcc sym s)
    bits := BitVec.ofNat 4 (pushEmission sym s).2
    outq := s.outq ++ (pushEmission sym s).1.map (BitVec.ofNat 8) }

/-- PUSH SYM (R64), its checks in the order of R96. -/
def execPush (sym : BitVec 8) (s : State) : Host.Outcome State Fault Refusal :=
  if s.mode ≠ .run then reject .eState s
  else if ¬FitsWidth sym s.fromBits.toNat then abort .eRange s
  else if s.outqDepth < s.outq.length + pushEmits s then reject .eFull s
  else respond .ok 0 (acceptSymbol sym s)

/-- The residual of the open conversion at the top of a TO-bit symbol (R65). -/
def finResidual (s : State) : Nat := topResidual s.toBits.toNat s.acc.toNat s.bits.toNat

/-- The writes of a successful FIN (R65), besides the padded symbol it may append. -/
def closeConversion (s : State) : State := { s with acc := 0, bits := 0, mode := .done }

/-- One symbol appended to OUTQ (R23). -/
def enqueue (v : Nat) (s : State) : State := { s with outq := s.outq ++ [BitVec.ofNat 8 v] }

/-- FIN with PAD = 1 (R65): a residual is padded to one more symbol, if OUTQ has room. -/
def finPadded (s : State) : Host.Outcome State Fault Refusal :=
  if 0 < s.bits.toNat then
    if s.outq.length = s.outqDepth then reject .eFull s
    else respond .ok 0 (closeConversion (enqueue (finResidual s) s))
  else respond .ok 0 (closeConversion s)

/-- FIN with PAD = 0 (R65): a residual of FROM or more bits, or one that is not all zero, fails the conversion. -/
def finUnpadded (s : State) : Host.Outcome State Fault Refusal :=
  if s.fromBits.toNat ≤ s.bits.toNat ∨ finResidual s ≠ 0 then abort .eConv s
  else respond .ok 0 (closeConversion s)

/-- FIN (R65), its checks in the order of R96. -/
def execFin (s : State) : Host.Outcome State Fault Refusal :=
  if s.mode ≠ .run then reject .eState s
  else if s.pad then finPadded s
  else finUnpadded s

/-- POP (R66): the oldest output symbol, zero-extended to 64 bits. -/
def execPop (s : State) : Host.Outcome State Fault Refusal :=
  match s.outq with
  | [] => reject .eEmpty s
  | v :: rest => respond .ok (v.setWidth 64) { s with outq := rest }

end Sys2Proof.Machine
end

