-- ==== Sys2Proof/Machine/Extractor.lean ====
section
/-! DEFINITION. The extractor family: XPUSH and XRUN (41_extractor.md R78, R79), which read and write only XSYM (R80). -/

namespace Sys2Proof.Machine

/-- XPUSH SYM (R78), its checks in the order of R96. -/
def execXpush (sym : BitVec 8) (s : State) : Host.Outcome State Fault Refusal :=
  if ¬FitsWidth sym Config.xsymWidth then xdiscard .eRange s
  else if s.xsym.length = Config.xsymDepth then reject .eFull s
  else respond .ok 0 { s with xsym := s.xsym ++ [sym.setWidth 5] }

/-- The slice as numbers (R24). -/
def slice (s : State) : List Nat := s.xsym.map BitVec.toNat

/-- XRUN D (R79), its checks in the order of R96: every outcome empties XSYM. -/
def execXrun (d : BitVec 7) (s : State) : Host.Outcome State Fault Refusal :=
  if ¬LegalDatabits d then xdiscard .eParam s
  else if s.xsym.length < ceilDiv d.toNat Config.xsymWidth then xdiscard .eTrunc s
  else respond .ok (BitVec.ofNat 64 (extract d.toNat (slice s))) (dropSlice s)

end Sys2Proof.Machine
end

