-- ==== Sys2Proof/Machine/Dispatch.lean ====
section
/-! DEFINITION. The meaning of every command: one arm per row of the opcode map (30_encoding.md R52). -/

namespace Sys2Proof.Machine

def exec (i : Instr) (s : State) : Host.Outcome State Fault Refusal :=
  match i with
  | .nop => Sys2Proof.Machine.execNop s
  | .cfg f t pad => Sys2Proof.Machine.execCfg f t pad s
  | .push sym => Sys2Proof.Machine.execPush sym s
  | .fin => Sys2Proof.Machine.execFin s
  | .pop => Sys2Proof.Machine.execPop s
  | .xpush sym => Sys2Proof.Machine.execXpush sym s
  | .xrun d => Sys2Proof.Machine.execXrun d s
  | .stat => Sys2Proof.Machine.execStat s
  | .rst => Sys2Proof.Machine.execRst s

end Sys2Proof.Machine
end

