-- ==== Sys2Proof/Machine/Command.lean ====
section
/-! DEFINITION. What one event of the host or the platform does: a command word is decoded and executed
(30_encoding.md R58), an illegal one is refused with E_ILLEGAL (42_control.md R87), a reset resets (70_reset_and_hazards.md
R107). -/

namespace Sys2Proof.Machine

/-- One command word: the command it decodes to (30_encoding.md R58), or R87's illegal word, which no other check
precedes (60_exceptions.md R96). -/
def execWord (w : CmdWord) (s : State) : Host.Outcome State Fault Refusal :=
  match decode w with
  | .ok i => exec i s
  | .error _ => execIllegal s

/-- One event of the host or the platform (70_reset_and_hazards.md R107, R122). -/
def execEvent (e : HostEvent) (s : State) : Host.Outcome State Fault Refusal :=
  match e with
  | .command w => execWord w s
  | .hardwareReset => hardwareReset s

end Sys2Proof.Machine
end

