-- ==== Sys2Proof/Machine/Step.lean ====
section
/-! DEFINITION. One step of BSX: the host's next event takes effect as a whole (00_scope.md R5; 20_memory.md R40, R41). -/

namespace Sys2Proof.Machine

/-- One step: the next event takes effect. Where the host issues nothing, BSX takes no step of its own (R14), so
the state stays as it is (DESIGN CHOICE, safe: log entry 3). -/
def step (s : State) : Host.Outcome State Fault Refusal :=
  match nextEvent s with
  | none => .next s
  | some (e, s') => execEvent e s'

/-- The state whose next step runs the given command word: it stands before what the host issues next (log entry 1). -/
def State.withFetchWord (s : State) (nbits w : Nat) : State := offer (.command (tableWord nbits w)) s

end Sys2Proof.Machine
end

