-- ==== Sys2Proof/WellFormed.lean ====
section
/-! DEFINITION. Which source lines the assembler accepts (30_encoding.md R59, R60): every operand fits its field, and
an `xget` has exactly the symbols its width needs. A term of `Instr` needs no check: its operand types are its fields. -/

namespace Sys2Proof

/-- F and T are 4-bit fields (R48): "F or T > 15" is refused (R59). -/
def fitsWidthField (n : Nat) : Bool := n < 16

/-- SYM is an 8-bit field (R49): "SYM > 255" is refused (R59). -/
def fitsSymField (n : Nat) : Bool := n < 256

/-- D is a 7-bit field (R50): "D > 127" is refused (R59). -/
def fitsDField (n : Nat) : Bool := n < 128

/-- A command word is 16 bits (R45, R59's `.word <16-bit value>`). -/
def fitsWord (n : Nat) : Bool := n < 65536

/-- What the assembler accepts (R59), with R60's condition n = ceil(D/5) on `xget`. Values that fit their field but
are out of the legal range are accepted, so that the errors of R55 can be written. -/
def AsmLine.wellFormed : AsmLine → Bool
  | .nop => true
  | .cfg f t _ => fitsWidthField f && fitsWidthField t
  | .push sym => fitsSymField sym
  | .fin => true
  | .pop => true
  | .xpush sym => fitsSymField sym
  | .xrun d => fitsDField d
  | .stat => true
  | .rst => true
  | .word v => fitsWord v
  | .cvt f t _ syms => fitsWidthField f && fitsWidthField t && syms.all fitsSymField
  | .xget d syms => fitsDField d && syms.all fitsSymField && syms.length == (d + 4) / 5

end Sys2Proof
end

