-- ==== Sys2Proof/Machine/Assembler.lean ====
section
/-! DEFINITION. The assembler (30_encoding.md R59) and its pseudo-instructions (R60): source lines to command words,
and the text of one line to a source line. Text is a list of characters. What R59 leaves open of the text (spaces,
empty lines, the case of hexadecimal digits) is log entry 10. -/

namespace Sys2Proof.Machine

/-- The word of `cfg F, T, pad|nopad` (R59). -/
def cfgWord (f t : Nat) (pad : Bool) : CmdWord := encode (.cfg (BitVec.ofNat 4 f) (BitVec.ofNat 4 t) pad)

/-- The word of `push SYM` (R59). -/
def pushWord (sym : Nat) : CmdWord := encode (.push (BitVec.ofNat 8 sym))

/-- The word of `xpush SYM` (R59). -/
def xpushWord (sym : Nat) : CmdWord := encode (.xpush (BitVec.ofNat 8 sym))

/-- The word of `xrun D` (R59). -/
def xrunWord (d : Nat) : CmdWord := encode (.xrun (BitVec.ofNat 7 d))

/-- The words a line stands for (R59), a pseudo-instruction's by its exact expansion (R60). -/
def lineWords : AsmLine → List CmdWord
  | .nop => [encode .nop]
  | .cfg f t pad => [cfgWord f t pad]
  | .push sym => [pushWord sym]
  | .fin => [encode .fin]
  | .pop => [encode .pop]
  | .xpush sym => [xpushWord sym]
  | .xrun d => [xrunWord d]
  | .stat => [encode .stat]
  | .rst => [encode .rst]
  | .word v => [BitVec.ofNat 16 v]
  | .cvt f t pad syms => [cfgWord f t pad] ++ syms.map pushWord ++ [encode .fin]
  | .xget d syms => syms.map xpushWord ++ [xrunWord d]

/-- The assembler on one line: `none` where R59 or R60 says it refuses. -/
def assemble (line : AsmLine) : Option (List CmdWord) :=
  if line.wellFormed then some (lineWords line) else none

/-- One operand as written: a number, or the word `pad` or `nopad`. -/
inductive AsmArg where
  | number (n : Nat)
  | policy (pad : Bool)
deriving DecidableEq, Repr

/-- The value of a digit, decimal or hexadecimal. -/
def digitValue (c : Char) : Option Nat :=
  if '0' ≤ c ∧ c ≤ '9' then some (c.toNat - '0'.toNat)
  else if 'a' ≤ c ∧ c ≤ 'f' then some (c.toNat - 'a'.toNat + 10)
  else if 'A' ≤ c ∧ c ≤ 'F' then some (c.toNat - 'A'.toNat + 10)
  else none

/-- The number the digits write in the given base; `none` for a character that is no digit of it. -/
def readDigits (base : Nat) : List Char → Nat → Option Nat
  | [], n => some n
  | c :: rest, n =>
    match digitValue c with
    | none => none
    | some v => if v < base then readDigits base rest (n * base + v) else none

/-- "Numbers are decimal, or hexadecimal with a `0x` prefix" (R59). -/
def readNumber : List Char → Option Nat
  | [] => none
  | '0' :: 'x' :: [] => none
  | '0' :: 'x' :: digits => readDigits 16 digits 0
  | digits => readDigits 10 digits 0

/-- One operand (R59). -/
def readArg : List Char → Option AsmArg
  | ['p', 'a', 'd'] => some (.policy true)
  | ['n', 'o', 'p', 'a', 'd'] => some (.policy false)
  | text => (readNumber text).map .number

/-- The white space between the parts of a line. -/
def isBlank (c : Char) : Bool := c == ' ' || c == '\t'

/-- The line without its comment: "`;` starts a comment" (R59). -/
def dropComment (text : List Char) : List Char := text.takeWhile (· ≠ ';')

/-- The text without blanks at either end. -/
def trim (text : List Char) : List Char := ((text.dropWhile isBlank).reverse.dropWhile isBlank).reverse

/-- The parts between a separator. -/
def splitAt (sep : Char) : List Char → List (List Char)
  | [] => [[]]
  | c :: rest =>
    if c == sep then [] :: splitAt sep rest
    else
      match splitAt sep rest with
      | [] => [[c]]
      | part :: parts => (c :: part) :: parts

/-- The operands after a mnemonic, between commas; none for blank text. -/
def readArgs (text : List Char) : Option (List AsmArg) :=
  if trim text = [] then some [] else ((splitAt ',' text).map trim).mapM readArg

/-- The numbers of a list of symbols (R60's s0, ..., s(n−1)). -/
def numbersOnly : List AsmArg → Option (List Nat)
  | [] => some []
  | .number n :: rest => (numbersOnly rest).map (n :: ·)
  | .policy _ :: _ => none

/-- The syntax table of R59 and R60: a lower-case mnemonic with its operands. -/
def readCommand : List Char → List AsmArg → Option AsmLine
  | ['n', 'o', 'p'], [] => some .nop
  | ['c', 'f', 'g'], [.number f, .number t, .policy pad] => some (.cfg f t pad)
  | ['p', 'u', 's', 'h'], [.number sym] => some (.push sym)
  | ['f', 'i', 'n'], [] => some .fin
  | ['p', 'o', 'p'], [] => some .pop
  | ['x', 'p', 'u', 's', 'h'], [.number sym] => some (.xpush sym)
  | ['x', 'r', 'u', 'n'], [.number d] => some (.xrun d)
  | ['s', 't', 'a', 't'], [] => some .stat
  | ['r', 's', 't'], [] => some .rst
  | ['.', 'w', 'o', 'r', 'd'], [.number v] => some (.word v)
  | ['c', 'v', 't'], .number f :: .number t :: .policy pad :: syms =>
    (numbersOnly syms).map (.cvt f t pad ·)
  | ['x', 'g', 'e', 't'], .number d :: syms => (numbersOnly syms).map (.xget d ·)
  | _, _ => none

/-- One line's text without its comment, as a command with its operands. -/
def readTrimmed (text : List Char) : Option AsmLine :=
  match readArgs (text.dropWhile (!isBlank ·)) with
  | none => none
  | some args => readCommand (text.takeWhile (!isBlank ·)) args

/-- The assembler on one line of text (R59): no words for an empty line or a comment alone, `none` where it refuses. -/
def assembleText (text : List Char) : Option (List CmdWord) :=
  match trim (dropComment text) with
  | [] => some []
  | c :: rest => (readTrimmed (c :: rest)).bind assemble

/-- The assembler on a whole source, "one command per line" (R59). -/
def assembleSource (text : List Char) : Option (List CmdWord) :=
  ((splitAt '\n' text).mapM assembleText).map List.flatten

end Sys2Proof.Machine
end

