-- ==== Sys2Proof/Machine/Platform.lean ====
section
/-! DEFINITION. Several BSX instances on one platform (60_exceptions.md R105): each has its own complete state, and an
event goes to one of them. -/

namespace Sys2Proof.Machine

/-- The instances of a platform, by number. BSX itself has no instance identifier (R105). -/
abbrev Platform := List State

/-- One event of the host for instance `n`; an instance the platform lacks receives nothing. -/
def issueTo (n : Nat) (e : HostEvent) (p : Platform) : Platform :=
  p.modify n fun s =>
    match execEvent e s with
    | .next s' => s'
    | .fault _ => s
    | .refused _ => s

end Sys2Proof.Machine
end

