-- ==== Sys2Proof/Machine/Conversion.lean ====
section
/-! DEFINITION. What a conversion is (40_converter.md R67): a record kept BESIDE the machine, which no command reads, of
each conversion's configuration and end and of the symbols it was fed, emitted and handed to the host (log entry 14). The
laws of R29, R34, R67, R68 and R112 are told with it. -/

namespace Sys2Proof.Machine

/-- Where a conversion stands (R67). -/
inductive Phase where
  /-- No CFG has returned OK yet, so there is no conversion. -/
  | never
  /-- Opened by a CFG that returned OK; its outputs are provisional (R29). -/
  | opened
  /-- Ended by a FIN that returned OK. -/
  | succeeded
  /-- Ended by an abort: E_RANGE at PUSH or E_CONV at FIN. -/
  | failed
  /-- Ended by the next OK CFG, an RST or a hardware reset. -/
  | abandoned
deriving DecidableEq, Repr

/-- The record of one conversion (R67, R68). -/
structure Conversion where
  phase : Phase
  /-- F, T and P of the CFG that opened it. -/
  fromBits : BitVec 4
  toBits : BitVec 4
  pad : Bool
  /-- The operands of its PUSHes that returned OK or aborted, in order (R68). -/
  pushed : List (BitVec 8)
  /-- The symbols its PUSHes and its FIN appended to OUTQ, in order: the emitted sequence (R67). -/
  emitted : List OutSym
  /-- The symbols the host took with POP since its CFG (R67). -/
  popped : List OutSym
deriving DecidableEq, Repr

/-- The record before any conversion. -/
def Conversion.none : Conversion := ⟨.never, 0, 0, false, [], [], []⟩

/-- The record right after a CFG F, T, P that returned OK. -/
def Conversion.start (f t : BitVec 4) (pad : Bool) : Conversion := ⟨.opened, f, t, pad, [], [], []⟩

/-- The end of a conversion by the next OK CFG, an RST or a hardware reset: abandoned, if it had not ended before (R67). -/
def Conversion.abandon (c : Conversion) : Conversion :=
  { c with phase := if c.phase = .opened then .abandoned else c.phase }

/-- The conversion as the next OK CFG leaves it behind; nothing where there was none. -/
def Conversion.leftBehind (c : Conversion) : List Conversion := if c.phase = .never then [] else [c.abandon]

/-- The STATUS of the latest response. -/
def lastStatus (s : State) : Option Status := s.responses.getLast?.map (·.status)

/-- The DATA of the latest response. -/
def lastData (s : State) : Option Data := s.responses.getLast?.map (·.data)

/-- What a command appended to OUTQ, read off the queue before it and after it. -/
def appended (before after : State) : List OutSym := after.outq.drop before.outq.length

/-- The record after one command that led from `before` to `after` (R67, R68). -/
def Conversion.note (i : Instr) (before after : State) (c : Conversion) : Conversion :=
  match i, lastStatus after with
  | .cfg f t pad, some .ok => Conversion.start f t pad
  | .push sym, some .ok =>
    { c with pushed := c.pushed ++ [sym], emitted := c.emitted ++ appended before after }
  | .push sym, some .eRange => { c with pushed := c.pushed ++ [sym], phase := .failed }
  | .fin, some .ok => { c with emitted := c.emitted ++ appended before after, phase := .succeeded }
  | .fin, some .eConv => { c with phase := .failed }
  | .pop, some .ok => { c with popped := c.popped ++ before.outq.take 1 }
  | .rst, _ => c.abandon
  | _, _ => c

/-- What a command that led to `after` moves from the latest record to the earlier ones: a CFG that returned OK, the
conversion before it (R67). -/
def Conversion.closed (i : Instr) (after : State) (c : Conversion) : List Conversion :=
  match i, lastStatus after with
  | .cfg _ _ _, some .ok => c.leftBehind
  | _, _ => []

/-- The machine with the record of its latest conversion and of those before it, oldest first. -/
structure Tracked where
  state : State
  conv : Conversion
  past : List Conversion
deriving DecidableEq, Repr

/-- A machine with no conversion on record. -/
def Tracked.fresh (s : State) : Tracked := ⟨s, Conversion.none, []⟩

/-- The record after a command that led to `after`. -/
def Tracked.noteCommand (k : Tracked) (i : Instr) (after : State) : Tracked :=
  ⟨after, k.conv.note i k.state after, k.past ++ k.conv.closed i after⟩

/-- The record after a hardware reset that led to `after`: it ends an open conversion as RST does (R67, R107). -/
def Tracked.noteReset (k : Tracked) (after : State) : Tracked := ⟨after, k.conv.abandon, k.past⟩

/-- The record after any event that led to `after` (R67): a command, an illegal word, which ends nothing (R87), or a
hardware reset. -/
def Tracked.note (k : Tracked) (e : HostEvent) (after : State) : Tracked :=
  match e with
  | .hardwareReset => k.noteReset after
  | .command w =>
    match decode w with
    | .ok i => k.noteCommand i after
    | .error _ => { k with state := after }

/-- One command, noted in the record. -/
def Tracked.issue (k : Tracked) (i : Instr) : Tracked :=
  match exec i k.state with
  | .next s => k.noteCommand i s
  | .fault _ => k
  | .refused _ => k

/-- A list of commands, one after another, as the host issues them (R41). -/
def Tracked.issueAll (k : Tracked) (cs : List Instr) : Tracked := cs.foldl Tracked.issue k

/-- One event of the host or the platform, noted in the record. -/
def Tracked.receive (k : Tracked) (e : HostEvent) : Tracked :=
  match execEvent e k.state with
  | .next s => k.note e s
  | .fault _ => k
  | .refused _ => k

/-- The host's next event, taken and noted: the machine's own step with the record beside it. -/
def Tracked.step (k : Tracked) : Tracked :=
  match nextEvent k.state with
  | .none => k
  | .some (e, s) => ({ k with state := s } : Tracked).receive e

/-- A state right after a CFG that returned OK, with the record it opens (R63, R67). -/
def startTracked (f t : BitVec 4) (pad : Bool) (s : State) : Tracked :=
  ⟨openConversion f t pad s, Conversion.start f t pad, []⟩

/-- A symbol's bits in stream order, the most significant first (R12, R33). -/
def msbBits : Nat → Nat → List Bool
  | 0, _ => []
  | w + 1, v => v.testBit w :: msbBits w v

/-- The bit stream of a sequence of `w`-bit symbols (R12, R33, R34). -/
def stream (w : Nat) (syms : List Nat) : List Bool := syms.flatMap (msbBits w)

/-- A sequence of `w`-bit symbols read as one number, the first symbol most significant (R62's V, R76's S). -/
def streamValue (w : Nat) (syms : List Nat) : Nat := syms.foldl (fun v x => v * 2 ^ w + x) 0

end Sys2Proof.Machine
end

