-- ==== Sys2Proof/Safety.lean ====
section
/-! DEFINITION. What a good state is (10_state.md R30) and what a good host does (70_reset_and_hazards.md R112 to R119):
the terms statements use. Nothing here is part of the machine. -/

namespace Sys2Proof.Machine

/-- R30, 1: MODE = IDLE ⇒ FROM = 0 ∧ TO = 0 ∧ PAD = 0 ∧ OUTQ = []. -/
abbrev State.IdleUnconfigured (s : State) : Prop :=
  s.mode = .idle → s.fromBits = 0 ∧ s.toBits = 0 ∧ s.pad = false ∧ s.outq = []

/-- R30, 2: MODE ≠ IDLE ⇒ 1 ≤ FROM ≤ 8 ∧ 1 ≤ TO ≤ 8. -/
abbrev State.WidthsLegal (s : State) : Prop :=
  s.mode ≠ .idle → (1 ≤ s.fromBits.toNat ∧ s.fromBits.toNat ≤ 8) ∧ 1 ≤ s.toBits.toNat ∧ s.toBits.toNat ≤ 8

/-- R30, 3: MODE = RUN ⇒ BITS < TO. -/
abbrev State.BitsBelowTo (s : State) : Prop := s.mode = .run → s.bits.toNat < s.toBits.toNat

/-- R30, 4: MODE ≠ RUN ⇒ BITS = 0 ∧ ACC = 0. -/
abbrev State.ClosedEmpty (s : State) : Prop := s.mode ≠ .run → s.bits = 0 ∧ s.acc = 0

/-- R30, 5: MODE = ERROR ⇒ OUTQ = [] ∧ ERR ∈ {3, 7}. -/
abbrev State.ErrorNamed (s : State) : Prop := s.mode = .error → s.outq = [] ∧ (s.err = 3 ∨ s.err = 7)

/-- R30, 6: MODE ≠ ERROR ⇒ ERR = 0. -/
abbrev State.ErrClear (s : State) : Prop := s.mode ≠ .error → s.err = 0

/-- R30, 7: len(OUTQ) ≤ OUTQ_DEPTH, and every entry of OUTQ is < 2^TO. -/
abbrev State.QueueBounded (s : State) : Prop :=
  s.outq.length ≤ s.outqDepth ∧ ∀ v ∈ s.outq, v.toNat < 2 ^ s.toBits.toNat

/-- R30, 8: len(XSYM) ≤ 13. (Every entry is < 32: its type says so.) -/
abbrev State.SliceBounded (s : State) : Prop := s.xsym.length ≤ 13

/-- R30, 9: BITS ≤ 7 between commands. (ACC < 2^15: its type says so.) -/
abbrev State.BitsSmall (s : State) : Prop := s.bits.toNat ≤ 7

/-- The nine invariants of R30, with the legal range of the parameter OUTQ_DEPTH (R9). -/
abbrev State.Wf (s : State) : Prop :=
  Config.LegalDepth s.outqDepth ∧ s.IdleUnconfigured ∧ s.WidthsLegal ∧ s.BitsBelowTo ∧ s.ClosedEmpty ∧
    s.ErrorNamed ∧ s.ErrClear ∧ s.QueueBounded ∧ s.SliceBounded ∧ s.BitsSmall

/-- Two instances agree on the spec's whole state (R15), whatever the host still sends and has been told. -/
abbrev State.SameUnits (s t : State) : Prop :=
  { s with inputs := [], responses := [] } = ({ t with inputs := [], responses := [] } : State)

/-- Two states agree on everything but the bits of ACC above BITS, which are hidden (R28). -/
abbrev State.SameVisible (s t : State) : Prop :=
  { s with acc := 0 } = ({ t with acc := 0 } : State) ∧
    s.acc.toNat % 2 ^ s.bits.toNat = t.acc.toNat % 2 ^ t.bits.toNat

/-- Two states agree on every field of the converter and its parameter (R15's MODE through OUTQ). -/
abbrev State.SameConverter (s t : State) : Prop :=
  s.mode = t.mode ∧ s.err = t.err ∧ s.fromBits = t.fromBits ∧ s.toBits = t.toBits ∧ s.pad = t.pad ∧ s.acc = t.acc ∧
    s.bits = t.bits ∧ s.outq = t.outq ∧ s.outqDepth = t.outqDepth

/-- Every conversion on record, the latest last. -/
def Tracked.all (k : Tracked) : List Conversion := k.past ++ [k.conv]

/-- The latest conversion's outputs have not been discarded (R67): it is open, or has succeeded and MODE is still DONE. -/
abbrev Tracked.Live (k : Tracked) : Prop :=
  k.conv.phase = .opened ∨ (k.conv.phase = .succeeded ∧ k.state.mode = .done)

/-- The record and MODE agree (R16, R67): a conversion is open exactly while MODE is RUN, and every earlier one has ended. -/
abbrev Tracked.PhaseAgrees (k : Tracked) : Prop :=
  (k.conv.phase = .never → k.state.mode = .idle) ∧ (k.conv.phase = .opened → k.state.mode = .run) ∧
    (k.conv.phase = .succeeded → k.state.mode = .done ∨ k.state.mode = .idle) ∧
    (k.conv.phase = .failed → k.state.mode = .error ∨ k.state.mode = .idle) ∧
    (k.conv.phase = .abandoned → k.state.mode = .idle) ∧
    ∀ c ∈ k.past, c.phase = .succeeded ∨ c.phase = .failed ∨ c.phase = .abandoned

/-- The record and OUTQ agree (R67): the emitted sequence is what was popped and then what is queued, until it is discarded;
after that OUTQ is empty; and the host never gets more than the emitted sequence, in its order. -/
abbrev Tracked.QueueAgrees (k : Tracked) : Prop :=
  (k.Live → k.conv.emitted = k.conv.popped ++ k.state.outq) ∧ (¬k.Live → k.state.outq = []) ∧
    ∀ c ∈ k.all, c.popped <+: c.emitted

/-- The machine's converter holds the open conversion's configuration, in the legal range (R63, R67). -/
abbrev Tracked.Configured (k : Tracked) : Prop :=
  k.state.fromBits = k.conv.fromBits ∧ k.state.toBits = k.conv.toBits ∧ k.state.pad = k.conv.pad ∧
    LegalWidth k.conv.fromBits ∧ LegalWidth k.conv.toBits

/-- The input of a conversion as numbers (R68's s). -/
def Conversion.input (c : Conversion) : List Nat := c.pushed.map BitVec.toNat

/-- The emitted sequence of a conversion as numbers (R67). -/
def Conversion.output (c : Conversion) : List Nat := c.emitted.map BitVec.toNat

/-- A conversion that has ended gave what convert gives (R68): one that succeeded, convert's output; one that failed was fed a
too wide symbol, or convert gives none. -/
abbrev Conversion.EndsAsConvert (c : Conversion) : Prop :=
  (c.phase = .succeeded → convert c.fromBits.toNat c.toBits.toNat c.pad c.input = some c.output) ∧
    (c.phase = .failed →
      (∃ x ∈ c.input, 2 ^ c.fromBits.toNat ≤ x) ∨ convert c.fromBits.toNat c.toBits.toNat c.pad c.input = .none)

/-- R68 on the machine: while a conversion is open, ACC, BITS and the emitted sequence are the variables of R61's loop after the
symbols fed so far, all in range; and every conversion that has ended, ended as convert does. -/
abbrev Tracked.ConvertAgrees (k : Tracked) : Prop :=
  (k.conv.phase = .opened → k.Configured ∧ (∀ x ∈ k.conv.input, x < 2 ^ k.conv.fromBits.toNat) ∧
    feedAll k.conv.fromBits.toNat k.conv.toBits.toNat k.conv.input =
      ⟨k.state.acc.toNat, k.state.bits.toNat, k.conv.output⟩) ∧
    ∀ c ∈ k.all, c.EndsAsConvert

/-- R34 on the machine: while a conversion is open, the emitted bits followed by ACC's BITS low bits are the pushed bits, in
order. -/
abbrev Tracked.StreamAgrees (k : Tracked) : Prop :=
  k.conv.phase = .opened → k.Configured ∧ k.state.bits.toNat < k.conv.toBits.toNat ∧
    stream k.conv.toBits.toNat k.conv.output ++ msbBits k.state.bits.toNat k.state.acc.toNat =
      stream k.conv.fromBits.toNat k.conv.input

/-- R112: the popped symbols are results only once the conversion's FIN has returned OK. -/
def Conversion.outputsFinal (c : Conversion) : Bool := c.phase == .succeeded

/-- R29: the popped symbols are provisional while the conversion is open. -/
def Conversion.outputsProvisional (c : Conversion) : Bool := c.phase == .opened

/-- R113: a CFG or RST that would silently lose outputs of a conversion that has succeeded. -/
def losesOutputs (i : Instr) (s : State) : Bool :=
  match i with
  | .cfg f t _ => decide (LegalWidth f ∧ LegalWidth t) && s.mode == .done && !s.outq.isEmpty
  | .rst => s.mode == .done && !s.outq.isEmpty
  | _ => false

/-- R114: how many symbols the host must POP before a PUSH refused with E_FULL has room. -/
def pushShortfall (s : State) : Nat := pushEmits s - (s.outqDepth - s.outq.length)

/-- R118: the slice holds exactly the symbols an XRUN of this width needs. -/
def exactSlice (d : BitVec 7) (s : State) : Bool := s.xsym.length == ceilDiv d.toNat Config.xsymWidth

/-- Which client holds the conversion context and which the slice context (R116). -/
structure Holders where
  conv : Option Nat
  slice : Option Nat
deriving DecidableEq, Repr

/-- R116: the commands no other client may issue while one client's conversion is open. -/
def usesConverter : Instr → Bool
  | .cfg _ _ _ => true
  | .push _ => true
  | .fin => true
  | .pop => true
  | .rst => true
  | .nop => false
  | .xpush _ => false
  | .xrun _ => false
  | .stat => false

/-- R116: the commands no other client may issue between one client's first XPUSH and its XRUN. -/
def usesSlice : Instr → Bool
  | .xpush _ => true
  | .xrun _ => true
  | .rst => true
  | .nop => false
  | .cfg _ _ _ => false
  | .push _ => false
  | .fin => false
  | .pop => false
  | .stat => false

/-- R116: client `c` may issue `i` beside the contexts others hold. -/
def Holders.permit (h : Holders) (c : Nat) (i : Instr) : Bool :=
  (!usesConverter i || h.conv.all (· == c)) && (!usesSlice i || h.slice.all (· == c))

/-- Who holds which context after client `c`'s command `i` led to `after`: a conversion is held while MODE is RUN (R67). -/
def Holders.next (h : Holders) (c : Nat) (i : Instr) (after : State) : Holders where
  conv :=
    if after.mode = .run then
      match i with
      | .cfg _ _ _ => if lastStatus after = some .ok then some c else h.conv
      | _ => h.conv
    else none
  slice :=
    match i with
    | .xpush _ => some (h.slice.getD c)
    | .xrun _ => none
    | .rst => none
    | _ => h.slice

/-- R116: the clients of one instance serialise their conversions and their extractions. BSX cannot detect a breach. -/
def serialised (h : Holders) (s : State) : List (Nat × Instr) → Bool
  | [] => true
  | (c, i) :: rest =>
    h.permit c i &&
      match exec i s with
      | .next s' => serialised (h.next c i s') s' rest
      | .fault _ => false
      | .refused _ => false

end Sys2Proof.Machine
end

