-- ==== Sys2Proof/Certificates/Slice0/Obligations.lean ====
section
/-! DEFINITION. The statements about BSX, from the numbered rules of spec/. A next state is written out field by field
(`{ s with … }`: every field not named is as before), so an equation is a completion statement, a result and a
frame at once. BSX has no memory, no registers and no flags (R25, R27, R37), so no frame has to speak of them. -/

open Sys2Proof Sys2Proof.Machine

/-! ### Encoding -/

/-- R58 ("Encoding is the inverse on the nine commands"): the decoder reads every command back from its own word, with
every operand at every value its field admits. -/
def Obligations.DecodeReadsBackEveryEncodedCommand : Prop :=
  ∀ i : Instr, decode (encode i) = .ok i

/-- R58: a word that decodes is the word of the command it decodes to, so no bit of a legal word is dropped. -/
def Obligations.DecodedWordIsItsCommandsWord : Prop :=
  ∀ (w : CmdWord) (i : Instr), decode w = .ok i → encode i = w

/-- R52 whole: the nine rows of match and mask, the word of each command with its operand bits, "A word w is command X
exactly when (w & mask_X) = match_X", and at most one row matches a word. -/
def Obligations.OpcodeMapDecidesEveryWord : Prop :=
  opcodeMap =
      [⟨"NOP", 0x0000#16, 0xFFFF#16⟩, ⟨"CFG", 0x1000#16, 0xF00E#16⟩, ⟨"PUSH", 0x2000#16, 0xFF00#16⟩,
        ⟨"FIN", 0x3000#16, 0xFFFF#16⟩, ⟨"POP", 0x4000#16, 0xFFFF#16⟩, ⟨"XPUSH", 0x5000#16, 0xFF00#16⟩,
        ⟨"XRUN", 0x6000#16, 0xFF80#16⟩, ⟨"STAT", 0x7000#16, 0xFFFF#16⟩, ⟨"RST", 0x8000#16, 0xFFFF#16⟩] ∧
    (∀ i : Instr, (encode i).toNat =
      match i with
      | .nop => 0x0000
      | .cfg f t pad => 0x1000 + 0x100 * f.toNat + 0x10 * t.toNat + pad.toNat
      | .push sym => 0x2000 + sym.toNat
      | .fin => 0x3000
      | .pop => 0x4000
      | .xpush sym => 0x5000 + sym.toNat
      | .xrun d => 0x6000 + d.toNat
      | .stat => 0x7000
      | .rst => 0x8000) ∧
    (∀ (w : CmdWord), ∀ r ∈ opcodeMap, w &&& r.maskBits = r.matchBits ↔ ∃ i, decode w = .ok i ∧ rowOf i = r) ∧
    ∀ (w : CmdWord), ∀ r ∈ opcodeMap, ∀ r' ∈ opcodeMap,
      w &&& r.maskBits = r.matchBits → w &&& r'.maskBits = r'.matchBits → r = r'

/-- R51: every operand field is read as an unsigned number: F = w[11:8], T = w[7:4], P = w[0], SYM = w[7:0], D = w[6:0]. -/
def Obligations.OperandsAreReadUnsigned : Prop :=
  ∀ w : CmdWord,
    (∀ f t pad, decode w = .ok (.cfg f t pad) →
      f.toNat = w.toNat / 2 ^ 8 % 2 ^ 4 ∧ t.toNat = w.toNat / 2 ^ 4 % 2 ^ 4 ∧ pad.toNat = w.toNat % 2) ∧
    (∀ sym, decode w = .ok (.push sym) → sym.toNat = w.toNat % 2 ^ 8) ∧
    (∀ sym, decode w = .ok (.xpush sym) → sym.toNat = w.toNat % 2 ^ 8) ∧
    (∀ d, decode w = .ok (.xrun d) → d.toNat = w.toNat % 2 ^ 7)

/-- R53, R54, R87: a word whose OP is 0x9 to 0xF, or with a 1 in a bit its format marks must-be-zero, is answered with
(E_ILLEGAL, 0) and changes nothing, in every state; a word is illegal exactly then, which is exactly when it matches no row
of R52, so every other word decodes. -/
def Obligations.IllegalWordsAreAnsweredAndChangeNothing : Prop :=
  ∀ w : CmdWord,
    let op := w.toNat / 2 ^ 12
    let illegal := 9 ≤ op ∨
      ((op = 0 ∨ op = 3 ∨ op = 4 ∨ op = 7 ∨ op = 8) ∧ w.toNat % 2 ^ 12 ≠ 0) ∨
      (op = 1 ∧ w.toNat / 2 % 2 ^ 3 ≠ 0) ∨
      ((op = 2 ∨ op = 5) ∧ w.toNat / 2 ^ 8 % 2 ^ 4 ≠ 0) ∨
      (op = 6 ∧ w.toNat / 2 ^ 7 % 2 ^ 5 ≠ 0)
    (illegal ↔ ∀ i, decode w ≠ .ok i) ∧ (illegal ↔ ∀ r ∈ opcodeMap, w &&& r.maskBits ≠ r.matchBits) ∧
      ∀ (s : State) (rest : List HostEvent), illegal → s.inputs = .command w :: rest →
        step s = .next { s with inputs := rest, responses := s.responses ++ [⟨.eIllegal, 0⟩] }

/-- Words written out from the spec's encodings (R52, R63 to R66, R78, R79, R83 to R87) decode as the spec says. -/
def Obligations.SpecWordsDecodeAsTheSpecSays : Prop :=
  decode 0x0000#16 = .ok .nop ∧ decode 0x1851#16 = .ok (.cfg 8 5 true) ∧ decode 0x1580#16 = .ok (.cfg 5 8 false) ∧
    decode 0x20FF#16 = .ok (.push 0xFF) ∧ decode 0x3000#16 = .ok .fin ∧ decode 0x4000#16 = .ok .pop ∧
    decode 0x5001#16 = .ok (.xpush 1) ∧ decode 0x6023#16 = .ok (.xrun 35) ∧ decode 0x7000#16 = .ok .stat ∧
    decode 0x8000#16 = .ok .rst ∧ decode 0x9000#16 = .error (.reservedOpcode 9) ∧
    decode 0x3001#16 = .error (.nonZeroMustBeZero 3) ∧ decode 0x1852#16 = .error (.nonZeroMustBeZero 1)

/-! ### The step -/

/-- A step takes the host's next word and runs exactly the command it decodes to, on the state with that word taken
(R5, R41); BSX adds nothing around it. How words wait in `inputs` is the model's choice (log entry 1). -/
def Obligations.StepRunsTheDecodedCommand : Prop :=
  ∀ (s : State) (w : CmdWord) (rest : List HostEvent) (i : Instr),
    s.inputs = .command w :: rest → decode w = .ok i → step s = exec i { s with inputs := rest }

/-- R107: a hardware reset sets every state field to its reset value and produces no response; RST has the same effect on state. -/
def Obligations.HardwareResetSetsEveryFieldAndAnswersNothing : Prop :=
  (∀ (s : State) (rest : List HostEvent), s.inputs = .hardwareReset :: rest →
    step s = .next
      { mode := .idle, err := 0, fromBits := 0, toBits := 0, pad := false, acc := 0, bits := 0, outq := [], xsym := [],
        outqDepth := s.outqDepth, inputs := rest, responses := s.responses }) ∧
  ∀ (s t u : State), hardwareReset s = .next t → exec .rst s = .next u → u.SameUnits t

/-- BSX takes no step on its own (R14): with nothing from the host a step changes nothing. That the step function answers
the same state there is the model's choice (log entry 3). -/
def Obligations.StepWithoutInputChangesNothing : Prop :=
  ∀ s : State, s.inputs = [] → step s = .next s

/-- R56, R122: running all that the host sends never stops, takes every event, keeps the earlier responses, and adds exactly
one response per command word, legal or illegal, and none for a hardware reset. -/
def Obligations.RunAnswersEveryCommandExactlyOnce : Prop :=
  ∀ s : State, ∃ t : State, Host.Core.run Sys2Proof.core s.inputs.length s = .next t ∧ t.inputs = [] ∧
    ∃ added : List Response, t.responses = s.responses ++ added ∧
      added.length = (s.inputs.filter fun e => e != .hardwareReset).length

/-- R41: each response reflects exactly the commands issued before it and that command itself, so what the host sends
later changes neither the state reached nor the responses given so far. -/
def Obligations.LaterCommandsDoNotReachBack : Prop :=
  ∀ (s t : State) (later : List HostEvent), Host.Core.run Sys2Proof.core s.inputs.length s = .next t →
    Host.Core.run Sys2Proof.core s.inputs.length { s with inputs := s.inputs ++ later } = .next { t with inputs := later }

/-! ### Reset and the invariants -/

/-- R31: every field has its reset value in the state after reset, at every OUTQ_DEPTH, and after a hardware reset or an
RST from any state. -/
def Obligations.ResetGivesEveryFieldTheSpecsValue : Prop :=
  ∀ t : State, (∃ d, t = State.resetWith d) ∨ (∃ s, hardwareReset s = .next t) ∨ (∃ s, exec .rst s = .next t) →
    t.mode = .idle ∧ t.err = 0 ∧ t.fromBits = 0 ∧ t.toBits = 0 ∧ t.pad = false ∧ t.acc = 0 ∧ t.bits = 0 ∧
      t.outq = [] ∧ t.xsym = []

/-- R30: the nine invariants hold at reset, at every legal OUTQ_DEPTH. -/
def Obligations.ResetStateIsWellFormed : Prop :=
  ∀ d : Nat, Config.LegalDepth d → (State.resetWith d).Wf

/-- R30: every step, whatever the event, keeps the nine invariants, from every state that has them. -/
def Obligations.StepKeepsTheInvariants : Prop :=
  ∀ s t : State, s.Wf → step s = .next t → t.Wf

/-- R30: every state reachable from reset, by any words and resets in any order, satisfies the nine invariants. -/
def Obligations.ReachableStatesAreWellFormed : Prop :=
  ∀ (d n : Nat) (events : List HostEvent) (t : State), Config.LegalDepth d →
    Host.Core.run Sys2Proof.core n { State.resetWith d with inputs := events } = .next t → t.Wf

/-- R110: until a CFG returns OK every PUSH and FIN gets E_STATE, whatever other commands come before it; and XPUSH, XRUN,
STAT, NOP, RST and POP work from reset, POP returning E_EMPTY. -/
def Obligations.HostMustConfigureBeforeConverting : Prop :=
  ∀ d : Nat,
    (∀ cs : List Instr, (∀ c ∈ cs, ∀ f t pad, c = .cfg f t pad → ¬(LegalWidth f ∧ LegalWidth t)) →
      let k := (Tracked.fresh (State.resetWith d)).issueAll cs
      (∀ sym, lastStatus (k.issue (.push sym)).state = some .eState) ∧ lastStatus (k.issue .fin).state = some .eState) ∧
    (∀ sym : BitVec 8, sym.toNat < 32 → exec (.xpush sym) (State.resetWith d) =
      .next { State.resetWith d with xsym := [sym.setWidth 5], responses := [⟨.ok, 0⟩] }) ∧
    exec (.xrun 0) (State.resetWith d) = .next { State.resetWith d with responses := [⟨.ok, 0⟩] } ∧
    exec .stat (State.resetWith d) = .next { State.resetWith d with responses := [⟨.ok, 0⟩] } ∧
    exec .nop (State.resetWith d) = .next { State.resetWith d with responses := [⟨.ok, 0⟩] } ∧
    exec .rst (State.resetWith d) = .next { State.resetWith d with responses := [⟨.ok, 0⟩] } ∧
    exec .pop (State.resetWith d) = .next { State.resetWith d with responses := [⟨.eEmpty, 0⟩] }

/-! ### The result and the frame of each command -/

/-- R83: NOP answers (OK, 0) and changes no state. -/
def Obligations.NopAnswersOkAndChangesNothing : Prop :=
  ∀ s : State, execWord 0x0000#16 s = exec .nop s ∧ exec .nop s = .next { s with responses := s.responses ++ [⟨.ok, 0⟩] }

/-- R84, R85: STAT answers OK with the status word, each field in its place and every bit not listed 0, and changes no state. -/
def Obligations.StatAnswersTheStatusWord : Prop :=
  ∀ s : State, s.Wf → execWord 0x7000#16 s = exec .stat s ∧ exec .stat s = .next { s with
    responses := s.responses ++ [⟨.ok, 0#28 ++ BitVec.ofNat 4 s.xsym.length ++ BitVec.ofNat 8 s.outq.length ++ s.bits ++
      0#3 ++ BitVec.ofBool s.pad ++ s.toBits ++ s.fromBits ++ s.err ++ 0#2 ++ s.mode.code⟩] }

/-- R86, R31: RST sets every field to its reset value and answers (OK, 0). -/
def Obligations.RstRestoresTheResetState : Prop :=
  ∀ s : State, execWord 0x8000#16 s = exec .rst s ∧ exec .rst s = .next
    { mode := .idle, err := 0, fromBits := 0, toBits := 0, pad := false, acc := 0, bits := 0, outq := [], xsym := [],
      outqDepth := s.outqDepth, inputs := s.inputs, responses := s.responses ++ [⟨.ok, 0⟩] }

/-- R63: CFG with F and T in 1..8 opens a new conversion, in every mode; otherwise it rejects with E_PARAM. -/
def Obligations.CfgOpensAConversionOrRejects : Prop :=
  ∀ (f t : BitVec 4) (pad : Bool) (s : State),
    execWord (0b0001#4 ++ f ++ t ++ 0b000#3 ++ BitVec.ofBool pad) s = exec (.cfg f t pad) s ∧ exec (.cfg f t pad) s =
    if f.toNat < 1 ∨ 8 < f.toNat ∨ t.toNat < 1 ∨ 8 < t.toNat then
      .next { s with responses := s.responses ++ [⟨.eParam, 0⟩] }
    else
      .next { s with
        fromBits := f, toBits := t, pad := pad, acc := 0, bits := 0, outq := [], err := 0, mode := .run,
        responses := s.responses ++ [⟨.ok, 0⟩] }

/-- R64: PUSH, its four outcomes in order. The accepted one appends k = (BITS + FROM) div TO symbols, the j-th being the
TO bits of ACC that start TO·j bits below the top, and leaves (BITS + FROM) mod TO bits. -/
def Obligations.PushFeedsOneSymbol : Prop :=
  ∀ (sym : BitVec 8) (s : State), s.Wf →
    let fromW := s.fromBits.toNat
    let toW := s.toBits.toNat
    let b := s.bits.toNat + fromW
    let k := b / toW
    let acc := ((s.acc.toNat <<< fromW) ||| sym.toNat) % 2 ^ 15
    execWord (0b00100000#8 ++ sym) s = exec (.push sym) s ∧ exec (.push sym) s =
      if s.mode ≠ .run then .next { s with responses := s.responses ++ [⟨.eState, 0⟩] }
      else if 2 ^ fromW ≤ sym.toNat then
        .next { s with
          mode := .error, err := 3, outq := [], acc := 0, bits := 0, responses := s.responses ++ [⟨.eRange, 0⟩] }
      else if s.outqDepth < s.outq.length + k then .next { s with responses := s.responses ++ [⟨.eFull, 0⟩] }
      else
        .next { s with
          acc := BitVec.ofNat 15 acc
          outq := s.outq ++ (List.range k).map fun j => BitVec.ofNat 8 (acc / 2 ^ (b - toW * (j + 1)) % 2 ^ toW)
          bits := BitVec.ofNat 4 (b % toW)
          responses := s.responses ++ [⟨.ok, 0⟩] }

/-- R65: FIN, its outcomes in order, under both padding policies; r is the residual at the top of a TO-bit symbol. -/
def Obligations.FinAppliesThePaddingPolicy : Prop :=
  ∀ s : State, s.Wf →
    let r := s.acc.toNat * 2 ^ (s.toBits.toNat - s.bits.toNat) % 2 ^ s.toBits.toNat
    execWord 0x3000#16 s = exec .fin s ∧ exec .fin s =
      if s.mode ≠ .run then .next { s with responses := s.responses ++ [⟨.eState, 0⟩] }
      else if s.pad = true then
        if 0 < s.bits.toNat then
          if s.outq.length = s.outqDepth then .next { s with responses := s.responses ++ [⟨.eFull, 0⟩] }
          else
            .next { s with
              outq := s.outq ++ [BitVec.ofNat 8 r], acc := 0, bits := 0, mode := .done,
              responses := s.responses ++ [⟨.ok, 0⟩] }
        else .next { s with acc := 0, bits := 0, mode := .done, responses := s.responses ++ [⟨.ok, 0⟩] }
      else if s.fromBits.toNat ≤ s.bits.toNat ∨ r ≠ 0 then
        .next { s with
          mode := .error, err := 7, outq := [], acc := 0, bits := 0, responses := s.responses ++ [⟨.eConv, 0⟩] }
      else .next { s with acc := 0, bits := 0, mode := .done, responses := s.responses ++ [⟨.ok, 0⟩] }

/-- R66: POP takes the oldest output symbol, zero-extended, in every mode; with OUTQ empty it rejects with E_EMPTY. -/
def Obligations.PopTakesTheOldestSymbol : Prop :=
  (∀ s : State, execWord 0x4000#16 s = exec .pop s) ∧
    (∀ s : State, s.outq = [] → exec .pop s = .next { s with responses := s.responses ++ [⟨.eEmpty, 0⟩] }) ∧
    ∀ (s : State) (v : OutSym) (rest : List OutSym), s.outq = v :: rest →
      exec .pop s = .next { s with outq := rest, responses := s.responses ++ [⟨.ok, BitVec.ofNat 64 v.toNat⟩] }

/-- R78: XPUSH appends one 5-bit symbol; a wider one empties the slice with E_RANGE; a full slice rejects with E_FULL. -/
def Obligations.XpushAppendsOneSymbol : Prop :=
  ∀ (sym : BitVec 8) (s : State),
    execWord (0b01010000#8 ++ sym) s = exec (.xpush sym) s ∧ exec (.xpush sym) s =
    if 32 ≤ sym.toNat then .next { s with xsym := [], responses := s.responses ++ [⟨.eRange, 0⟩] }
    else if s.xsym.length = 13 then .next { s with responses := s.responses ++ [⟨.eFull, 0⟩] }
    else
      .next { s with xsym := s.xsym ++ [BitVec.ofNat 5 sym.toNat], responses := s.responses ++ [⟨.ok, 0⟩] }

/-- R79: XRUN extracts from the front of the slice and empties it on every outcome. -/
def Obligations.XrunExtractsAndConsumesTheSlice : Prop :=
  ∀ (d : BitVec 7) (s : State),
    execWord (0b011000000#9 ++ d) s = exec (.xrun d) s ∧ exec (.xrun d) s =
    if 64 < d.toNat then .next { s with xsym := [], responses := s.responses ++ [⟨.eParam, 0⟩] }
    else if s.xsym.length < (d.toNat + 4) / 5 then
      .next { s with xsym := [], responses := s.responses ++ [⟨.eTrunc, 0⟩] }
    else
      .next { s with
        xsym := []
        responses := s.responses ++ [⟨.ok, BitVec.ofNat 64 (extract d.toNat (s.xsym.map BitVec.toNat))⟩] }

/-! ### Responses and errors over all commands -/

/-- R56: every command word, legal or illegal, produces exactly one response; DATA is 0 unless STATUS is OK and the command
is POP, XRUN or STAT; as one word STATUS is bits [67:64] and DATA bits [63:0]. -/
def Obligations.EveryWordGetsOneResponse : Prop :=
  (∀ (w : CmdWord) (s : State), ∃ (t : State) (r : Response), execWord w s = .next t ∧
    t.responses = s.responses ++ [r] ∧ t.inputs = s.inputs ∧ t.outqDepth = s.outqDepth ∧
    (r.status ≠ .ok → r.data = 0) ∧
    (r.data ≠ 0 → decode w = .ok .pop ∨ (∃ d, decode w = .ok (.xrun d)) ∨ decode w = .ok .stat)) ∧
  ∀ r : Response, r.word.toNat = r.status.code.toNat * 2 ^ 64 + r.data.toNat

/-- R57: the nine STATUS codes are 0 to 8, each another; 9 to 15 are never produced. -/
def Obligations.StatusCodesAreZeroToEight : Prop :=
  Status.code .ok = 0 ∧ Status.code .eIllegal = 1 ∧ Status.code .eParam = 2 ∧ Status.code .eRange = 3 ∧
    Status.code .eState = 4 ∧ Status.code .eFull = 5 ∧ Status.code .eEmpty = 6 ∧ Status.code .eConv = 7 ∧
    Status.code .eTrunc = 8 ∧ ∀ st : Status, st.code.toNat ≤ 8

/-- R96: exactly when a word is answered with each error, which is R96's order of checks, decoding first: an earlier
condition hides the later ones. -/
def Obligations.EachErrorHasExactlyItsCause : Prop :=
  ∀ (w : CmdWord) (s t : State), execWord w s = .next t →
    (lastStatus t = some .eIllegal ↔ ∀ i, decode w ≠ .ok i) ∧
    (lastStatus t = some .eParam ↔
      (∃ f u pad, decode w = .ok (.cfg f u pad) ∧ ¬((1 ≤ f.toNat ∧ f.toNat ≤ 8) ∧ 1 ≤ u.toNat ∧ u.toNat ≤ 8)) ∨
      ∃ d, decode w = .ok (.xrun d) ∧ 64 < d.toNat) ∧
    (lastStatus t = some .eRange ↔
      (∃ sym, decode w = .ok (.push sym) ∧ s.mode = .run ∧ 2 ^ s.fromBits.toNat ≤ sym.toNat) ∨
      ∃ sym, decode w = .ok (.xpush sym) ∧ 32 ≤ sym.toNat) ∧
    (lastStatus t = some .eState ↔ ((∃ sym, decode w = .ok (.push sym)) ∨ decode w = .ok .fin) ∧ s.mode ≠ .run) ∧
    (lastStatus t = some .eFull ↔
      (∃ sym, decode w = .ok (.push sym) ∧ s.mode = .run ∧ sym.toNat < 2 ^ s.fromBits.toNat ∧
        s.outqDepth < s.outq.length + (s.bits.toNat + s.fromBits.toNat) / s.toBits.toNat) ∨
      (decode w = .ok .fin ∧ s.mode = .run ∧ s.pad = true ∧ 0 < s.bits.toNat ∧ s.outq.length = s.outqDepth) ∨
      ∃ sym, decode w = .ok (.xpush sym) ∧ sym.toNat < 32 ∧ s.xsym.length = 13) ∧
    (lastStatus t = some .eEmpty ↔ decode w = .ok .pop ∧ s.outq = []) ∧
    (lastStatus t = some .eConv ↔
      decode w = .ok .fin ∧ s.mode = .run ∧ s.pad = false ∧
        (s.fromBits.toNat ≤ s.bits.toNat ∨
          s.acc.toNat * 2 ^ (s.toBits.toNat - s.bits.toNat) % 2 ^ s.toBits.toNat ≠ 0)) ∧
    (lastStatus t = some .eTrunc ↔
      ∃ d, decode w = .ok (.xrun d) ∧ d.toNat ≤ 64 ∧ s.xsym.length < (d.toNat + 4) / 5)

/-- R93, R94, R95: what each error leaves. A reject leaves every field unchanged; an abort writes exactly MODE, ERR, OUTQ,
ACC and BITS; an xdiscard writes exactly XSYM. -/
def Obligations.ErrorsRejectAbortOrDiscard : Prop :=
  ∀ (w : CmdWord) (s t : State) (st : Status), execWord w s = .next t → lastStatus t = some st →
    (st = .eIllegal ∨ st = .eState ∨ st = .eFull ∨ st = .eEmpty ∨
        (st = .eParam ∧ ∃ f u pad, decode w = .ok (.cfg f u pad)) →
      t = { s with responses := s.responses ++ [⟨st, 0⟩] }) ∧
    (st = .eConv ∨ (st = .eRange ∧ ∃ sym, decode w = .ok (.push sym)) →
      t = { s with
        mode := .error, err := st.code, outq := [], acc := 0, bits := 0, responses := s.responses ++ [⟨st, 0⟩] }) ∧
    (st = .eTrunc ∨ (st = .eRange ∧ ∃ sym, decode w = .ok (.xpush sym)) ∨
        (st = .eParam ∧ ∃ d, decode w = .ok (.xrun d)) →
      t = { s with xsym := [], responses := s.responses ++ [⟨st, 0⟩] })

/-- R97: an illegal word reaches no other check; a too wide PUSH outside RUN gets E_STATE and keeps the mode; a too wide PUSH
gets E_RANGE, not E_FULL, however full OUTQ is; a too wide XPUSH into a full slice gets E_RANGE and empties the slice. -/
def Obligations.EarlierChecksHideLaterOnes : Prop :=
  (∀ (w : CmdWord) (s t : State), (∀ i, decode w ≠ .ok i) → execWord w s = .next t → lastStatus t = some .eIllegal) ∧
    (∀ (sym : BitVec 8) (s t : State), s.mode ≠ .run → 2 ^ s.fromBits.toNat ≤ sym.toNat → exec (.push sym) s = .next t →
      lastStatus t = some .eState ∧ t.mode = s.mode) ∧
    (∀ (sym : BitVec 8) (s t : State), s.mode = .run → 2 ^ s.fromBits.toNat ≤ sym.toNat → s.outq.length = s.outqDepth →
      exec (.push sym) s = .next t → lastStatus t = some .eRange ∧ t.mode = .error) ∧
    ∀ (sym : BitVec 8) (s t : State), 32 ≤ sym.toNat → s.xsym.length = 13 → exec (.xpush sym) s = .next t →
      lastStatus t = some .eRange ∧ t.xsym = []

/-- R99: in ERROR only a legal CFG and RST (and a hardware reset) change MODE; PUSH and FIN get E_STATE, POP gets E_EMPTY,
and XPUSH, XRUN, STAT and NOP do what they do in every other mode. -/
def Obligations.ErrorIsLeftOnlyByCfgOrReset : Prop :=
  ∀ s : State, s.Wf → s.mode = .error →
    (∀ (w : CmdWord) (t : State), execWord w s = .next t → t.mode ≠ .error →
      (t.mode = .run ∧ t.err = 0 ∧ ∃ f u pad, decode w = .ok (.cfg f u pad) ∧ LegalWidth f ∧ LegalWidth u) ∨
      (t.mode = .idle ∧ decode w = .ok .rst)) ∧
    (∀ t : State, hardwareReset s = .next t → t.mode = .idle) ∧
    (∀ sym, exec (.push sym) s = .next { s with responses := s.responses ++ [⟨.eState, 0⟩] }) ∧
    exec .fin s = .next { s with responses := s.responses ++ [⟨.eState, 0⟩] } ∧
    exec .pop s = .next { s with responses := s.responses ++ [⟨.eEmpty, 0⟩] } ∧
    ∀ (i : Instr) (m : Mode) (t u : State), ((∃ sym, i = .xpush sym) ∨ (∃ d, i = .xrun d) ∨ i = .stat ∨ i = .nop) →
      exec i s = .next t → exec i { s with mode := m } = .next u →
      lastStatus u = lastStatus t ∧ u.xsym = t.xsym ∧ (i ≠ .stat → lastData u = lastData t) ∧ t.SameConverter s

/-- R100: in ERROR no command aborts again, so ERR keeps the first cause until CFG, RST or reset; extractor commands
never change MODE or ERR, in any mode. -/
def Obligations.FirstCauseStaysInErr : Prop :=
  (∀ (w : CmdWord) (s t : State), s.mode = .error → execWord w s = .next t →
    (∀ f u pad, decode w ≠ .ok (.cfg f u pad)) → decode w ≠ .ok .rst → t.mode = .error ∧ t.err = s.err) ∧
  ∀ (i : Instr) (s t : State), ((∃ sym, i = .xpush sym) ∨ ∃ d, i = .xrun d) → exec i s = .next t →
    t.mode = s.mode ∧ t.err = s.err

/-- R32: which fields each command may write; every field a command is not listed for stays as it is. -/
def Obligations.CommandsWriteOnlyTheFieldsOfTheAccessMatrix : Prop :=
  ∀ (i : Instr) (s t : State), exec i s = .next t →
    t.outqDepth = s.outqDepth ∧ t.inputs = s.inputs ∧
    ((∀ f u p, i ≠ .cfg f u p) → i ≠ .rst →
      t.fromBits = s.fromBits ∧ t.toBits = s.toBits ∧ t.pad = s.pad ∧
      ((∀ sym, i ≠ .push sym) → i ≠ .fin →
        t.mode = s.mode ∧ t.err = s.err ∧ t.acc = s.acc ∧ t.bits = s.bits ∧ (i ≠ .pop → t.outq = s.outq))) ∧
    ((∀ sym, i ≠ .xpush sym) → (∀ d, i ≠ .xrun d) → i ≠ .rst → t.xsym = s.xsym) ∧
    ((∃ sym, i = .push sym) → t.mode = s.mode ∨ (t.mode = .error ∧ t.err = 3)) ∧
    (i = .fin → t.mode = s.mode ∨ t.mode = .done ∨ (t.mode = .error ∧ t.err = 7))

/-- R80: the units are independent. CFG, PUSH, FIN and POP do the same whatever XSYM holds and leave it; XPUSH and XRUN do
the same whatever the converter holds and leave it. -/
def Obligations.UnitsDoNotAffectEachOther : Prop :=
  (∀ (i : Instr) (s t : State) (x : List XSym),
    ((∃ f u pad, i = .cfg f u pad) ∨ (∃ sym, i = .push sym) ∨ i = .fin ∨ i = .pop) → exec i s = .next t →
      t.xsym = s.xsym ∧ exec i { s with xsym := x } = .next { t with xsym := x }) ∧
  ∀ (i : Instr) (s t c : State), ((∃ sym, i = .xpush sym) ∨ ∃ d, i = .xrun d) → exec i s = .next t →
    t.SameConverter s ∧
      exec i { c with xsym := s.xsym, responses := s.responses } =
        .next { c with xsym := t.xsym, responses := t.responses }

/-- R40: CFG, STAT, NOP and RST are idempotent (a second issue leaves the same state and answers the same); XRUN, unless
D = 0, gets E_TRUNC the second time, and FIN gets E_STATE the second time. -/
def Obligations.RepeatedCommandsAreIdempotentOrRefused : Prop :=
  (∀ (i : Instr) (s t u : State), ((∃ f w pad, i = .cfg f w pad) ∨ i = .stat ∨ i = .nop ∨ i = .rst) →
    exec i s = .next t → exec i t = .next u →
    u.SameUnits t ∧ lastStatus u = lastStatus t ∧ lastData u = lastData t) ∧
  (∀ (d : BitVec 7) (s t u : State), 0 < d.toNat → d.toNat ≤ 64 → exec (.xrun d) s = .next t → exec (.xrun d) t = .next u →
    lastStatus u = some .eTrunc) ∧
  ∀ s t u : State, exec .fin s = .next t → lastStatus t = some .ok → exec .fin t = .next u → lastStatus u = some .eState

/-- R36: every value in DATA is unsigned and zero-extended: a popped symbol is below 2^TO, an extracted integer below 2^D, the
status word below 2^36. -/
def Obligations.DataIsZeroExtended : Prop :=
  ∀ (s t : State) (data : Data), s.Wf → lastData t = some data →
    (exec .pop s = .next t → data.toNat < 2 ^ s.toBits.toNat) ∧
    (∀ d, exec (.xrun d) s = .next t → data.toNat < 2 ^ d.toNat) ∧
    (exec .stat s = .next t → data.toNat < 2 ^ 36)

/-! ### The converter's algorithm -/

/-- R62: the closed form of convert, on every input that meets its precondition, for both padding policies. -/
def Obligations.ConvertHasTheClosedForm : Prop :=
  ∀ (f t : Nat) (syms : List Nat), 1 ≤ f → f ≤ 8 → 1 ≤ t → t ≤ 8 → (∀ x ∈ syms, x < 2 ^ f) →
    let len := syms.length * f
    let v := streamValue f syms
    let m := len / t
    let rho := len % t
    let whole := (List.range m).map fun j => v / 2 ^ (len - t * (j + 1)) % 2 ^ t
    let c := feedAll f t syms
    (c.out = whole ∧ c.bits = rho ∧ c.acc % 2 ^ rho = v % 2 ^ rho) ∧
    convert f t true syms = some (whole ++ if rho = 0 then [] else [v % 2 ^ rho * 2 ^ (t - rho)]) ∧
    (∀ out, convert f t true syms = some out → out.length = (len + t - 1) / t) ∧
    convert f t false syms = (if rho < f ∧ v % 2 ^ rho = 0 then some whole else none) ∧
    (∀ pad, syms = [] → convert f t pad syms = some []) ∧
    ∀ pad, f = t → convert f t pad syms = some syms

/-- R68: for every conversion and every interleaving of the other commands, the machine computes convert. A too wide PUSH
aborts with E_RANGE and the conversion fails; else, unless OUTQ lacks room, FIN returns OK exactly when convert gives
some(out), the emitted sequence then being out, and aborts with E_CONV exactly when convert gives none. The record of a
conversion that tells this is the model's reading of R67 (log entry 14). -/
def Obligations.EveryConversionComputesConvert : Prop :=
  ∀ (f t : BitVec 4) (pad : Bool) (s : State) (cs : List Instr), LegalWidth f → LegalWidth t →
    (∀ c ∈ cs, c ≠ .rst ∧ ∀ f' t' pad', c ≠ .cfg f' t' pad') →
    let k := (startTracked f t pad s).issueAll cs
    let input := k.conv.pushed.map BitVec.toNat
    let z := k.issue .fin
    k.conv.phase = .opened →
      (∀ x ∈ input, x < 2 ^ f.toNat) ∧
      (∀ sym : BitVec 8, 2 ^ f.toNat ≤ sym.toNat →
        lastStatus (k.issue (.push sym)).state = some .eRange ∧ (k.issue (.push sym)).conv.phase = .failed) ∧
      (lastStatus z.state ≠ some .eFull →
        (lastStatus z.state = some .ok ↔ ∃ out, convert f.toNat t.toNat pad input = some out) ∧
        (∀ out, convert f.toNat t.toNat pad input = some out → z.conv.emitted.map BitVec.toNat = out) ∧
        (lastStatus z.state = some .eConv ↔ convert f.toNat t.toNat pad input = none))

/-- R33, R34: bits leave in the order they came, most significant first. While a conversion is open, the emitted symbols'
bits followed by the BITS low bits of ACC are exactly the pushed symbols' bits; at a successful FIN the emitted bits are the
whole stream, with zero bits added up to a whole symbol (PAD = 1) or fewer than FROM zero bits dropped (PAD = 0, R65;
log entry 9 on R34's last sentence). The record of a conversion is the model's reading of R67 (log entry 14). -/
def Obligations.OutputBitsAreTheInputBitsInOrder : Prop :=
  ∀ (f t : BitVec 4) (pad : Bool) (s : State) (cs : List Instr), LegalWidth f → LegalWidth t →
    (∀ c ∈ cs, c ≠ .rst ∧ ∀ f' t' pad', c ≠ .cfg f' t' pad') →
    let k := (startTracked f t pad s).issueAll cs
    let input := stream f.toNat (k.conv.pushed.map BitVec.toNat)
    let z := k.issue .fin
    k.conv.phase = .opened →
      stream t.toNat (k.conv.emitted.map BitVec.toNat) ++ msbBits k.state.bits.toNat k.state.acc.toNat = input ∧
      (lastStatus z.state = some .ok →
        (pad = true → ∃ n, n < t.toNat ∧
          stream t.toNat (z.conv.emitted.map BitVec.toNat) = input ++ List.replicate n false) ∧
        (pad = false → ∃ n, n < f.toNat ∧
          input = stream t.toNat (z.conv.emitted.map BitVec.toNat) ++ List.replicate n false))

/-- R67: OUTQ is first-in first-out. While a conversion is open or has succeeded, the symbols the host has popped, followed by
those still in OUTQ, are exactly the emitted sequence, in order. The record of a conversion is log entry 14's. -/
def Obligations.PoppedThenQueuedIsTheEmittedSequence : Prop :=
  ∀ (f t : BitVec 4) (pad : Bool) (s : State) (cs : List Instr), (∀ c ∈ cs, c ≠ .rst) →
    let k := (startTracked f t pad s).issueAll cs
    k.conv.phase = .opened ∨ k.conv.phase = .succeeded → k.conv.emitted = k.conv.popped ++ k.state.outq

/-- R67: what opens a conversion and what ends it, over every event and from every machine whose record agrees with its MODE.
A CFG that returns OK opens a new one and ends an open one as abandoned; a FIN that returns OK ends it as succeeded; an abort, as
failed; an RST or a hardware reset, as abandoned; nothing else ends it. After its end its phase, its input and its
emitted sequence stay as they are, so the first of these events is the one that counts. Its emitted sequence grows by just what an
OK PUSH or FIN appends to OUTQ, and an OK POP hands over OUTQ's head. Its outputs are gone from OUTQ after an OK
CFG, an RST, a hardware reset or its abort. The record is kept beside the machine (log entry 14). -/
def Obligations.ConversionEndsAtTheFirstEndingEvent : Prop :=
  ∀ (k : Tracked) (e : HostEvent) (s : State), k.PhaseAgrees → execEvent e k.state = .next s →
    let z := k.receive e
    let reconfigured := ∃ w f t pad, e = .command w ∧ decode w = .ok (.cfg f t pad) ∧ lastStatus s = some .ok
    let reset := e = .hardwareReset ∨ ∃ w, e = .command w ∧ decode w = .ok .rst
    let finished := ∃ w, e = .command w ∧ decode w = .ok .fin ∧ lastStatus s = some .ok
    let fed := ∃ w sym, e = .command w ∧ decode w = .ok (.push sym) ∧ lastStatus s = some .ok
    let aborted := ∃ w, e = .command w ∧
      ((decode w = .ok .fin ∧ lastStatus s = some .eConv) ∨
        ∃ sym, decode w = .ok (.push sym) ∧ lastStatus s = some .eRange)
    z.state = s ∧ z.PhaseAgrees ∧
    (∀ w f t pad, e = .command w → decode w = .ok (.cfg f t pad) → lastStatus s = some .ok →
      z.conv = ⟨.opened, f, t, pad, [], [], []⟩) ∧
    (reconfigured → z.past = k.past ++
      if k.conv.phase = .never then []
      else [{ k.conv with phase := if k.conv.phase = .opened then .abandoned else k.conv.phase }]) ∧
    (¬reconfigured → z.past = k.past ∧ z.conv.fromBits = k.conv.fromBits ∧ z.conv.toBits = k.conv.toBits ∧
      z.conv.pad = k.conv.pad) ∧
    (k.conv.phase = .opened →
      (reset → z.conv.phase = .abandoned) ∧ (finished → z.conv.phase = .succeeded) ∧
      (aborted → z.conv.phase = .failed) ∧
      (¬reconfigured → ¬reset → ¬finished → ¬aborted → z.conv.phase = .opened)) ∧
    (k.conv.phase ≠ .opened → ¬reconfigured →
      z.conv.phase = k.conv.phase ∧ z.conv.pushed = k.conv.pushed ∧ z.conv.emitted = k.conv.emitted) ∧
    (fed ∨ finished → ∃ new, s.outq = k.state.outq ++ new ∧ z.conv.emitted = k.conv.emitted ++ new) ∧
    (¬fed → ¬finished → ¬reconfigured → z.conv.emitted = k.conv.emitted) ∧
    (∀ w, e = .command w → decode w = .ok .pop → lastStatus s = some .ok →
      ∃ v, k.state.outq = v :: s.outq ∧ z.conv.popped = k.conv.popped ++ [v]) ∧
    (reconfigured ∨ reset ∨ aborted → s.outq = [])

/-- R67, R68, R34: the record agrees with the machine in a state after reset, at every depth, and right after a CFG that
returned OK, in every state. The record is log entry 14's. -/
def Obligations.RecordAgreesAtResetAndAfterCfg : Prop :=
  (∀ d : Nat, (Tracked.fresh (State.resetWith d)).PhaseAgrees ∧ (Tracked.fresh (State.resetWith d)).QueueAgrees ∧
    (Tracked.fresh (State.resetWith d)).ConvertAgrees ∧ (Tracked.fresh (State.resetWith d)).StreamAgrees) ∧
  ∀ (f t : BitVec 4) (pad : Bool) (s : State), LegalWidth f → LegalWidth t →
    (startTracked f t pad s).PhaseAgrees ∧ (startTracked f t pad s).QueueAgrees ∧
      (startTracked f t pad s).ConvertAgrees ∧ (startTracked f t pad s).StreamAgrees

/-- R67: every step of the machine, whatever the event, keeps the record in agreement with MODE and with OUTQ: a conversion is
open exactly while MODE is RUN, and the host gets the emitted sequence, in order, until its outputs are discarded. The record
is log entry 14's. -/
def Obligations.StepKeepsTheEmittedSequenceInOrder : Prop :=
  ∀ (k : Tracked) (s : State), k.PhaseAgrees → k.QueueAgrees → step k.state = .next s →
    k.step.state = s ∧ k.step.PhaseAgrees ∧ k.step.QueueAgrees

/-- R68: every step of the machine, whatever the event, keeps ACC, BITS and the emitted sequence equal to the variables of
R61's loop over the symbols fed so far, and every conversion that ends, ends as convert does. The record is log entry 14's. -/
def Obligations.StepKeepsTheConverterEqualToConvert : Prop :=
  ∀ (k : Tracked) (s : State), k.PhaseAgrees → k.ConvertAgrees → step k.state = .next s →
    k.step.state = s ∧ k.step.PhaseAgrees ∧ k.step.ConvertAgrees

/-- R33, R34: every step of the machine, whatever the event, keeps the emitted bits followed by ACC's BITS low bits equal to the
pushed bits, most significant first. The record is log entry 14's. -/
def Obligations.StepKeepsTheOutputBitsInInputOrder : Prop :=
  ∀ (k : Tracked) (s : State), k.StreamAgrees → step k.state = .next s → k.step.state = s ∧ k.step.StreamAgrees

/-- R70: a PUSH emits at most (TO − 1 + FROM) div TO ≤ 8 symbols, 8 only at FROM = 8, TO = 1; the pairs with a bound of 4 or
more; and on an empty OUTQ neither a PUSH nor a FIN is ever rejected with E_FULL. -/
def Obligations.EmissionIsBounded : Prop :=
  (∀ s : State, s.Wf → s.mode = .run →
    pushEmits s ≤ (s.toBits.toNat - 1 + s.fromBits.toNat) / s.toBits.toNat ∧ pushEmits s ≤ 8 ∧
    (pushEmits s = 8 → s.fromBits = 8 ∧ s.toBits = 1)) ∧
  (∀ f t : Nat, 1 ≤ f → f ≤ 8 → 1 ≤ t → t ≤ 8 →
    (t - 1 + f) / t ≤ 8 ∧ ((t - 1 + f) / t = 8 ↔ (f, t) = (8, 1)) ∧
    (4 ≤ (t - 1 + f) / t ↔ (f, t) ∈ [(4, 1), (5, 1), (6, 1), (7, 1), (7, 2), (8, 1), (8, 2)])) ∧
  ((8 - 1 + 5) / 8 = 1 ∧ (5 - 1 + 8) / 5 = 2) ∧
  (∀ s t : State, exec .fin s = .next t → t.outq.length ≤ s.outq.length + 1) ∧
  ∀ s t : State, s.Wf → s.outq = [] →
    ((∃ sym, exec (.push sym) s = .next t) ∨ exec .fin s = .next t) → lastStatus t ≠ some .eFull

/-- R114: after E_FULL the same PUSH word is accepted once the host has popped k − (OUTQ_DEPTH − len(OUTQ)) symbols, and not
before; OUTQ always holds that many; and one POP makes a FIN refused with E_FULL acceptable. -/
def Obligations.PoppingMakesRoomForTheRefusedCommand : Prop :=
  (∀ (sym : BitVec 8) (s t : State), s.Wf → exec (.push sym) s = .next t → lastStatus t = some .eFull →
    pushShortfall s ≤ s.outq.length ∧
    ∀ m : Nat, m ≤ s.outq.length →
      (lastStatus (((Tracked.fresh t).issueAll (List.replicate m .pop)).issue (.push sym)).state = some .ok ↔
        pushShortfall s ≤ m)) ∧
  ∀ s t : State, s.Wf → exec .fin s = .next t → lastStatus t = some .eFull →
    lastStatus (((Tracked.fresh t).issue .pop).issue .fin).state = some .ok

/-- R113: a CFG or RST that comes while outputs of a succeeded conversion are unpopped loses them, and its status is OK. -/
def Obligations.ReconfiguringLosesUnpoppedOutputsSilently : Prop :=
  ∀ (i : Instr) (s t : State), losesOutputs i s = true → exec i s = .next t →
    s.outq ≠ [] ∧ t.outq = [] ∧ lastStatus t = some .ok

/-- R28: no response depends on the bits of ACC above BITS. Two instances that differ in nothing else give the same
responses, and stay equal but for those bits, whatever the host sends. -/
def Obligations.HiddenAccumulatorBitsNeverShow : Prop :=
  ∀ (s t : State) (n : Nat), s.Wf → s.SameVisible t →
    ∃ s' t', Host.Core.run Sys2Proof.core n s = .next s' ∧ Host.Core.run Sys2Proof.core n t = .next t' ∧ s'.SameVisible t'

/-- R71: bytes to 5-bit symbols and back, with padding: the same bytes, or with one zero byte more where their number is no
multiple of 5; back without padding: always exactly the same bytes. Symbols first can add two zero symbols. -/
def Obligations.BytesSurviveTheRoundTrip : Prop :=
  (∀ bytes : List Nat, (∀ b ∈ bytes, b < 256) → ∃ mid, convert 8 5 true bytes = some mid ∧
    convert 5 8 true mid = some (if bytes.length % 5 = 0 then bytes else bytes ++ [0]) ∧
    convert 5 8 false mid = some bytes) ∧
  ∀ a b : Nat, a < 32 → b < 32 → ∃ mid, convert 5 8 true [a, b] = some mid ∧ convert 8 5 true mid = some [a, b, 0, 0]

/-- R72: 5→8 without padding fails whatever the symbols are when n mod 8 is 1, 3 or 6, and otherwise succeeds exactly when
the last 5n mod 8 bits of the stream are zero. -/
def Obligations.FiveToEightWithoutPaddingFailsByLength : Prop :=
  ∀ syms : List Nat, (∀ x ∈ syms, x < 32) →
    let rho := 5 * syms.length % 8
    (syms.length % 8 = 1 ∨ syms.length % 8 = 3 ∨ syms.length % 8 = 6 ↔ 5 ≤ rho) ∧
    (5 ≤ rho → convert 5 8 false syms = none) ∧
    (rho < 5 → ((∃ out, convert 5 8 false syms = some out) ↔ streamValue 5 syms % 2 ^ rho = 0))

/-! ### The extractor's algorithm -/

/-- R76: extract(D, s) is S >> (5n − D), below 2^D, with B = ceil(5n/8) bytes; the dropped tail is 0 to 4 bits, and 0 exactly
when D is a multiple of 5. -/
def Obligations.ExtractHasTheClosedForm : Prop :=
  ∀ (d : Nat) (syms : List Nat), d ≤ 64 → (∀ x ∈ syms, x < 32) →
    let n := (d + 4) / 5
    n ≤ syms.length →
      extract d syms = streamValue 5 (syms.take n) / 2 ^ (5 * n - d) ∧ extract d syms < 2 ^ d ∧
      (extractBytes d syms).length = (5 * n + 7) / 8 ∧ d ≤ 8 * (extractBytes d syms).length ∧
      d ≤ 5 * n ∧ 5 * n - d ≤ 4 ∧ (5 * n - d = 0 ↔ 5 ∣ d)

/-- R35, R76: the extractor's result, written in D bits most significant first, is the first D bits of the slice's stream. -/
def Obligations.ExtractIsTheFirstBitsOfTheStream : Prop :=
  ∀ (d : Nat) (syms : List Nat), d ≤ 64 → (∀ x ∈ syms, x < 32) → (d + 4) / 5 ≤ syms.length →
    msbBits d (extract d syms) = (stream 5 syms).take d

/-- R81: on the machine, from an empty slice: a 35-bit value comes back from its seven big-endian symbols, a length from two
symbols is 32·s[0] + s[1], and a tag is its one symbol. -/
def Obligations.TimestampLengthAndTagComeBack : Prop :=
  ∀ k : Tracked, k.state.xsym = [] →
    (∀ v : Nat, v < 2 ^ 35 →
      let pushes := (List.range 7).map fun j => Instr.xpush (BitVec.ofNat 8 (v / 2 ^ (5 * (6 - j)) % 32))
      let z := (k.issueAll (pushes ++ [.xrun 35])).state
      lastStatus z = some .ok ∧ lastData z = some (BitVec.ofNat 64 v) ∧ z.xsym = []) ∧
    (∀ a b : Nat, a < 32 → b < 32 →
      let z := (k.issueAll [.xpush (BitVec.ofNat 8 a), .xpush (BitVec.ofNat 8 b), .xrun 10]).state
      lastStatus z = some .ok ∧ lastData z = some (BitVec.ofNat 64 (32 * a + b)) ∧ z.xsym = []) ∧
    ∀ a : Nat, a < 32 →
      let z := (k.issueAll [.xpush (BitVec.ofNat 8 a), .xrun 5]).state
      lastStatus z = some .ok ∧ lastData z = some (BitVec.ofNat 64 a) ∧ z.xsym = []

/-- R118: a slice longer than ceil(D/5) is used from its front without error: XRUN answers what it answers on the leading
ceil(D/5) symbols alone, and the rest is discarded. -/
def Obligations.XrunIgnoresExtraSymbols : Prop :=
  ∀ (d : BitVec 7) (s : State), d.toNat ≤ 64 → (d.toNat + 4) / 5 ≤ s.xsym.length →
    exec (.xrun d) s = exec (.xrun d) { s with xsym := s.xsym.take ((d.toNat + 4) / 5) } ∧
    ∃ t, exec (.xrun d) s = .next t ∧ lastStatus t = some .ok ∧ t.xsym = []

/-! ### The assembler and the platform -/

/-- R59: each line the assembler accepts is one word that decodes to the command it names, operands that fit their field but
are out of range included, and an operand that does not fit its field is refused. -/
def Obligations.AssembledLinesDecodeToTheirCommands : Prop :=
  (∀ (f t : Nat) (pad : Bool), assemble (.cfg f t pad) =
    if f ≤ 15 ∧ t ≤ 15 then some [encode (.cfg (BitVec.ofNat 4 f) (BitVec.ofNat 4 t) pad)] else none) ∧
  (∀ sym : Nat, assemble (.push sym) = if sym ≤ 255 then some [encode (.push (BitVec.ofNat 8 sym))] else none) ∧
  (∀ sym : Nat, assemble (.xpush sym) = if sym ≤ 255 then some [encode (.xpush (BitVec.ofNat 8 sym))] else none) ∧
  (∀ d : Nat, assemble (.xrun d) = if d ≤ 127 then some [encode (.xrun (BitVec.ofNat 7 d))] else none) ∧
  assemble .nop = some [encode .nop] ∧ assemble .fin = some [encode .fin] ∧ assemble .pop = some [encode .pop] ∧
  assemble .stat = some [encode .stat] ∧ assemble .rst = some [encode .rst] ∧
  (∀ v : Nat, v < 65536 → assemble (.word v) = some [BitVec.ofNat 16 v]) ∧
  ∀ (line : AsmLine) (ws : List CmdWord), assemble line = some ws → (∀ v, line ≠ .word v) →
    ∀ w ∈ ws, ∃ i, decode w = .ok i

/-- R60: `cvt` is `cfg`, the `push`es and `fin`; `xget` is the `xpush`es and `xrun`, refused unless n = ceil(D/5). -/
def Obligations.PseudoInstructionsExpandExactly : Prop :=
  (∀ (f t : Nat) (pad : Bool) (syms : List Nat), assemble (.cvt f t pad syms) =
    (((AsmLine.cfg f t pad :: syms.map AsmLine.push) ++ [AsmLine.fin]).mapM assemble).map List.flatten) ∧
  ∀ (d : Nat) (syms : List Nat), assemble (.xget d syms) =
    if syms.length = (d + 4) / 5 then
      ((syms.map AsmLine.xpush ++ [AsmLine.xrun d]).mapM assemble).map List.flatten
    else none

/-- R105: each instance has its own complete state, and no command to one instance affects another. -/
def Obligations.InstancesDoNotAffectEachOther : Prop :=
  ∀ (p : Platform) (n : Nat) (e : HostEvent),
    (issueTo n e p).length = p.length ∧ (∀ m, m ≠ n → (issueTo n e p)[m]? = p[m]?) ∧
    ∀ s, p[n]? = some s → ∃ t, execEvent e s = .next t ∧ (issueTo n e p)[n]? = some t
end

