-- ==== Sys2Proof/Laws/Decode.lean ====
section
/-! SUPPORT. What the decoder can answer, once (30_encoding.md R46 to R54, R58). -/

namespace Sys2Proof

/-- A command whose must-be-zero bits are checked is answered exactly where they are zero (R54). -/
theorem legalIf_ok {zero : Bool} {w : CmdWord} {i j : Instr} : legalIf zero w i = .ok j ↔ zero = true ∧ j = i := by
  cases zero <;> simp [legalIf, eq_comm]

/-- All that a decoded word can be: OP selects the command, its must-be-zero bits are zero, and its operands are the word's
fields (R46 to R51, R58). -/
theorem decode_cases {w : CmdWord} {i : Instr} (h : decode w = .ok i) :
    ((opOf w).toNat = 0 ∧ zeroZ w = true ∧ i = .nop) ∨
    ((opOf w).toNat = 1 ∧ zeroC w = true ∧ i = .cfg (fieldF w) (fieldT w) (fieldP w)) ∨
    ((opOf w).toNat = 2 ∧ zeroS w = true ∧ i = .push (fieldSym w)) ∨
    ((opOf w).toNat = 3 ∧ zeroZ w = true ∧ i = .fin) ∨
    ((opOf w).toNat = 4 ∧ zeroZ w = true ∧ i = .pop) ∨
    ((opOf w).toNat = 5 ∧ zeroS w = true ∧ i = .xpush (fieldSym w)) ∨
    ((opOf w).toNat = 6 ∧ zeroD w = true ∧ i = .xrun (fieldD w)) ∨
    ((opOf w).toNat = 7 ∧ zeroZ w = true ∧ i = .stat) ∨
    ((opOf w).toNat = 8 ∧ zeroZ w = true ∧ i = .rst) := by
  unfold decode at h
  split at h <;> first | (rw [legalIf_ok] at h; simp_all) | simp at h

end Sys2Proof
end

