-- ==== Sys2Proof/Laws/Convert.lean ====
section
/-! SUPPORT. What the shared operations of the two algorithms do: the emission loop (40_converter.md R61, R64), the
accumulator update, the residual, and the big-endian value (41_extractor.md R75). -/

namespace Sys2Proof.Machine

/-- `x & mask(n)` keeps the low n bits (R11). -/
@[simp] theorem and_mask (x n : Nat) : x &&& mask n = x % 2 ^ n := by
  simp [mask, Nat.and_two_pow_sub_one_eq_mod]

/-- ACC fits its 15 bits (R21). -/
theorem shiftIn_lt (acc f sym : Nat) : shiftIn acc f sym < 2 ^ 15 := by
  simpa [shiftIn, Config.accWidth] using Nat.mod_lt (acc <<< f ||| sym) (by decide : 0 < 2 ^ 15)

/-- A residual is one TO-bit symbol (R65). -/
theorem topResidual_lt (t acc bits : Nat) : topResidual t acc bits < 2 ^ t := by
  simpa [topResidual] using Nat.mod_lt (acc <<< (t - bits)) (Nat.two_pow_pos t)

/-- An empty residual is zero: "BITS = 0 gives r = 0" (R65). -/
theorem topResidual_zero (t acc : Nat) : topResidual t acc 0 = 0 := by
  simp [topResidual, Nat.shiftLeft_eq]

/-- The bit count the emission loop leaves is what is left over of whole symbols (R64). -/
theorem emitLoop_snd (t acc fuel b : Nat) (h : b ≤ fuel) : (emitLoop t acc fuel b).2 = b % t := by
  induction fuel generalizing b with
  | zero =>
    obtain rfl : b = 0 := by omega
    simp [emitLoop]
  | succ fuel ih =>
    unfold emitLoop
    split
    · next ht => rw [ih (b - t) (by omega), ← Nat.mod_eq_sub_mod ht.2]
    · next ht =>
      rcases Nat.eq_zero_or_pos t with rfl | hpos
      · simp
      · exact (Nat.mod_eq_of_lt (by omega)).symm

/-- The symbols of the emission loop, in closed form: the j-th takes the TO bits below the ones before it (R64). -/
theorem emitLoop_fst (t acc fuel b : Nat) (h : b ≤ fuel) :
    (emitLoop t acc fuel b).1 = (List.range (b / t)).map fun j => (acc >>> (b - t * (j + 1))) % 2 ^ t := by
  induction fuel generalizing b with
  | zero =>
    obtain rfl : b = 0 := by omega
    simp [emitLoop]
  | succ fuel ih =>
    unfold emitLoop
    split
    · next ht =>
      rw [Nat.div_eq_sub_div ht.1 ht.2, List.range_succ_eq_map]
      simp only [ih (b - t) (by omega), and_mask, List.map_cons, List.map_map, Nat.zero_add, Nat.mul_one]
      congr 1
      apply List.map_congr_left
      intro j _
      simp only [Function.comp, Nat.succ_eq_add_one]
      rw [show b - t - t * (j + 1) = b - t * (j + 1 + 1) by rw [Nat.sub_sub, Nat.mul_add t (j + 1) 1, Nat.mul_one, Nat.add_comm t]]
    · next ht =>
      rcases Nat.eq_zero_or_pos t with rfl | hpos
      · simp
      · simp [Nat.div_eq_of_lt (show b < t by omega)]

/-- The bit count `emit` leaves (R64). -/
theorem emit_snd (t acc b : Nat) : (emit t acc b).2 = b % t := emitLoop_snd t acc b b le_rfl

/-- The symbols `emit` gives, in closed form (R64). -/
theorem emit_fst (t acc b : Nat) :
    (emit t acc b).1 = (List.range (b / t)).map fun j => (acc >>> (b - t * (j + 1))) % 2 ^ t :=
  emitLoop_fst t acc b b le_rfl

/-- The number of symbols `emit` gives is R64's k. -/
theorem emit_length (t acc b : Nat) : (emit t acc b).1.length = b / t := by simp [emit_fst]

/-- Every symbol `emit` gives is below 2^TO (R23). -/
theorem emit_mem_lt (t acc b v : Nat) (h : v ∈ (emit t acc b).1) : v < 2 ^ t := by
  rw [emit_fst] at h
  obtain ⟨j, -, rfl⟩ := List.mem_map.mp h
  exact Nat.mod_lt _ (Nat.two_pow_pos t)

/-- Feeding a longer input feeds its last symbol last (R61). -/
theorem feedAll_append_one (f t : Nat) (syms : List Nat) (x : Nat) :
    feedAll f t (syms ++ [x]) = feed f t (feedAll f t syms) x := by
  simp [feedAll]

/-- The loop of R61 over no input. -/
@[simp] theorem feedAll_nil (f t : Nat) : feedAll f t [] = ⟨0, 0, []⟩ := rfl

/-- Padding never fails (R62). -/
theorem convert_padded (f t : Nat) (syms : List Nat) : ∃ out, convert f t true syms = some out := by
  simp only [convert, finish, if_true]
  split
  · exact ⟨_, rfl⟩
  · exact ⟨_, rfl⟩

/-- One more byte goes below all earlier ones (R35). -/
theorem bigEndian_append_one (bytes : List Nat) (b : Nat) :
    bigEndian (bytes ++ [b]) = bigEndian bytes * 2 ^ 8 + b := by
  simp [bigEndian]

end Sys2Proof.Machine
end

