-- ==== Sys2Proof/Laws/State.lean ====
section
/-! SUPPORT. What each named update of the state leaves in each field: one lemma per field per update, true by definition.
-/

namespace Sys2Proof.Machine

@[simp] theorem answer_mode (st : Status) (data : Data) (s : State) : (answer st data s).mode = s.mode := rfl
@[simp] theorem answer_err (st : Status) (data : Data) (s : State) : (answer st data s).err = s.err := rfl
@[simp] theorem answer_fromBits (st : Status) (data : Data) (s : State) :
    (answer st data s).fromBits = s.fromBits := rfl
@[simp] theorem answer_toBits (st : Status) (data : Data) (s : State) : (answer st data s).toBits = s.toBits := rfl
@[simp] theorem answer_pad (st : Status) (data : Data) (s : State) : (answer st data s).pad = s.pad := rfl
@[simp] theorem answer_acc (st : Status) (data : Data) (s : State) : (answer st data s).acc = s.acc := rfl
@[simp] theorem answer_bits (st : Status) (data : Data) (s : State) : (answer st data s).bits = s.bits := rfl
@[simp] theorem answer_outq (st : Status) (data : Data) (s : State) : (answer st data s).outq = s.outq := rfl
@[simp] theorem answer_xsym (st : Status) (data : Data) (s : State) : (answer st data s).xsym = s.xsym := rfl
@[simp] theorem answer_outqDepth (st : Status) (data : Data) (s : State) :
    (answer st data s).outqDepth = s.outqDepth := rfl
@[simp] theorem answer_inputs (st : Status) (data : Data) (s : State) : (answer st data s).inputs = s.inputs := rfl
@[simp] theorem answer_responses (st : Status) (data : Data) (s : State) :
    (answer st data s).responses = s.responses ++ [⟨st, data⟩] := rfl

@[simp] theorem enterError_mode (st : Status) (s : State) : (enterError st s).mode = .error := rfl
@[simp] theorem enterError_err (st : Status) (s : State) : (enterError st s).err = st.code := rfl
@[simp] theorem enterError_fromBits (st : Status) (s : State) : (enterError st s).fromBits = s.fromBits := rfl
@[simp] theorem enterError_toBits (st : Status) (s : State) : (enterError st s).toBits = s.toBits := rfl
@[simp] theorem enterError_pad (st : Status) (s : State) : (enterError st s).pad = s.pad := rfl
@[simp] theorem enterError_acc (st : Status) (s : State) : (enterError st s).acc = 0 := rfl
@[simp] theorem enterError_bits (st : Status) (s : State) : (enterError st s).bits = 0 := rfl
@[simp] theorem enterError_outq (st : Status) (s : State) : (enterError st s).outq = [] := rfl
@[simp] theorem enterError_xsym (st : Status) (s : State) : (enterError st s).xsym = s.xsym := rfl
@[simp] theorem enterError_outqDepth (st : Status) (s : State) : (enterError st s).outqDepth = s.outqDepth := rfl
@[simp] theorem enterError_inputs (st : Status) (s : State) : (enterError st s).inputs = s.inputs := rfl
@[simp] theorem enterError_responses (st : Status) (s : State) : (enterError st s).responses = s.responses := rfl

@[simp] theorem dropSlice_mode (s : State) : (dropSlice s).mode = s.mode := rfl
@[simp] theorem dropSlice_err (s : State) : (dropSlice s).err = s.err := rfl
@[simp] theorem dropSlice_fromBits (s : State) : (dropSlice s).fromBits = s.fromBits := rfl
@[simp] theorem dropSlice_toBits (s : State) : (dropSlice s).toBits = s.toBits := rfl
@[simp] theorem dropSlice_pad (s : State) : (dropSlice s).pad = s.pad := rfl
@[simp] theorem dropSlice_acc (s : State) : (dropSlice s).acc = s.acc := rfl
@[simp] theorem dropSlice_bits (s : State) : (dropSlice s).bits = s.bits := rfl
@[simp] theorem dropSlice_outq (s : State) : (dropSlice s).outq = s.outq := rfl
@[simp] theorem dropSlice_xsym (s : State) : (dropSlice s).xsym = [] := rfl
@[simp] theorem dropSlice_outqDepth (s : State) : (dropSlice s).outqDepth = s.outqDepth := rfl
@[simp] theorem dropSlice_inputs (s : State) : (dropSlice s).inputs = s.inputs := rfl
@[simp] theorem dropSlice_responses (s : State) : (dropSlice s).responses = s.responses := rfl

@[simp] theorem toReset_mode (s : State) : (toReset s).mode = .idle := rfl
@[simp] theorem toReset_err (s : State) : (toReset s).err = 0 := rfl
@[simp] theorem toReset_fromBits (s : State) : (toReset s).fromBits = 0 := rfl
@[simp] theorem toReset_toBits (s : State) : (toReset s).toBits = 0 := rfl
@[simp] theorem toReset_pad (s : State) : (toReset s).pad = false := rfl
@[simp] theorem toReset_acc (s : State) : (toReset s).acc = 0 := rfl
@[simp] theorem toReset_bits (s : State) : (toReset s).bits = 0 := rfl
@[simp] theorem toReset_outq (s : State) : (toReset s).outq = [] := rfl
@[simp] theorem toReset_xsym (s : State) : (toReset s).xsym = [] := rfl
@[simp] theorem toReset_outqDepth (s : State) : (toReset s).outqDepth = s.outqDepth := rfl
@[simp] theorem toReset_inputs (s : State) : (toReset s).inputs = s.inputs := rfl
@[simp] theorem toReset_responses (s : State) : (toReset s).responses = s.responses := rfl

@[simp] theorem offer_mode (e : HostEvent) (s : State) : (offer e s).mode = s.mode := rfl
@[simp] theorem offer_err (e : HostEvent) (s : State) : (offer e s).err = s.err := rfl
@[simp] theorem offer_fromBits (e : HostEvent) (s : State) : (offer e s).fromBits = s.fromBits := rfl
@[simp] theorem offer_toBits (e : HostEvent) (s : State) : (offer e s).toBits = s.toBits := rfl
@[simp] theorem offer_pad (e : HostEvent) (s : State) : (offer e s).pad = s.pad := rfl
@[simp] theorem offer_acc (e : HostEvent) (s : State) : (offer e s).acc = s.acc := rfl
@[simp] theorem offer_bits (e : HostEvent) (s : State) : (offer e s).bits = s.bits := rfl
@[simp] theorem offer_outq (e : HostEvent) (s : State) : (offer e s).outq = s.outq := rfl
@[simp] theorem offer_xsym (e : HostEvent) (s : State) : (offer e s).xsym = s.xsym := rfl
@[simp] theorem offer_outqDepth (e : HostEvent) (s : State) : (offer e s).outqDepth = s.outqDepth := rfl
@[simp] theorem offer_inputs (e : HostEvent) (s : State) : (offer e s).inputs = e :: s.inputs := rfl
@[simp] theorem offer_responses (e : HostEvent) (s : State) : (offer e s).responses = s.responses := rfl

@[simp] theorem openConversion_mode (f t : BitVec 4) (pad : Bool) (s : State) :
    (openConversion f t pad s).mode = .run := rfl
@[simp] theorem openConversion_err (f t : BitVec 4) (pad : Bool) (s : State) :
    (openConversion f t pad s).err = 0 := rfl
@[simp] theorem openConversion_fromBits (f t : BitVec 4) (pad : Bool) (s : State) :
    (openConversion f t pad s).fromBits = f := rfl
@[simp] theorem openConversion_toBits (f t : BitVec 4) (pad : Bool) (s : State) :
    (openConversion f t pad s).toBits = t := rfl
@[simp] theorem openConversion_pad (f t : BitVec 4) (pad : Bool) (s : State) :
    (openConversion f t pad s).pad = pad := rfl
@[simp] theorem openConversion_acc (f t : BitVec 4) (pad : Bool) (s : State) :
    (openConversion f t pad s).acc = 0 := rfl
@[simp] theorem openConversion_bits (f t : BitVec 4) (pad : Bool) (s : State) :
    (openConversion f t pad s).bits = 0 := rfl
@[simp] theorem openConversion_outq (f t : BitVec 4) (pad : Bool) (s : State) :
    (openConversion f t pad s).outq = [] := rfl
@[simp] theorem openConversion_xsym (f t : BitVec 4) (pad : Bool) (s : State) :
    (openConversion f t pad s).xsym = s.xsym := rfl
@[simp] theorem openConversion_outqDepth (f t : BitVec 4) (pad : Bool) (s : State) :
    (openConversion f t pad s).outqDepth = s.outqDepth := rfl
@[simp] theorem openConversion_inputs (f t : BitVec 4) (pad : Bool) (s : State) :
    (openConversion f t pad s).inputs = s.inputs := rfl
@[simp] theorem openConversion_responses (f t : BitVec 4) (pad : Bool) (s : State) :
    (openConversion f t pad s).responses = s.responses := rfl

@[simp] theorem acceptSymbol_mode (sym : BitVec 8) (s : State) : (acceptSymbol sym s).mode = s.mode := rfl
@[simp] theorem acceptSymbol_err (sym : BitVec 8) (s : State) : (acceptSymbol sym s).err = s.err := rfl
@[simp] theorem acceptSymbol_fromBits (sym : BitVec 8) (s : State) :
    (acceptSymbol sym s).fromBits = s.fromBits := rfl
@[simp] theorem acceptSymbol_toBits (sym : BitVec 8) (s : State) : (acceptSymbol sym s).toBits = s.toBits := rfl
@[simp] theorem acceptSymbol_pad (sym : BitVec 8) (s : State) : (acceptSymbol sym s).pad = s.pad := rfl
@[simp] theorem acceptSymbol_acc (sym : BitVec 8) (s : State) :
    (acceptSymbol sym s).acc = BitVec.ofNat 15 (pushAcc sym s) := rfl
@[simp] theorem acceptSymbol_bits (sym : BitVec 8) (s : State) :
    (acceptSymbol sym s).bits = BitVec.ofNat 4 (pushEmission sym s).2 := rfl
@[simp] theorem acceptSymbol_outq (sym : BitVec 8) (s : State) :
    (acceptSymbol sym s).outq = s.outq ++ (pushEmission sym s).1.map (BitVec.ofNat 8) := rfl
@[simp] theorem acceptSymbol_xsym (sym : BitVec 8) (s : State) : (acceptSymbol sym s).xsym = s.xsym := rfl
@[simp] theorem acceptSymbol_outqDepth (sym : BitVec 8) (s : State) :
    (acceptSymbol sym s).outqDepth = s.outqDepth := rfl
@[simp] theorem acceptSymbol_inputs (sym : BitVec 8) (s : State) : (acceptSymbol sym s).inputs = s.inputs := rfl
@[simp] theorem acceptSymbol_responses (sym : BitVec 8) (s : State) :
    (acceptSymbol sym s).responses = s.responses := rfl

@[simp] theorem closeConversion_mode (s : State) : (closeConversion s).mode = .done := rfl
@[simp] theorem closeConversion_err (s : State) : (closeConversion s).err = s.err := rfl
@[simp] theorem closeConversion_fromBits (s : State) : (closeConversion s).fromBits = s.fromBits := rfl
@[simp] theorem closeConversion_toBits (s : State) : (closeConversion s).toBits = s.toBits := rfl
@[simp] theorem closeConversion_pad (s : State) : (closeConversion s).pad = s.pad := rfl
@[simp] theorem closeConversion_acc (s : State) : (closeConversion s).acc = 0 := rfl
@[simp] theorem closeConversion_bits (s : State) : (closeConversion s).bits = 0 := rfl
@[simp] theorem closeConversion_outq (s : State) : (closeConversion s).outq = s.outq := rfl
@[simp] theorem closeConversion_xsym (s : State) : (closeConversion s).xsym = s.xsym := rfl
@[simp] theorem closeConversion_outqDepth (s : State) : (closeConversion s).outqDepth = s.outqDepth := rfl
@[simp] theorem closeConversion_inputs (s : State) : (closeConversion s).inputs = s.inputs := rfl
@[simp] theorem closeConversion_responses (s : State) : (closeConversion s).responses = s.responses := rfl

@[simp] theorem enqueue_mode (v : Nat) (s : State) : (enqueue v s).mode = s.mode := rfl
@[simp] theorem enqueue_err (v : Nat) (s : State) : (enqueue v s).err = s.err := rfl
@[simp] theorem enqueue_fromBits (v : Nat) (s : State) : (enqueue v s).fromBits = s.fromBits := rfl
@[simp] theorem enqueue_toBits (v : Nat) (s : State) : (enqueue v s).toBits = s.toBits := rfl
@[simp] theorem enqueue_pad (v : Nat) (s : State) : (enqueue v s).pad = s.pad := rfl
@[simp] theorem enqueue_acc (v : Nat) (s : State) : (enqueue v s).acc = s.acc := rfl
@[simp] theorem enqueue_bits (v : Nat) (s : State) : (enqueue v s).bits = s.bits := rfl
@[simp] theorem enqueue_outq (v : Nat) (s : State) : (enqueue v s).outq = s.outq ++ [BitVec.ofNat 8 v] := rfl
@[simp] theorem enqueue_xsym (v : Nat) (s : State) : (enqueue v s).xsym = s.xsym := rfl
@[simp] theorem enqueue_outqDepth (v : Nat) (s : State) : (enqueue v s).outqDepth = s.outqDepth := rfl
@[simp] theorem enqueue_inputs (v : Nat) (s : State) : (enqueue v s).inputs = s.inputs := rfl
@[simp] theorem enqueue_responses (v : Nat) (s : State) : (enqueue v s).responses = s.responses := rfl

@[simp] theorem resetWith_mode (d : Nat) : (State.resetWith d).mode = .idle := rfl
@[simp] theorem resetWith_err (d : Nat) : (State.resetWith d).err = 0 := rfl
@[simp] theorem resetWith_fromBits (d : Nat) : (State.resetWith d).fromBits = 0 := rfl
@[simp] theorem resetWith_toBits (d : Nat) : (State.resetWith d).toBits = 0 := rfl
@[simp] theorem resetWith_pad (d : Nat) : (State.resetWith d).pad = false := rfl
@[simp] theorem resetWith_acc (d : Nat) : (State.resetWith d).acc = 0 := rfl
@[simp] theorem resetWith_bits (d : Nat) : (State.resetWith d).bits = 0 := rfl
@[simp] theorem resetWith_outq (d : Nat) : (State.resetWith d).outq = [] := rfl
@[simp] theorem resetWith_xsym (d : Nat) : (State.resetWith d).xsym = [] := rfl
@[simp] theorem resetWith_outqDepth (d : Nat) : (State.resetWith d).outqDepth = d := rfl
@[simp] theorem resetWith_inputs (d : Nat) : (State.resetWith d).inputs = [] := rfl
@[simp] theorem resetWith_responses (d : Nat) : (State.resetWith d).responses = [] := rfl

end Sys2Proof.Machine
end

