-- ==== Sys2Proof/Laws/Ops.lean ====
section
/-! SUPPORT. For each shared operation and each meaning, one lemma that says once everything it can do: if it answers a
next state, then one of these cases holds (60_exceptions.md R91 to R96). -/

namespace Sys2Proof.Machine

variable {s t : State} {st : Status} {data : Data}

/-- All that `respond` does (R13). -/
theorem respond_next : respond st data s = .next t ↔ t = answer st data s := by
  simp [respond, eq_comm]

/-- All that `reject` does (R93). -/
theorem reject_next : reject st s = .next t ↔ t = answer st 0 s := respond_next

/-- All that `abort` does (R94). -/
theorem abort_next : abort st s = .next t ↔ t = answer st 0 (enterError st s) := respond_next

/-- All that `xdiscard` does (R95). -/
theorem xdiscard_next : xdiscard st s = .next t ↔ t = answer st 0 (dropSlice s) := respond_next

/-- All that a hardware reset does (R107). -/
theorem hardwareReset_next : hardwareReset s = .next t ↔ t = toReset s := by
  simp [hardwareReset, eq_comm]

/-- The host's next event, where it issues one. -/
theorem nextEvent_cons {e : HostEvent} {rest : List HostEvent} (h : s.inputs = e :: rest) :
    nextEvent s = some (e, { s with inputs := rest }) := by
  simp [nextEvent, h]

/-- No event, where the host issues none. -/
theorem nextEvent_nil (h : s.inputs = []) : nextEvent s = none := by
  simp [nextEvent, h]

/-- An event offered is the next one, and the rest is as before. -/
theorem nextEvent_offer (e : HostEvent) : nextEvent (offer e s) = some (e, s) := rfl

/-- All that NOP does (R83). -/
theorem execNop_next : execNop s = .next t ↔ t = answer .ok 0 s := respond_next

/-- All that STAT does (R84). -/
theorem execStat_next : execStat s = .next t ↔ t = answer .ok (statWord s) s := respond_next

/-- All that RST does (R86). -/
theorem execRst_next : execRst s = .next t ↔ t = answer .ok 0 (toReset s) := respond_next

/-- All that an illegal word does (R87). -/
theorem execIllegal_next : execIllegal s = .next t ↔ t = answer .eIllegal 0 s := respond_next

/-- All that CFG does (R63). -/
theorem execCfg_cases {f w : BitVec 4} {pad : Bool} (h : execCfg f w pad s = .next t) :
    ((LegalWidth f ∧ LegalWidth w) ∧ t = answer .ok 0 (openConversion f w pad s)) ∨
    (¬(LegalWidth f ∧ LegalWidth w) ∧ t = answer .eParam 0 s) := by
  unfold execCfg at h
  split at h
  · next hl => exact .inl ⟨hl, respond_next.mp h⟩
  · next hl => exact .inr ⟨hl, reject_next.mp h⟩

/-- All that PUSH does (R64). -/
theorem execPush_cases {sym : BitVec 8} (h : execPush sym s = .next t) :
    (s.mode ≠ .run ∧ t = answer .eState 0 s) ∨
    (s.mode = .run ∧ ¬FitsWidth sym s.fromBits.toNat ∧ t = answer .eRange 0 (enterError .eRange s)) ∨
    (s.mode = .run ∧ FitsWidth sym s.fromBits.toNat ∧ s.outqDepth < s.outq.length + pushEmits s ∧
      t = answer .eFull 0 s) ∨
    (s.mode = .run ∧ FitsWidth sym s.fromBits.toNat ∧ s.outq.length + pushEmits s ≤ s.outqDepth ∧
      t = answer .ok 0 (acceptSymbol sym s)) := by
  unfold execPush at h
  split at h
  · next hm => exact .inl ⟨hm, reject_next.mp h⟩
  next hm =>
  have hm : s.mode = .run := not_not.mp hm
  split at h
  · next hf => exact .inr (.inl ⟨hm, hf, abort_next.mp h⟩)
  next hf =>
  have hf : FitsWidth sym s.fromBits.toNat := not_not.mp hf
  split at h
  · next hd => exact .inr (.inr (.inl ⟨hm, hf, hd, reject_next.mp h⟩))
  · next hd => exact .inr (.inr (.inr ⟨hm, hf, not_lt.mp hd, respond_next.mp h⟩))

/-- All that FIN does (R65). -/
theorem execFin_cases (h : execFin s = .next t) :
    (s.mode ≠ .run ∧ t = answer .eState 0 s) ∨
    (s.mode = .run ∧ s.pad = true ∧ 0 < s.bits.toNat ∧ s.outq.length = s.outqDepth ∧ t = answer .eFull 0 s) ∨
    (s.mode = .run ∧ s.pad = true ∧ 0 < s.bits.toNat ∧ s.outq.length ≠ s.outqDepth ∧
      t = answer .ok 0 (closeConversion (enqueue (finResidual s) s))) ∨
    (s.mode = .run ∧ s.pad = true ∧ s.bits.toNat = 0 ∧ t = answer .ok 0 (closeConversion s)) ∨
    (s.mode = .run ∧ s.pad = false ∧ (s.fromBits.toNat ≤ s.bits.toNat ∨ finResidual s ≠ 0) ∧
      t = answer .eConv 0 (enterError .eConv s)) ∨
    (s.mode = .run ∧ s.pad = false ∧ s.bits.toNat < s.fromBits.toNat ∧ finResidual s = 0 ∧
      t = answer .ok 0 (closeConversion s)) := by
  unfold execFin at h
  split at h
  · next hm => exact .inl ⟨hm, reject_next.mp h⟩
  next hm =>
  have hm : s.mode = .run := not_not.mp hm
  split at h
  · next hp =>
    unfold finPadded at h
    split at h
    · next hb =>
      split at h
      · next hd => exact .inr (.inl ⟨hm, hp, hb, hd, reject_next.mp h⟩)
      · next hd => exact .inr (.inr (.inl ⟨hm, hp, hb, hd, respond_next.mp h⟩))
    · next hb => exact .inr (.inr (.inr (.inl ⟨hm, hp, by omega, respond_next.mp h⟩)))
  · next hp =>
    have hp : s.pad = false := by simpa using hp
    unfold finUnpadded at h
    split at h
    · next hc => exact .inr (.inr (.inr (.inr (.inl ⟨hm, hp, hc, abort_next.mp h⟩))))
    · next hc =>
      exact .inr (.inr (.inr (.inr (.inr ⟨hm, hp, by omega, by_contra fun hr => hc (.inr hr), respond_next.mp h⟩))))

/-- All that POP does (R66). -/
theorem execPop_cases (h : execPop s = .next t) :
    (s.outq = [] ∧ t = answer .eEmpty 0 s) ∨
    (∃ v rest, s.outq = v :: rest ∧ t = answer .ok (v.setWidth 64) { s with outq := rest }) := by
  unfold execPop at h
  split at h
  · next hq => exact .inl ⟨hq, reject_next.mp h⟩
  · next v rest hq => exact .inr ⟨v, rest, hq, respond_next.mp h⟩

/-- All that XPUSH does (R78). -/
theorem execXpush_cases {sym : BitVec 8} (h : execXpush sym s = .next t) :
    (¬FitsWidth sym 5 ∧ t = answer .eRange 0 (dropSlice s)) ∨
    (FitsWidth sym 5 ∧ s.xsym.length = 13 ∧ t = answer .eFull 0 s) ∨
    (FitsWidth sym 5 ∧ s.xsym.length ≠ 13 ∧
      t = answer .ok 0 { s with xsym := s.xsym ++ [sym.setWidth 5] }) := by
  unfold execXpush at h
  split at h
  · next hf => exact .inl ⟨hf, xdiscard_next.mp h⟩
  next hf =>
  have hf : FitsWidth sym 5 := not_not.mp hf
  split at h
  · next hd => exact .inr (.inl ⟨hf, hd, reject_next.mp h⟩)
  · next hd => exact .inr (.inr ⟨hf, hd, respond_next.mp h⟩)

/-- All that XRUN does (R79). -/
theorem execXrun_cases {d : BitVec 7} (h : execXrun d s = .next t) :
    (64 < d.toNat ∧ t = answer .eParam 0 (dropSlice s)) ∨
    (d.toNat ≤ 64 ∧ s.xsym.length < ceilDiv d.toNat 5 ∧ t = answer .eTrunc 0 (dropSlice s)) ∨
    (d.toNat ≤ 64 ∧ ceilDiv d.toNat 5 ≤ s.xsym.length ∧
      t = answer .ok (BitVec.ofNat 64 (extract d.toNat (slice s))) (dropSlice s)) := by
  unfold execXrun at h
  split at h
  · next hd => exact .inl ⟨not_le.mp hd, xdiscard_next.mp h⟩
  next hd =>
  have hd : d.toNat ≤ 64 := not_not.mp hd
  split at h
  · next hn => exact .inr (.inl ⟨hd, hn, xdiscard_next.mp h⟩)
  · next hn => exact .inr (.inr ⟨hd, not_lt.mp hn, respond_next.mp h⟩)

/-- A word that decodes runs its command (R58). -/
theorem execWord_ok {w : CmdWord} {i : Instr} (h : decode w = .ok i) : execWord w s = exec i s := by
  simp [execWord, h]

/-- A word that does not decode is illegal (R87). -/
theorem execWord_illegal {w : CmdWord} {e : Illegal} (h : decode w = .error e) : execWord w s = execIllegal s := by
  simp [execWord, h]

end Sys2Proof.Machine
end

