-- ==== Sys2Proof/Laws/Conversion.lean ====
section
/-! SUPPORT. What the record of a conversion does (40_converter.md R67): one lemma per field per update, and what one event
or one step does to the machine and the record together. -/

namespace Sys2Proof.Machine

variable {k : Tracked} {s : State} {e : HostEvent}

@[simp] theorem abandon_fromBits (c : Conversion) : c.abandon.fromBits = c.fromBits := rfl
@[simp] theorem abandon_toBits (c : Conversion) : c.abandon.toBits = c.toBits := rfl
@[simp] theorem abandon_pad (c : Conversion) : c.abandon.pad = c.pad := rfl
@[simp] theorem abandon_pushed (c : Conversion) : c.abandon.pushed = c.pushed := rfl
@[simp] theorem abandon_emitted (c : Conversion) : c.abandon.emitted = c.emitted := rfl
@[simp] theorem abandon_popped (c : Conversion) : c.abandon.popped = c.popped := rfl
theorem abandon_phase (c : Conversion) :
    c.abandon.phase = if c.phase = .opened then .abandoned else c.phase := rfl

@[simp] theorem noteCommand_state (i : Instr) : (k.noteCommand i s).state = s := rfl
@[simp] theorem noteCommand_conv (i : Instr) : (k.noteCommand i s).conv = k.conv.note i k.state s := rfl
@[simp] theorem noteCommand_past (i : Instr) : (k.noteCommand i s).past = k.past ++ k.conv.closed i s := rfl
@[simp] theorem noteReset_state : (k.noteReset s).state = s := rfl
@[simp] theorem noteReset_conv : (k.noteReset s).conv = k.conv.abandon := rfl
@[simp] theorem noteReset_past : (k.noteReset s).past = k.past := rfl

@[simp] theorem startTracked_state (f t : BitVec 4) (pad : Bool) :
    (startTracked f t pad s).state = openConversion f t pad s := rfl
@[simp] theorem startTracked_conv (f t : BitVec 4) (pad : Bool) :
    (startTracked f t pad s).conv = Conversion.start f t pad := rfl
@[simp] theorem startTracked_past (f t : BitVec 4) (pad : Bool) : (startTracked f t pad s).past = [] := rfl
@[simp] theorem fresh_state : (Tracked.fresh s).state = s := rfl
@[simp] theorem fresh_conv : (Tracked.fresh s).conv = Conversion.none := rfl
@[simp] theorem fresh_past : (Tracked.fresh s).past = [] := rfl

/-- The response a command has just given is the latest one (R56). -/
@[simp] theorem lastStatus_answer (st : Status) (d : Data) : lastStatus (answer st d s) = some st := by
  simp [lastStatus]

/-- The DATA of the response a command has just given (R56). -/
@[simp] theorem lastData_answer (st : Status) (d : Data) : lastData (answer st d s) = some d := by
  simp [lastData]

/-- What is appended at the tail is what `appended` reads off the queue (R23). -/
theorem appended_of_append {after : State} {new : List OutSym} (h : after.outq = s.outq ++ new) :
    appended s after = new := by
  simp [appended, h]

/-- A command that answers a next state is noted with it. -/
theorem issue_of_next {i : Instr} (h : exec i k.state = .next s) : k.issue i = k.noteCommand i s := by
  simp [Tracked.issue, h]

/-- Issuing a list and then one command more (R41). -/
theorem issueAll_append_one (cs : List Instr) (i : Instr) : k.issueAll (cs ++ [i]) = (k.issueAll cs).issue i := by
  simp [Tracked.issueAll]

/-- Nothing issued, nothing changed. -/
@[simp] theorem issueAll_nil : k.issueAll [] = k := rfl

/-- An event that answers a next state is noted with it. -/
theorem receive_of_next (h : execEvent e k.state = .next s) : k.receive e = k.note e s := by
  simp [Tracked.receive, h]

/-- All that an event can do to the record (R67). -/
theorem note_cases :
    (e = .hardwareReset ∧ k.note e s = k.noteReset s) ∨
    (∃ w i, e = .command w ∧ decode w = .ok i ∧ k.note e s = k.noteCommand i s) ∨
    (∃ w r, e = .command w ∧ decode w = .error r ∧ k.note e s = { k with state := s }) := by
  cases e with
  | hardwareReset => exact .inl ⟨rfl, rfl⟩
  | command w =>
    cases h : decode w with
    | ok i => exact .inr (.inl ⟨w, i, rfl, h, by simp [Tracked.note, h]⟩)
    | error r => exact .inr (.inr ⟨w, r, rfl, h, by simp [Tracked.note, h]⟩)

/-- Whatever an event does, the machine beside the record is the machine. -/
@[simp] theorem note_state : (k.note e s).state = s := by
  rcases note_cases (k := k) (e := e) (s := s) with ⟨-, h⟩ | ⟨w, i, -, -, h⟩ | ⟨w, r, -, -, h⟩ <;> simp [h]

/-- A step with an event to take receives it. -/
theorem step_of_event {s' : State} (h : nextEvent k.state = some (e, s')) :
    k.step = ({ k with state := s' } : Tracked).receive e := by
  simp [Tracked.step, h]

/-- A step with no event to take leaves machine and record. -/
theorem step_of_no_event (h : nextEvent k.state = none) : k.step = k := by
  simp [Tracked.step, h]

end Sys2Proof.Machine
end

