-- ==== Sys2Proof/Laws/PerInstr.lean ====
section
/-! SUPPORT. Statements made for every command as syntax, one lemma per constructor of `Instr`. -/

namespace Sys2Proof.Laws

/-- The word of a command is of the row of the opcode map that the command belongs to (30_encoding.md R52). -/
def EncodedWordHitsRow.Statement (i : Instr) : Prop := (rowOf i).hits (encode i) = true ∧ rowOf i ∈ opcodeMap

theorem EncodedWordHitsRow.nop : EncodedWordHitsRow.Statement .nop := by
  unfold EncodedWordHitsRow.Statement; decide

theorem EncodedWordHitsRow.cfg (f t : BitVec 4) (pad : Bool) : EncodedWordHitsRow.Statement (.cfg f t pad) := by
  refine ⟨?_, by simp [opcodeMap, rowOf]⟩
  revert f t pad
  decide

theorem EncodedWordHitsRow.push (sym : BitVec 8) : EncodedWordHitsRow.Statement (.push sym) := by
  refine ⟨?_, by simp [opcodeMap, rowOf]⟩
  revert sym
  decide

theorem EncodedWordHitsRow.fin : EncodedWordHitsRow.Statement .fin := by
  unfold EncodedWordHitsRow.Statement; decide

theorem EncodedWordHitsRow.pop : EncodedWordHitsRow.Statement .pop := by
  unfold EncodedWordHitsRow.Statement; decide

theorem EncodedWordHitsRow.xpush (sym : BitVec 8) : EncodedWordHitsRow.Statement (.xpush sym) := by
  refine ⟨?_, by simp [opcodeMap, rowOf]⟩
  revert sym
  decide

theorem EncodedWordHitsRow.xrun (d : BitVec 7) : EncodedWordHitsRow.Statement (.xrun d) := by
  refine ⟨?_, by simp [opcodeMap, rowOf]⟩
  revert d
  decide

theorem EncodedWordHitsRow.stat : EncodedWordHitsRow.Statement .stat := by
  unfold EncodedWordHitsRow.Statement; decide

theorem EncodedWordHitsRow.rst : EncodedWordHitsRow.Statement .rst := by
  unfold EncodedWordHitsRow.Statement; decide

end Sys2Proof.Laws
end

