-- ==== Sys2Proof/Tests/Slice0.lean ====
section
/-! SUPPORT. Small tests, each expected value taken from spec/95_test_vectors.md or worked by hand from the rule its comment
names, and for every statement with hypotheses a named witness that meets them. -/

namespace Sys2Proof.Tests

open Sys2Proof.Machine

/-! ### Ill-formed source lines are refused (R59, R60) -/

theorem test_cfg_f_too_wide : (AsmLine.cfg 16 8 true).wellFormed = false := by decide
theorem test_cfg_t_too_wide : (AsmLine.cfg 8 16 true).wellFormed = false := by decide
theorem test_push_too_wide : (AsmLine.push 256).wellFormed = false := by decide
theorem test_xpush_too_wide : (AsmLine.xpush 256).wellFormed = false := by decide
theorem test_xrun_too_wide : (AsmLine.xrun 128).wellFormed = false := by decide
theorem test_word_too_wide : (AsmLine.word 65536).wellFormed = false := by decide
theorem test_cvt_width_too_wide : (AsmLine.cvt 16 5 true [1]).wellFormed = false := by decide
theorem test_cvt_symbol_too_wide : (AsmLine.cvt 8 5 true [1, 256]).wellFormed = false := by decide
theorem test_xget_d_too_wide : (AsmLine.xget 128 []).wellFormed = false := by decide
theorem test_xget_symbol_too_wide : (AsmLine.xget 10 [1, 256]).wellFormed = false := by decide
theorem test_xget_wrong_count : (AsmLine.xget 10 [1, 20, 31]).wellFormed = false := by decide
theorem test_out_of_range_but_encodable_is_accepted : (AsmLine.cfg 0 8 true).wellFormed = true := by decide

/-! ### Words written out from the encodings (R47 to R52) -/

theorem test_decode_nop : decode 0b0000000000000000#16 = .ok .nop := by decide
theorem test_decode_cfg : decode 0b0001100001010001#16 = .ok (.cfg 8 5 true) := by decide
theorem test_decode_cfg_no_padding : decode 0b0001010110000000#16 = .ok (.cfg 5 8 false) := by decide
theorem test_decode_push : decode 0b0010000010100101#16 = .ok (.push 0xA5) := by decide
theorem test_decode_fin : decode 0b0011000000000000#16 = .ok .fin := by decide
theorem test_decode_pop : decode 0b0100000000000000#16 = .ok .pop := by decide
theorem test_decode_xpush : decode 0b0101000000010100#16 = .ok (.xpush 20) := by decide
theorem test_decode_xrun : decode 0b0110000001000001#16 = .ok (.xrun 65) := by decide
theorem test_decode_stat : decode 0b0111000000000000#16 = .ok .stat := by decide
theorem test_decode_rst : decode 0b1000000000000000#16 = .ok .rst := by decide
/-- KV11, KV13, KV15, CC19, XC6. -/
theorem test_decode_illegal :
    decode 0xF0FF#16 = .error (.reservedOpcode 15) ∧ decode 0x1852#16 = .error (.nonZeroMustBeZero 1) ∧
      decode 0x0001#16 = .error (.nonZeroMustBeZero 0) ∧ decode 0x21FF#16 = .error (.nonZeroMustBeZero 2) ∧
      decode 0x6080#16 = .error (.nonZeroMustBeZero 6) := by decide
theorem test_decode_table_word : decodeTableWord 16 0x6023 = some (.xrun 35) := by decide
theorem test_decode_table_word_illegal : decodeTableWord 16 0x9000 = none := by decide

/-! ### One step on small states -/

/-- After `cfg 8, 5, pad` (CC1). -/
def run85 : State := { State.reset with mode := .run, fromBits := 8, toBits := 5, pad := true }

/-- After CC2: OUTQ [31], BITS 3, ACC 0xFF. -/
def run85fed : State := { run85 with acc := 0xFF, bits := 3, outq := [31] }

/-- After CC3: OUTQ [31, 28], MODE DONE. -/
def done85 : State := { run85 with mode := .done, outq := [31, 28] }

/-- After CC21: `cfg 5, 8, nopad` and two `push 31`. -/
def run58 : State :=
  { State.reset with mode := .run, fromBits := 5, toBits := 8, acc := 0x3FF, bits := 2, outq := [0xFF] }

/-- After CC11: an abort by E_RANGE. -/
def failed58 : State := { State.reset with mode := .error, err := 3, fromBits := 5, toBits := 8 }

/-- After CC14: FROM 8, TO 1, sixteen ones queued at OUTQ_DEPTH 16. -/
def full81 : State :=
  { State.reset with mode := .run, fromBits := 8, toBits := 1, pad := true, acc := 0x7FFF, outq := List.replicate 16 1 }

/-- After CC15: FROM 5, TO 8, PAD 1, sixteen zeros queued, BITS 2. -/
def full58 : State :=
  { State.reset with mode := .run, fromBits := 5, toBits := 8, pad := true, bits := 2, outq := List.replicate 16 0 }

/-- A slice [1, 20] (XV4). -/
def slice2 : State := { State.reset with xsym := [1, 20] }

/-- A slice of thirteen 31s (XC3). -/
def slice13 : State := { State.reset with xsym := List.replicate 13 31 }

/-- One response after nothing. -/
def told (st : Status) (data : Data) (s : State) : Host.Outcome State Fault Refusal :=
  .next { s with responses := [⟨st, data⟩] }

/-- CC1. -/
theorem test_cfg : step (State.reset.withFetchWord 16 0x1851) = told .ok 0 run85 := rfl
/-- CC9. -/
theorem test_cfg_param : step (State.reset.withFetchWord 16 0x1980) = told .eParam 0 State.reset := rfl
/-- CC2. -/
theorem test_push : step (run85.withFetchWord 16 0x20FF) = told .ok 0 run85fed := rfl
/-- CC11. -/
theorem test_push_range :
    exec (.push 32) { State.reset with mode := .run, fromBits := 5, toBits := 8 } = told .eRange 0 failed58 := rfl
/-- CC3: the residual 0b111 is padded to 0b11100. -/
theorem test_fin : step (run85fed.withFetchWord 16 0x3000) = told .ok 0 done85 := rfl
/-- CC22: the residual 0b11 is not zero. -/
theorem test_fin_conv :
    exec .fin run58 = told .eConv 0 { run58 with mode := .error, err := 7, outq := [], acc := 0, bits := 0 } := rfl
/-- CC4. -/
theorem test_pop : exec .pop done85 = told .ok 31 { done85 with outq := [28] } := rfl
/-- CC7. -/
theorem test_pop_empty : exec .pop State.reset = told .eEmpty 0 State.reset := rfl
/-- XC1. -/
theorem test_xpush : exec (.xpush 1) State.reset = told .ok 0 { State.reset with xsym := [1] } := rfl
/-- XC4: E_RANGE is checked before E_FULL. -/
theorem test_xpush_range_before_full : exec (.xpush 32) slice13 = told .eRange 0 State.reset := rfl
/-- XV4. -/
theorem test_xrun : exec (.xrun 10) slice2 = told .ok 52 State.reset := rfl
/-- XV10: nine bytes, 72 bits, exact. -/
theorem test_xrun_exact : exec (.xrun 64) slice13 = told .ok 0xFFFFFFFFFFFFFFFF State.reset := rfl
/-- KV5. -/
theorem test_stat_done : exec .stat done85 = told .ok 0x2015802 done85 := rfl
/-- KV7, KV8. -/
theorem test_stat_error_and_slice :
    exec .stat failed58 = told .ok 0x8533 failed58 ∧ exec .stat slice13 = told .ok 0xD00000000 slice13 := ⟨rfl, rfl⟩
/-- KV2. -/
theorem test_nop : exec .nop run58 = told .ok 0 run58 := rfl
/-- KV9. -/
theorem test_rst : exec .rst run85fed = told .ok 0 State.reset := rfl
/-- KV16: an illegal word leaves ERROR as it is. -/
theorem test_illegal : step (failed58.withFetchWord 16 0x9000) = told .eIllegal 0 failed58 := rfl
/-- CC14 and CC15: no room, nothing changes. -/
theorem test_full : exec (.push 0) full81 = told .eFull 0 full81 ∧ exec .fin full58 = told .eFull 0 full58 := ⟨rfl, rfl⟩

/-! ### The two algorithms (CV1, CV3, CV4, CV15, XV11, XV20) -/

theorem test_convert_padded : convert 8 5 true [0xFF] = some [31, 28] := by decide
theorem test_convert_garbage : convert 5 8 false [31, 31] = none := by decide
theorem test_convert_long_residual : convert 5 8 false [1] = none := by decide
theorem test_convert_eight_to_seven : convert 8 7 true [0xFF, 0x01] = some [127, 64, 32] := by decide
theorem test_extract_sixty_four :
    extract 64 [0, 4, 17, 20, 10, 25, 28, 9, 21, 15, 6, 30, 30] = 0x0123456789ABCDEF := by decide
theorem test_extract_sixteen : extract 16 [1, 2, 3, 4] = 2182 := by decide

/-! ### The assembler (R59, R60; P1, P7) -/

theorem test_assemble_cfg :
    assembleText ['c', 'f', 'g', ' ', '8', ',', ' ', '5', ',', ' ', 'p', 'a', 'd', ' ', ';', 'x'] = some [0x1851#16] := by
  decide
theorem test_assemble_hexadecimal :
    assembleText ['\t', 'p', 'u', 's', 'h', ' ', '0', 'x', 'F', 'f'] = some [0x20FF#16] := by decide
theorem test_assemble_refuses : assembleText ['p', 'u', 's', 'h', ' ', '2', '5', '6'] = none := by decide
theorem test_assemble_comment : assembleText [' ', ';', 'n', 'o', 'p'] = some [] := by decide
theorem test_assemble_xget :
    assemble (.xget 10 [1, 20]) = some [0x5001#16, 0x5014#16, 0x600A#16] := by decide
theorem test_assemble_cvt : assemble (.cvt 8 5 true [0xFF]) = some [0x1851#16, 0x20FF#16, 0x3000#16] := by decide
theorem test_assemble_source :
    assembleSource ['n', 'o', 'p', '\n', '.', 'w', 'o', 'r', 'd', ' ', '0', 'x', '9', '0', '0', '0', '\n'] =
      some [0x0000#16, 0x9000#16] := by decide

/-! ### Clients and instances (R105, R116) -/

/-- R116: a second client's PUSH into an open conversion is a breach, its extraction beside it is none. -/
theorem test_serialised :
    serialised ⟨none, none⟩ State.reset [(1, .cfg 8 5 true), (2, .xpush 1), (1, .push 7), (2, .xrun 5), (1, .fin)] = true ∧
      serialised ⟨none, none⟩ State.reset [(1, .cfg 8 5 true), (2, .push 7)] = false := by decide

/-! ### The end of a conversion (R67) -/

/-- A hardware reset abandons an open conversion, and leaves one that has succeeded as it ended. -/
theorem test_hardware_reset_abandons :
    ((startTracked 8 5 true State.reset).receive .hardwareReset).conv.phase = .abandoned ∧
      ((startTracked 8 5 true State.reset).issue .fin |>.receive .hardwareReset).conv.phase = .succeeded := by decide

/-- An OK CFG over an open conversion leaves it behind as abandoned; a rejected one leaves it open. -/
theorem test_cfg_abandons :
    ((startTracked 8 5 true State.reset).receive (.command 0x1580)).past = [⟨.abandoned, 8, 5, true, [], [], []⟩] ∧
      ((startTracked 8 5 true State.reset).receive (.command 0x1980)).conv.phase = .opened := by decide

/-! ### Witnesses: each meets every hypothesis of the statement it is named after -/

theorem witness_DecodedWordIsItsCommandsWord : ∃ w i, decode w = .ok i := ⟨0x1851, .cfg 8 5 true, by decide⟩

theorem witness_OpcodeMapDecidesEveryWord :
    ∃ (w : CmdWord) (r : OpRow), r ∈ opcodeMap ∧ w &&& r.maskBits = r.matchBits :=
  ⟨0x1851, rowOf (.cfg 0 0 false), by decide, by decide⟩

/-- Every clause at the greatest value of its field. -/
theorem witness_OperandsAreReadUnsigned :
    decode 0x1FF1#16 = .ok (.cfg 15 15 true) ∧ decode 0x20FF#16 = .ok (.push 255) ∧
      decode 0x50FF#16 = .ok (.xpush 255) ∧ decode 0x607F#16 = .ok (.xrun 127) := by decide

/-- Every disjunct of `illegal` at a boundary word: the first reserved OP and one must-be-zero bit of each format. -/
theorem witness_IllegalWordsAreAnsweredAndChangeNothing :
    ∃ (s : State) (rest : List HostEvent), s.inputs = .command 0x9000#16 :: rest ∧
      9 ≤ (0x9000#16).toNat / 2 ^ 12 ∧
      ((0x8001#16).toNat / 2 ^ 12 = 8 ∧ (0x8001#16).toNat % 2 ^ 12 ≠ 0) ∧
      ((0x1002#16).toNat / 2 ^ 12 = 1 ∧ (0x1002#16).toNat / 2 % 2 ^ 3 ≠ 0) ∧
      ((0x5800#16).toNat / 2 ^ 12 = 5 ∧ (0x5800#16).toNat / 2 ^ 8 % 2 ^ 4 ≠ 0) ∧
      (0x6080#16).toNat / 2 ^ 12 = 6 ∧ (0x6080#16).toNat / 2 ^ 7 % 2 ^ 5 ≠ 0 :=
  ⟨State.reset.withFetchWord 16 0x9000, [], rfl, by decide, by decide, by decide, by decide, by decide⟩

theorem witness_StepRunsTheDecodedCommand :
    ∃ (s : State) (w : CmdWord) (rest : List HostEvent) (i : Instr), s.inputs = .command w :: rest ∧ decode w = .ok i :=
  ⟨run85.withFetchWord 16 0x20FF, 0x20FF, [], .push 0xFF, rfl, by decide⟩

theorem witness_HardwareResetSetsEveryFieldAndAnswersNothing :
    (∃ (s : State) (rest : List HostEvent), s.inputs = .hardwareReset :: rest) ∧
      ∃ s t u : State, hardwareReset s = .next t ∧ exec .rst s = .next u :=
  ⟨⟨offer .hardwareReset run85fed, [], rfl⟩, run85fed, _, _, rfl, rfl⟩

theorem witness_ResetGivesEveryFieldTheSpecsValue :
    (∃ t d, t = State.resetWith d) ∧ (∃ t s, hardwareReset s = .next t) ∧ ∃ t s, exec .rst s = .next t :=
  ⟨⟨_, 8, rfl⟩, ⟨_, run85fed, rfl⟩, _, run85fed, rfl⟩

theorem witness_StepWithoutInputChangesNothing : ∃ s : State, s.inputs = [] := ⟨run58, rfl⟩

theorem witness_LaterCommandsDoNotReachBack :
    ∃ s t : State, s.inputs ≠ [] ∧ Host.Core.run Sys2Proof.core s.inputs.length s = .next t :=
  ⟨run85.withFetchWord 16 0x20FF, _, by decide, rfl⟩

/-- Both ends of the legal range. -/
theorem witness_ResetStateIsWellFormed :
    Config.LegalDepth 8 ∧ Config.LegalDepth 255 ∧ ¬Config.LegalDepth 7 ∧ ¬Config.LegalDepth 256 := by decide

theorem wf_run85 : run85.Wf := by decide
theorem wf_run85fed : run85fed.Wf := by decide
theorem wf_done85 : done85.Wf := by decide
theorem wf_run58 : run58.Wf := by decide
theorem wf_failed58 : failed58.Wf := by decide
theorem wf_full81 : full81.Wf := by decide
theorem wf_full58 : full58.Wf := by decide
theorem wf_slice13 : slice13.Wf := by decide

theorem witness_StepKeepsTheInvariants : ∃ s t : State, s.Wf ∧ step s = .next t :=
  ⟨run85.withFetchWord 16 0x20FF, _, by decide, rfl⟩

theorem witness_ReachableStatesAreWellFormed :
    ∃ (d n : Nat) (events : List HostEvent) (t : State), Config.LegalDepth d ∧ 0 < n ∧
      Host.Core.run Sys2Proof.core n { State.resetWith d with inputs := events } = .next t :=
  ⟨8, 2, [.command 0x1851, .command 0x20FF], _, by decide, by decide, rfl⟩

/-- An illegal CFG leaves the converter unconfigured; 31 is the greatest symbol of a slice. -/
theorem witness_HostMustConfigureBeforeConverting :
    (∀ c ∈ ([.cfg 9 8 false, .xpush 1, .push 0] : List Instr), ∀ f t pad, c = .cfg f t pad →
      ¬(LegalWidth f ∧ LegalWidth t)) ∧ (31#8).toNat < 32 := by
  refine ⟨?_, by decide⟩
  intro c hc f t pad h
  subst h
  simp only [List.mem_cons, Instr.cfg.injEq, reduceCtorEq, List.not_mem_nil, or_false] at hc
  obtain ⟨rfl, rfl, -⟩ := hc
  decide

theorem witness_StatAnswersTheStatusWord : ∃ s : State, s.Wf ∧ s.mode = .done ∧ s.outq ≠ [] := ⟨done85, by decide⟩

/-- Each of PUSH's four branches, at symbols on both sides of 2^FROM and at a full queue. -/
theorem witness_PushFeedsOneSymbol :
    (done85.Wf ∧ done85.mode ≠ .run) ∧ (run58.Wf ∧ run58.mode = .run ∧ 2 ^ run58.fromBits.toNat ≤ (32#8).toNat) ∧
      (full81.Wf ∧ full81.mode = .run ∧ full81.outqDepth < full81.outq.length + pushEmits full81) ∧
      run58.Wf ∧ (31#8).toNat < 2 ^ run58.fromBits.toNat ∧ run58.outq.length + pushEmits run58 ≤ run58.outqDepth :=
  ⟨⟨wf_done85, by decide⟩, ⟨wf_run58, by decide⟩, ⟨wf_full81, by decide⟩, wf_run58, by decide⟩

/-- Both padding policies, with and without a residual, and a full queue. -/
theorem witness_FinAppliesThePaddingPolicy :
    (done85.Wf ∧ done85.mode ≠ .run) ∧ (run85fed.Wf ∧ run85fed.pad = true ∧ 0 < run85fed.bits.toNat) ∧
      (run85.Wf ∧ run85.pad = true ∧ run85.bits.toNat = 0) ∧
      (full58.Wf ∧ full58.outq.length = full58.outqDepth ∧ 0 < full58.bits.toNat) ∧
      run58.Wf ∧ run58.pad = false :=
  ⟨⟨wf_done85, by decide⟩, ⟨wf_run85fed, by decide⟩, ⟨wf_run85, by decide⟩, ⟨wf_full58, by decide⟩, wf_run58, by decide⟩

theorem witness_PopTakesTheOldestSymbol : State.reset.outq = [] ∧ done85.outq = 31 :: [28] := by decide

theorem witness_EachErrorHasExactlyItsCause :
    ∃ (w : CmdWord) (s t : State), execWord w s = .next t ∧ lastStatus t = some .eConv :=
  ⟨0x3000, run58, _, rfl, by decide⟩

/-- Both ends of the legal widths, and the first values beyond them. -/
theorem witness_CfgOpensAConversionOrRejects :
    (∃ t, exec (.cfg 1 8 true) failed58 = .next t ∧ lastStatus t = some .ok) ∧
      (∃ t, exec (.cfg 0 8 true) run58 = .next t ∧ lastStatus t = some .eParam) ∧
      ∃ t, exec (.cfg 8 9 true) run58 = .next t ∧ lastStatus t = some .eParam :=
  ⟨⟨_, rfl, by decide⟩, ⟨_, rfl, by decide⟩, _, rfl, by decide⟩

/-- The greatest symbol and the first beyond it, into a slice with room and into a full one. -/
theorem witness_XpushAppendsOneSymbol :
    (∃ t, exec (.xpush 31) slice2 = .next t ∧ lastStatus t = some .ok) ∧
      (∃ t, exec (.xpush 31) slice13 = .next t ∧ lastStatus t = some .eFull) ∧
      ∃ t, exec (.xpush 32) slice13 = .next t ∧ lastStatus t = some .eRange :=
  ⟨⟨_, rfl, by decide⟩, ⟨_, rfl, by decide⟩, _, rfl, by decide⟩

/-- The greatest D and the first beyond it; exactly enough symbols and one too few. -/
theorem witness_XrunExtractsAndConsumesTheSlice :
    (∃ t, exec (.xrun 64) slice13 = .next t ∧ lastStatus t = some .ok) ∧
      (∃ t, exec (.xrun 65) slice13 = .next t ∧ lastStatus t = some .eParam) ∧
      (∃ t, exec (.xrun 10) slice2 = .next t ∧ lastStatus t = some .ok) ∧
      ∃ t, exec (.xrun 11) slice2 = .next t ∧ lastStatus t = some .eTrunc :=
  ⟨⟨_, rfl, by decide⟩, ⟨_, rfl, by decide⟩, ⟨_, rfl, by decide⟩, _, rfl, by decide⟩

/-- One word for each of the three kinds of error, and each error of a kind that two commands share. -/
theorem witness_ErrorsRejectAbortOrDiscard :
    (∃ t, execWord 0x9000 run85 = .next t ∧ lastStatus t = some .eIllegal) ∧
      (∃ t, execWord 0x1980 run85 = .next t ∧ lastStatus t = some .eParam ∧ decode 0x1980 = .ok (.cfg 9 8 false)) ∧
      (∃ t, execWord 0x2020 run58 = .next t ∧ lastStatus t = some .eRange ∧ decode 0x2020 = .ok (.push 32)) ∧
      (∃ t, execWord 0x3000 run58 = .next t ∧ lastStatus t = some .eConv) ∧
      (∃ t, execWord 0x5020 slice2 = .next t ∧ lastStatus t = some .eRange ∧ decode 0x5020 = .ok (.xpush 32)) ∧
      (∃ t, execWord 0x6041 slice2 = .next t ∧ lastStatus t = some .eParam ∧ decode 0x6041 = .ok (.xrun 65)) ∧
      ∃ t, execWord 0x600B slice2 = .next t ∧ lastStatus t = some .eTrunc :=
  ⟨⟨_, rfl, by decide⟩, ⟨_, rfl, by decide⟩, ⟨_, rfl, by decide⟩, ⟨_, rfl, by decide⟩, ⟨_, rfl, by decide⟩,
    ⟨_, rfl, by decide⟩, ⟨_, rfl, by decide⟩⟩

/-- The four clauses, each on a state and operands of its own. -/
theorem witness_EarlierChecksHideLaterOnes :
    ((∀ i, decode 0x1002#16 ≠ .ok i) ∧ ∃ t, execWord 0x1002 State.reset = .next t) ∧
      (done85.mode ≠ .run ∧ 2 ^ failed58.fromBits.toNat ≤ (32#8).toNat ∧ failed58.mode ≠ .run ∧
        ∃ t, exec (.push 32) failed58 = .next t) ∧
      (full58.mode = .run ∧ 2 ^ full58.fromBits.toNat ≤ (32#8).toNat ∧ full58.outq.length = full58.outqDepth ∧
        ∃ t, exec (.push 32) full58 = .next t) ∧
      32 ≤ (32#8).toNat ∧ slice13.xsym.length = 13 ∧ ∃ t, exec (.xpush 32) slice13 = .next t :=
  ⟨⟨fun i h => (nomatch (show (Except.error (.nonZeroMustBeZero 1) : Except Illegal Instr) = .ok i from h)), _, rfl⟩,
    ⟨by decide, by decide, by decide, _, rfl⟩, ⟨by decide, by decide, by decide, _, rfl⟩, by decide, by decide, _, rfl⟩

theorem witness_ErrorIsLeftOnlyByCfgOrReset :
    failed58.Wf ∧ failed58.mode = .error ∧ (∃ t, execWord 0x1580 failed58 = .next t ∧ t.mode ≠ .error) ∧
      (∃ t, hardwareReset failed58 = .next t) ∧
      ∃ t u, exec (.xpush 1) failed58 = .next t ∧ exec (.xpush 1) { failed58 with mode := .run } = .next u :=
  ⟨by decide, rfl, ⟨_, rfl, by decide⟩, ⟨_, rfl⟩, _, _, rfl, rfl⟩

theorem witness_FirstCauseStaysInErr :
    (failed58.mode = .error ∧ (∃ t, execWord 0x2020 failed58 = .next t) ∧
        (∀ f u pad, decode 0x2020#16 ≠ .ok (.cfg f u pad)) ∧ decode 0x2020#16 ≠ .ok .rst) ∧
      ∃ t, exec (.xrun 5) slice2 = .next t := by
  have e : decode 0x2020#16 = .ok (.push 32) := by decide
  refine ⟨⟨rfl, ⟨_, rfl⟩, fun f u pad h => ?_, fun h => ?_⟩, _, rfl⟩ <;> (rw [e] at h; cases h)

theorem witness_CommandsWriteOnlyTheFieldsOfTheAccessMatrix :
    (∃ t, exec .pop done85 = .next t) ∧ (∃ t, exec (.push 1) run58 = .next t) ∧ (∃ t, exec .fin run58 = .next t) ∧
      ∃ t, exec .stat run58 = .next t := ⟨⟨_, rfl⟩, ⟨_, rfl⟩, ⟨_, rfl⟩, _, rfl⟩

theorem witness_UnitsDoNotAffectEachOther :
    (∃ t, exec .fin run58 = .next t) ∧ ∃ t, exec (.xrun 10) slice2 = .next t := ⟨⟨_, rfl⟩, _, rfl⟩

theorem witness_RepeatedCommandsAreIdempotentOrRefused :
    (∃ t u, exec .stat run58 = .next t ∧ exec .stat t = .next u) ∧
      (∃ t u, 0 < (64#7).toNat ∧ (64#7).toNat ≤ 64 ∧ exec (.xrun 64) slice13 = .next t ∧ exec (.xrun 64) t = .next u) ∧
      ∃ t u, exec .fin run85fed = .next t ∧ lastStatus t = some .ok ∧ exec .fin t = .next u :=
  ⟨⟨_, _, rfl, rfl⟩, ⟨_, _, by decide, by decide, rfl, rfl⟩, _, _, rfl, by decide, rfl⟩

theorem witness_DataIsZeroExtended :
    (∃ t, done85.Wf ∧ exec .pop done85 = .next t ∧ lastData t = some 31) ∧
      (∃ t, slice2.Wf ∧ exec (.xrun 10) slice2 = .next t ∧ lastData t = some 52) ∧
      ∃ t, failed58.Wf ∧ exec .stat failed58 = .next t ∧ lastData t = some 0x8533 :=
  ⟨⟨_, by decide, rfl, by decide⟩, ⟨_, by decide, rfl, by decide⟩, _, by decide, rfl, by decide⟩

theorem witness_ConvertHasTheClosedForm : ∀ x ∈ [0xFF, 0], x < 2 ^ 8 := by decide

/-- A conversion with a POP, an extraction and two PUSHes in it is still open, and its FIN finds room. -/
theorem witness_EveryConversionComputesConvert :
    let cs : List Instr := [.push 0xFF, .pop, .xpush 3, .stat, .push 1]
    let k := (startTracked 8 5 true State.reset).issueAll cs
    LegalWidth 8 ∧ LegalWidth 5 ∧ (∀ c ∈ cs, c ≠ .rst) ∧ k.conv.phase = .opened ∧
      k.conv.pushed = [0xFF, 1] ∧ lastStatus (k.issue .fin).state = some .ok := by decide

theorem witness_OutputBitsAreTheInputBitsInOrder :
    let k := (startTracked 5 8 false State.reset).issueAll [.push 31, .push 28]
    LegalWidth 5 ∧ LegalWidth 8 ∧ k.conv.phase = .opened ∧ lastStatus (k.issue .fin).state = some .ok := by decide

theorem witness_PoppedThenQueuedIsTheEmittedSequence :
    let k := (startTracked 8 5 true State.reset).issueAll [.push 0xFF, .pop, .fin]
    k.conv.phase = .succeeded ∧ k.conv.popped = [31] ∧ k.state.outq = [28] := by decide

/-- An open conversion with symbols fed, emitted and popped, and a word or reset to come: its record agrees in every way. -/
def openRecord (next : HostEvent) : Tracked :=
  { state := { run85fed with outq := [], inputs := [next] }
    conv := ⟨.opened, 8, 5, true, [0xFF], [31], [31]⟩
    past := [⟨.failed, 5, 8, false, [32], [], []⟩, ⟨.succeeded, 8, 5, true, [0xFF], [31, 28], [31]⟩] }

/-- Each kind of event that ends an open conversion, and a PUSH and a POP, which do not. -/
theorem witness_ConversionEndsAtTheFirstEndingEvent :
    (openRecord .hardwareReset).PhaseAgrees ∧
      (∃ s, execEvent .hardwareReset (openRecord .hardwareReset).state = .next s) ∧
      (∃ s, execEvent (.command 0x1580) (openRecord .hardwareReset).state = .next s ∧ lastStatus s = some .ok) ∧
      (∃ s, execEvent (.command 0x3000) (openRecord .hardwareReset).state = .next s ∧ lastStatus s = some .ok) ∧
      (∃ s, execEvent (.command 0x2020) (startTracked 5 8 true State.reset).state = .next s ∧
        lastStatus s = some .eRange) ∧
      (∃ s, execEvent (.command 0x2001) (openRecord .hardwareReset).state = .next s ∧ lastStatus s = some .ok) ∧
      ((startTracked 8 5 true State.reset).issue (.push 0xFF)).PhaseAgrees ∧
      ∃ s, execEvent (.command 0x4000) ((startTracked 8 5 true State.reset).issue (.push 0xFF)).state = .next s ∧
        lastStatus s = some .ok :=
  ⟨by decide, ⟨_, rfl⟩, ⟨_, rfl, by decide⟩, ⟨_, rfl, by decide⟩, ⟨_, rfl, by decide⟩, ⟨_, rfl, by decide⟩, by decide,
    _, rfl, by decide⟩

theorem witness_RecordAgreesAtResetAndAfterCfg : LegalWidth 1 ∧ LegalWidth 8 ∧ ¬LegalWidth 0 ∧ ¬LegalWidth 9 := by decide

theorem witness_StepKeepsTheEmittedSequenceInOrder :
    ∃ (k : Tracked) (s : State), k.conv.phase = .opened ∧ k.PhaseAgrees ∧ k.QueueAgrees ∧ step k.state = .next s :=
  ⟨openRecord (.command 0x2001), _, rfl, by decide, by decide, rfl⟩

theorem witness_StepKeepsTheConverterEqualToConvert :
    ∃ (k : Tracked) (s : State), k.conv.phase = .opened ∧ k.PhaseAgrees ∧ k.ConvertAgrees ∧ step k.state = .next s :=
  ⟨openRecord (.command 0x3000), _, rfl, by decide, by decide, rfl⟩

theorem witness_StepKeepsTheOutputBitsInInputOrder :
    ∃ (k : Tracked) (s : State), k.conv.phase = .opened ∧ k.StreamAgrees ∧ step k.state = .next s :=
  ⟨openRecord (.command 0x2001), _, rfl, by decide, rfl⟩

/-- The greatest emission there is, and both commands on an empty queue. -/
theorem witness_EmissionIsBounded :
    ({ full81 with outq := [] } : State).Wf ∧ pushEmits full81 = 8 ∧ run85.Wf ∧ run85.mode = .run ∧ run85.outq = [] ∧
      (∃ t, exec (.push 7) run85 = .next t) ∧ ∃ t, exec .fin run85 = .next t :=
  ⟨by decide, by decide, by decide, rfl, rfl, ⟨_, rfl⟩, _, rfl⟩

theorem witness_PoppingMakesRoomForTheRefusedCommand :
    (full81.Wf ∧ ∃ t, exec (.push 0) full81 = .next t ∧ lastStatus t = some .eFull) ∧
      full58.Wf ∧ ∃ t, exec .fin full58 = .next t ∧ lastStatus t = some .eFull :=
  ⟨⟨by decide, _, rfl, by decide⟩, by decide, _, rfl, by decide⟩

theorem witness_ReconfiguringLosesUnpoppedOutputsSilently :
    losesOutputs .rst done85 = true ∧ losesOutputs (.cfg 8 8 false) done85 = true ∧ ∃ t, exec .rst done85 = .next t :=
  ⟨by decide, by decide, _, rfl⟩

/-- Two states that differ in ACC, and only above BITS = 2. -/
theorem witness_HiddenAccumulatorBitsNeverShow :
    run58.Wf ∧ run58.SameVisible { run58 with acc := 3 } ∧ run58 ≠ { run58 with acc := 3 } := by decide

theorem witness_BytesSurviveTheRoundTrip : (∀ b ∈ [0x68, 0xFF], b < 256) ∧ 31 < 32 := by decide

theorem witness_FiveToEightWithoutPaddingFailsByLength :
    (∀ x ∈ [31, 28], x < 32) ∧ 5 * [31, 28].length % 8 < 5 ∧ 5 ≤ 5 * [31].length % 8 := by decide

theorem witness_ExtractHasTheClosedForm :
    (∀ x ∈ List.replicate 13 31, x < 32) ∧ (64 + 4) / 5 ≤ (List.replicate 13 31).length := by decide

theorem witness_ExtractIsTheFirstBitsOfTheStream :
    (∀ x ∈ [22], x < 32) ∧ (3 + 4) / 5 ≤ [22].length ∧ msbBits 3 (extract 3 [22]) = [true, false, true] := by decide

theorem witness_TimestampLengthAndTagComeBack : run58.xsym = [] ∧ 1496314658 < 2 ^ 35 := by decide

theorem witness_XrunIgnoresExtraSymbols : (10#7).toNat ≤ 64 ∧ ((10#7).toNat + 4) / 5 < slice13.xsym.length := by decide

theorem witness_AssembledLinesDecodeToTheirCommands :
    assemble (.cfg 15 15 true) = some [0x1FF1#16] ∧ assemble (.cfg 16 15 true) = none ∧
      (65535 < 65536 ∧ assemble (.word 65535) = some [0xFFFF#16]) := by decide

theorem witness_InstancesDoNotAffectEachOther : ([run58, done85] : Platform)[1]? = some done85 ∧ (0 : Nat) ≠ 1 := by decide

end Sys2Proof.Tests
end

/-! ## Proofs about the state: reset values, the nine invariants of R30, and the hidden bits of ACC (R28) -/

section
/-! SUPPORT. One step and a run of steps, said once: what a step does with the next event, and induction over a run. -/

namespace Sys2Proof.Machine

variable {s t : State}

/-- With nothing from the host a step leaves the state (R14). -/
theorem step_of_no_input (h : s.inputs = []) : step s = .next s := by
  simp [step, nextEvent_nil h]

/-- With an event to take, a step is that event on the state with it taken (R5, R41). -/
theorem step_of_input {e : HostEvent} {rest : List HostEvent} (h : s.inputs = e :: rest) :
    step s = execEvent e { s with inputs := rest } := by
  simp [step, nextEvent_cons h]

/-- A run of no steps stays where it is. -/
theorem run_zero : Host.Core.run Sys2Proof.core 0 s = .next s := rfl

/-- A run whose first step answers goes on from there. -/
theorem run_succ_of_step {u : State} (n : Nat) (h : step s = .next u) :
    Host.Core.run Sys2Proof.core (n + 1) s = Host.Core.run Sys2Proof.core n u := by
  have h' : Sys2Proof.core.step s = .next u := h
  simp only [Host.Core.run, h']

/-- A run that answers has answered at its first step. -/
theorem run_succ_next {n : Nat} (h : Host.Core.run Sys2Proof.core (n + 1) s = .next t) :
    ∃ u, step s = .next u ∧ Host.Core.run Sys2Proof.core n u = .next t := by
  cases hs : step s with
  | next u => exact ⟨u, rfl, run_succ_of_step n hs ▸ h⟩
  | fault r => exact nomatch r
  | refused r =>
    have hs' : Sys2Proof.core.step s = .refused r := hs
    simp [Host.Core.run, hs'] at h

/-- What every step keeps, every run keeps. -/
theorem run_keeps {P : State → Prop} (keep : ∀ s t, P s → step s = .next t → P t) {n : Nat} (hs : P s)
    (h : Host.Core.run Sys2Proof.core n s = .next t) : P t := by
  induction n generalizing s with
  | zero =>
    obtain rfl : s = t := Host.Outcome.next.inj h
    exact hs
  | succ n ih =>
    obtain ⟨u, hstep, hrun⟩ := run_succ_next h
    exact ih (keep s u hs hstep) hrun

end Sys2Proof.Machine
end

section
/-! SUPPORT. The nine invariants (10_state.md R30): each named update of the state keeps them, so each command does, so
each step does. -/

namespace Sys2Proof.Machine

variable {s t : State}

/-- An empty queue is within every bound. -/
theorem queueBounded_of_nil (h : s.outq = []) : s.QueueBounded := by
  constructor <;> simp [h]

/-- The reset state has the invariants at every legal depth (R30, R31). -/
theorem resetWith_wf {d : Nat} (hd : Config.LegalDepth d) : (State.resetWith d).Wf := by
  refine ⟨hd, ?_, ?_, ?_, ?_, ?_, ?_, queueBounded_of_nil rfl, ?_, ?_⟩ <;> simp

/-- The invariants speak of no response. -/
@[simp] theorem answer_wf (st : Status) (data : Data) : (answer st data s).Wf ↔ s.Wf := Iff.rfl

/-- The return to reset has the invariants, since the depth is as before (R9, R31). -/
theorem toReset_wf (h : s.Wf) : (toReset s).Wf := resetWith_wf h.1

/-- Discarding the slice keeps the invariants (R95). -/
theorem dropSlice_wf (h : s.Wf) : (dropSlice s).Wf := by
  obtain ⟨hd, hidle, hw, hb, hc, he, hec, hq, -, hbs⟩ := h
  exact ⟨hd, hidle, hw, hb, hc, he, hec, hq, Nat.zero_le _, hbs⟩

/-- The terminal errors are E_RANGE and E_CONV, the two codes R30 allows in ERR; an abort keeps the invariants (R94). -/
theorem enterError_wf {st : Status} (hst : st = .eRange ∨ st = .eConv) (hm : s.mode ≠ .idle) (h : s.Wf) :
    (enterError st s).Wf := by
  obtain ⟨hd, -, hw, -, -, -, -, -, hx, -⟩ := h
  have hcode : st.code = 3 ∨ st.code = 7 := by rcases hst with rfl | rfl <;> simp [Status.code]
  have hw' : (enterError st s).WidthsLegal := fun _ => hw hm
  have hnamed : (enterError st s).ErrorNamed := fun _ => ⟨rfl, hcode⟩
  refine ⟨hd, ?_, hw', ?_, ?_, hnamed, ?_, queueBounded_of_nil rfl, hx, ?_⟩ <;> simp

/-- A legal CFG keeps the invariants (R63). -/
theorem openConversion_wf {f w : BitVec 4} {pad : Bool} (hf : LegalWidth f) (ht : LegalWidth w) (h : s.Wf) :
    (openConversion f w pad s).Wf := by
  obtain ⟨hd, -, -, -, -, -, -, -, hx, -⟩ := h
  have hw' : (openConversion f w pad s).WidthsLegal := fun _ => ⟨hf, ht⟩
  have hb' : (openConversion f w pad s).BitsBelowTo := fun _ => ht.1
  refine ⟨hd, ?_, hw', hb', ?_, ?_, ?_, queueBounded_of_nil rfl, hx, ?_⟩ <;> simp

/-- Truncation to a field's width never makes a number greater. -/
theorem toNat_ofNat_le (w n : Nat) : (BitVec.ofNat w n).toNat ≤ n := by
  simpa using Nat.mod_le n (2 ^ w)

/-- The bit count an accepted PUSH leaves is below TO (R22, R64). -/
theorem acceptSymbol_bits_lt (sym : BitVec 8) (hto : 1 ≤ s.toBits.toNat) :
    (acceptSymbol sym s).bits.toNat < s.toBits.toNat :=
  calc (acceptSymbol sym s).bits.toNat
    _ ≤ (pushEmission sym s).2 := toNat_ofNat_le 4 _
    _ = pushCount s % s.toBits.toNat := emit_snd ..
    _ < s.toBits.toNat := Nat.mod_lt _ hto

/-- Every symbol an accepted PUSH appends is below 2^TO (R23). -/
theorem pushEmission_mem_lt {sym : BitVec 8} {v : OutSym}
    (hv : v ∈ (pushEmission sym s).1.map (BitVec.ofNat 8)) : v.toNat < 2 ^ s.toBits.toNat := by
  obtain ⟨x, hx, rfl⟩ := List.mem_map.mp hv
  exact (toNat_ofNat_le 8 x).trans_lt (emit_mem_lt _ _ _ _ hx)

/-- The number of symbols a PUSH appends is R64's k. -/
theorem pushEmission_length (sym : BitVec 8) : (pushEmission sym s).1.length = pushEmits s := emit_length ..

/-- An accepted PUSH keeps the invariants (R64). -/
theorem acceptSymbol_wf {sym : BitVec 8} (hm : s.mode = .run) (hroom : s.outq.length + pushEmits s ≤ s.outqDepth)
    (h : s.Wf) : (acceptSymbol sym s).Wf := by
  obtain ⟨hd, -, hw, -, -, -, hec, ⟨-, hq⟩, hx, -⟩ := h
  have ⟨_, hto1, hto8⟩ := hw (by simp [hm])
  have hbits := acceptSymbol_bits_lt sym hto1
  have hqueue : (acceptSymbol sym s).QueueBounded := by
    refine ⟨by simpa [pushEmission_length] using hroom, fun v hv => ?_⟩
    rcases List.mem_append.mp hv with hold | hnew
    · exact hq v hold
    · exact pushEmission_mem_lt (s := s) hnew
  have hsmall : (acceptSymbol sym s).BitsSmall := show _ ≤ 7 by omega
  refine ⟨hd, ?_, hw, fun _ => hbits, ?_, ?_, hec, hqueue, hx, hsmall⟩ <;> simp [hm]

/-- The end of a conversion keeps the invariants (R65). -/
theorem closeConversion_wf (hm : s.mode = .run) (h : s.Wf) : (closeConversion s).Wf := by
  obtain ⟨hd, -, hw, -, -, -, hec, hq, hx, -⟩ := h
  have hw' : (closeConversion s).WidthsLegal := fun _ => hw (by simp [hm])
  have hec' : (closeConversion s).ErrClear := fun _ => hec (by simp [hm])
  refine ⟨hd, ?_, hw', ?_, ?_, ?_, hec', hq, hx, ?_⟩ <;> simp

/-- One TO-bit symbol more, where OUTQ has room, keeps the invariants (R23, R65). -/
theorem enqueue_wf {v : Nat} (hm : s.mode = .run) (hv : v < 2 ^ s.toBits.toNat) (hroom : s.outq.length ≠ s.outqDepth)
    (h : s.Wf) : (enqueue v s).Wf := by
  obtain ⟨hd, -, hw, hb, hc, -, hec, ⟨hlen, hq⟩, hx, hbs⟩ := h
  have hqueue : (enqueue v s).QueueBounded := by
    refine ⟨by simp; omega, fun u hu => ?_⟩
    rcases List.mem_append.mp hu with hold | hnew
    · exact hq u hold
    · obtain rfl := List.mem_singleton.mp hnew
      exact (toNat_ofNat_le 8 v).trans_lt hv
  refine ⟨hd, ?_, hw, hb, hc, ?_, hec, hqueue, hx, hbs⟩ <;> simp [hm]

/-- Taking the oldest output keeps the invariants (R66). -/
theorem pop_wf {v : OutSym} {rest : List OutSym} (hq : s.outq = v :: rest) (h : s.Wf) :
    State.Wf { s with outq := rest } := by
  obtain ⟨hd, hidle, hw, hb, hc, he, hec, ⟨hlen, hlt⟩, hx, hbs⟩ := h
  have hnotIdle : s.mode ≠ .idle := fun hm => by simp [(hidle hm).2.2.2] at hq
  have hnotError : s.mode ≠ .error := fun hm => by simp [(he hm).1] at hq
  rw [hq] at hlen hlt
  exact ⟨hd, fun hm => absurd hm hnotIdle, hw, hb, hc, fun hm => absurd hm hnotError, hec,
    ⟨Nat.le_of_succ_le hlen, fun u hu => hlt u (List.mem_cons_of_mem v hu)⟩, hx, hbs⟩

/-- One symbol more in a slice that is not full keeps the invariants (R78). -/
theorem xpush_wf (x : XSym) (hroom : s.xsym.length ≠ 13) (h : s.Wf) : State.Wf { s with xsym := s.xsym ++ [x] } := by
  obtain ⟨hd, hidle, hw, hb, hc, he, hec, hq, hx, hbs⟩ := h
  exact ⟨hd, hidle, hw, hb, hc, he, hec, hq, by simp; omega, hbs⟩

/-- CFG keeps the invariants (R63). -/
theorem execCfg_wf {f w : BitVec 4} {pad : Bool} (hs : s.Wf) (h : execCfg f w pad s = .next t) : t.Wf := by
  rcases execCfg_cases h with ⟨⟨hf, hw⟩, rfl⟩ | ⟨-, rfl⟩
  · exact (answer_wf ..).mpr (openConversion_wf hf hw hs)
  · exact (answer_wf ..).mpr hs

/-- PUSH keeps the invariants (R64). -/
theorem execPush_wf {sym : BitVec 8} (hs : s.Wf) (h : execPush sym s = .next t) : t.Wf := by
  rcases execPush_cases h with ⟨-, rfl⟩ | ⟨hm, -, rfl⟩ | ⟨-, -, -, rfl⟩ | ⟨hm, -, hroom, rfl⟩
  · exact (answer_wf ..).mpr hs
  · exact (answer_wf ..).mpr (enterError_wf (.inl rfl) (by simp [hm]) hs)
  · exact (answer_wf ..).mpr hs
  · exact (answer_wf ..).mpr (acceptSymbol_wf hm hroom hs)

/-- FIN keeps the invariants (R65). -/
theorem execFin_wf (hs : s.Wf) (h : execFin s = .next t) : t.Wf := by
  rcases execFin_cases h with ⟨-, rfl⟩ | ⟨-, -, -, -, rfl⟩ | ⟨hm, -, -, hroom, rfl⟩ | ⟨hm, -, -, rfl⟩ |
    ⟨hm, -, -, rfl⟩ | ⟨hm, -, -, -, rfl⟩
  · exact (answer_wf ..).mpr hs
  · exact (answer_wf ..).mpr hs
  · exact (answer_wf ..).mpr (closeConversion_wf hm (enqueue_wf hm (topResidual_lt ..) hroom hs))
  · exact (answer_wf ..).mpr (closeConversion_wf hm hs)
  · exact (answer_wf ..).mpr (enterError_wf (.inr rfl) (by simp [hm]) hs)
  · exact (answer_wf ..).mpr (closeConversion_wf hm hs)

/-- POP keeps the invariants (R66). -/
theorem execPop_wf (hs : s.Wf) (h : execPop s = .next t) : t.Wf := by
  rcases execPop_cases h with ⟨-, rfl⟩ | ⟨v, rest, hq, rfl⟩
  · exact (answer_wf ..).mpr hs
  · exact (answer_wf ..).mpr (pop_wf hq hs)

/-- XPUSH keeps the invariants (R78). -/
theorem execXpush_wf {sym : BitVec 8} (hs : s.Wf) (h : execXpush sym s = .next t) : t.Wf := by
  rcases execXpush_cases h with ⟨-, rfl⟩ | ⟨-, -, rfl⟩ | ⟨-, hroom, rfl⟩
  · exact (answer_wf ..).mpr (dropSlice_wf hs)
  · exact (answer_wf ..).mpr hs
  · exact (answer_wf ..).mpr (xpush_wf _ hroom hs)

/-- XRUN keeps the invariants: every outcome empties the slice and changes nothing else (R79). -/
theorem execXrun_wf {d : BitVec 7} (hs : s.Wf) (h : execXrun d s = .next t) : t.Wf := by
  rcases execXrun_cases h with ⟨-, rfl⟩ | ⟨-, -, rfl⟩ | ⟨-, -, rfl⟩ <;>
    exact (answer_wf ..).mpr (dropSlice_wf hs)

/-- Every command keeps the invariants (R30). -/
theorem exec_wf {i : Instr} (hs : s.Wf) (h : exec i s = .next t) : t.Wf := by
  cases i with
  | nop =>
    obtain rfl := execNop_next.mp h
    exact (answer_wf ..).mpr hs
  | cfg f w pad => exact execCfg_wf hs h
  | push sym => exact execPush_wf hs h
  | fin => exact execFin_wf hs h
  | pop => exact execPop_wf hs h
  | xpush sym => exact execXpush_wf hs h
  | xrun d => exact execXrun_wf hs h
  | stat =>
    obtain rfl := execStat_next.mp h
    exact (answer_wf ..).mpr hs
  | rst =>
    obtain rfl := execRst_next.mp h
    exact (answer_wf ..).mpr (toReset_wf hs)

/-- Every event, legal or illegal word or reset, keeps the invariants (R30, R87, R107). -/
theorem execEvent_wf {e : HostEvent} (hs : s.Wf) (h : execEvent e s = .next t) : t.Wf := by
  cases e with
  | hardwareReset =>
    obtain rfl := hardwareReset_next.mp h
    exact toReset_wf hs
  | command w =>
    have h : execWord w s = .next t := h
    cases hw : decode w with
    | ok i => exact exec_wf hs (execWord_ok hw ▸ h)
    | error r =>
      obtain rfl := execIllegal_next.mp (execWord_illegal hw ▸ h)
      exact (answer_wf ..).mpr hs

/-- Every step keeps the invariants (R30): taking the event from `inputs` touches none of them. -/
theorem step_wf (s t : State) (hs : s.Wf) (h : step s = .next t) : t.Wf := by
  cases hin : s.inputs with
  | nil =>
    obtain rfl : s = t := by simpa [step_of_no_input hin] using h
    exact hs
  | cons e rest =>
    have hs' : State.Wf { s with inputs := rest } := hs
    exact execEvent_wf hs' (step_of_input hin ▸ h)

end Sys2Proof.Machine
end

section
/-! SUPPORT. The bits of ACC above BITS are hidden (10_state.md R28). First the arithmetic: what PUSH emits and what FIN
leaves depend on ACC's BITS low bits only. Then the relation `SameVisible` through each update, command and step. -/

namespace Sys2Proof.Machine

/-- Two numbers have the same `b` low bits exactly where they agree bit by bit below `b`. -/
theorem mod_two_pow_eq_iff {x y b : Nat} :
    x % 2 ^ b = y % 2 ^ b ↔ ∀ i < b, x.testBit i = y.testBit i := by
  constructor
  · intro h i hi
    have hbit := congrArg (·.testBit i) h
    simpa [Nat.testBit_mod_two_pow, hi] using hbit
  · intro h
    apply Nat.eq_of_testBit_eq
    intro i
    by_cases hi : i < b
    · simp [Nat.testBit_mod_two_pow, h i hi]
    · simp [Nat.testBit_mod_two_pow, hi]

/-- After a symbol is shifted in, ACC's BITS + FROM low bits depend only on the BITS low bits before (R21). -/
theorem shiftIn_congr {x y b f : Nat} (sym : Nat) (h : x % 2 ^ b = y % 2 ^ b) :
    shiftIn x f sym % 2 ^ (b + f) = shiftIn y f sym % 2 ^ (b + f) := by
  rw [mod_two_pow_eq_iff] at h ⊢
  intro i hi
  simp only [shiftIn, Nat.testBit_mod_two_pow, Nat.testBit_or, Nat.testBit_shiftLeft]
  by_cases hf : f ≤ i
  · rw [h (i - f) (by omega)]
  · simp [hf]

/-- The emission loop reads only the `b` low bits: "PUSH emits from ACC[BITS+FROM−1:0] only" (R28). -/
theorem emit_congr {t x y b : Nat} (h : x % 2 ^ b = y % 2 ^ b) : emit t x b = emit t y b := by
  refine Prod.ext ?_ (by simp [emit_snd])
  rw [emit_fst, emit_fst]
  refine List.map_congr_left fun j hj => ?_
  have hle : t * (j + 1) ≤ b :=
    (Nat.mul_le_mul_left t (List.mem_range.mp hj)).trans (Nat.mul_div_le b t)
  have hstep : t * (j + 1) = t * j + t := Nat.mul_succ t j
  rw [mod_two_pow_eq_iff] at h ⊢
  intro i hi
  simp only [Nat.testBit_shiftRight]
  exact h _ (by omega)

/-- The residual reads only the `b` low bits: "FIN reads ACC[BITS−1:0] only" (R28). -/
theorem topResidual_congr {t x y b : Nat} (h : x % 2 ^ b = y % 2 ^ b) : topResidual t x b = topResidual t y b := by
  simp only [topResidual, and_mask]
  rw [mod_two_pow_eq_iff] at h ⊢
  intro i hi
  by_cases hlow : t - b ≤ i
  · simp [Nat.testBit_shiftLeft, h (i - (t - b)) (by omega)]
  · simp [Nat.testBit_shiftLeft, hlow]

variable {s t : State}

/-- States that agree on all that shows differ in ACC alone, and there above BITS. -/
theorem sameVisible_iff :
    s.SameVisible t ↔ ∃ a : BitVec 15, t = { s with acc := a } ∧
      s.acc.toNat % 2 ^ s.bits.toNat = a.toNat % 2 ^ s.bits.toNat := by
  constructor
  · rintro ⟨hrest, hacc⟩
    cases s
    cases t
    simp only [State.mk.injEq] at hrest
    obtain ⟨rfl, rfl, rfl, rfl, rfl, -, rfl, rfl, rfl, rfl, rfl, rfl⟩ := hrest
    exact ⟨_, rfl, hacc⟩
  · rintro ⟨a, rfl, hacc⟩
    exact ⟨rfl, hacc⟩

/-- Every state agrees with itself. -/
theorem sameVisible_refl (s : State) : s.SameVisible s := ⟨rfl, rfl⟩

/-- The same response keeps states in agreement (R56). -/
theorem answer_sameVisible (st : Status) (data : Data) (h : s.SameVisible t) :
    (answer st data s).SameVisible (answer st data t) := by
  obtain ⟨a, rfl, ha⟩ := sameVisible_iff.mp h
  exact ⟨rfl, ha⟩

/-- Discarding the slice keeps states in agreement (R95). -/
theorem dropSlice_sameVisible (h : s.SameVisible t) : (dropSlice s).SameVisible (dropSlice t) := by
  obtain ⟨a, rfl, ha⟩ := sameVisible_iff.mp h
  exact ⟨rfl, ha⟩

/-- An abort clears ACC, so nothing hidden is left (R94). -/
theorem enterError_sameVisible (st : Status) (h : s.SameVisible t) :
    (enterError st s).SameVisible (enterError st t) := by
  obtain ⟨a, rfl, -⟩ := sameVisible_iff.mp h
  exact sameVisible_refl _

/-- The return to reset clears ACC, so nothing hidden is left (R31). -/
theorem toReset_sameVisible (h : s.SameVisible t) : (toReset s).SameVisible (toReset t) := by
  obtain ⟨a, rfl, -⟩ := sameVisible_iff.mp h
  exact sameVisible_refl _

/-- A legal CFG clears ACC, so nothing hidden is left (R63). -/
theorem openConversion_sameVisible (f w : BitVec 4) (pad : Bool) (h : s.SameVisible t) :
    (openConversion f w pad s).SameVisible (openConversion f w pad t) := by
  obtain ⟨a, rfl, -⟩ := sameVisible_iff.mp h
  exact sameVisible_refl _

/-- A successful FIN clears ACC, so nothing hidden is left (R65). -/
theorem closeConversion_sameVisible (h : s.SameVisible t) : (closeConversion s).SameVisible (closeConversion t) := by
  obtain ⟨a, rfl, -⟩ := sameVisible_iff.mp h
  exact sameVisible_refl _

/-- The same symbol appended keeps states in agreement (R23). -/
theorem enqueue_sameVisible (v : Nat) (h : s.SameVisible t) : (enqueue v s).SameVisible (enqueue v t) := by
  obtain ⟨a, rfl, ha⟩ := sameVisible_iff.mp h
  exact ⟨rfl, ha⟩

/-- ACC after an accepted PUSH is the shifted accumulator, which is already taken modulo 2^15 (R21). -/
theorem acceptSymbol_acc_toNat (sym : BitVec 8) (s : State) : (acceptSymbol sym s).acc.toNat = pushAcc sym s := by
  rw [acceptSymbol_acc, BitVec.toNat_ofNat]
  exact Nat.mod_eq_of_lt (shiftIn_lt ..)

/-- An accepted PUSH emits the same symbols whatever the hidden bits, and leaves ACC's new BITS low bits the same (R28,
R64). -/
theorem acceptSymbol_sameVisible (sym : BitVec 8) (h : s.SameVisible t) :
    (acceptSymbol sym s).SameVisible (acceptSymbol sym t) := by
  obtain ⟨a, rfl, ha⟩ := sameVisible_iff.mp h
  have hacc : pushAcc sym s % 2 ^ pushCount s = pushAcc sym { s with acc := a } % 2 ^ pushCount s :=
    shiftIn_congr sym.toNat ha
  have hemission : pushEmission sym { s with acc := a } = pushEmission sym s := (emit_congr hacc).symm
  have hbits : (acceptSymbol sym s).bits.toNat ≤ pushCount s :=
    calc (acceptSymbol sym s).bits.toNat
      _ ≤ (pushEmission sym s).2 := toNat_ofNat_le 4 _
      _ = pushCount s % s.toBits.toNat := emit_snd ..
      _ ≤ pushCount s := Nat.mod_le ..
  refine sameVisible_iff.mpr ⟨(acceptSymbol sym { s with acc := a }).acc, ?_, ?_⟩
  · simp only [acceptSymbol, hemission]
  · rw [acceptSymbol_acc_toNat, acceptSymbol_acc_toNat]
    exact Nat.ModEq.of_dvd (Nat.pow_dvd_pow 2 hbits) hacc

/-- Two outcomes agree: both are next states, and these agree on all that shows. -/
def AgreeNext (o o' : Host.Outcome State Fault Refusal) : Prop :=
  ∃ s' t', o = .next s' ∧ o' = .next t' ∧ s'.SameVisible t'

/-- The same response from states in agreement (R56). -/
theorem respond_agree (st : Status) (data : Data) (h : s.SameVisible t) :
    AgreeNext (respond st data s) (respond st data t) :=
  ⟨_, _, rfl, rfl, answer_sameVisible st data h⟩

/-- Two commands that make the same decision agree where both its branches do. -/
theorem ite_agree {p : Prop} [Decidable p] {a b a' b' : Host.Outcome State Fault Refusal}
    (ht : p → AgreeNext a a') (hf : ¬p → AgreeNext b b') :
    AgreeNext (if p then a else b) (if p then a' else b') := by
  split
  · next hp => exact ht hp
  · next hp => exact hf hp

/-- CFG's checks read only its operands (R63). -/
theorem execCfg_agree (f w : BitVec 4) (pad : Bool) (h : s.SameVisible t) :
    AgreeNext (execCfg f w pad s) (execCfg f w pad t) :=
  ite_agree (fun _ => respond_agree _ _ (openConversion_sameVisible f w pad h)) fun _ => respond_agree _ _ h

/-- PUSH's checks read no bit of ACC, and its emission no hidden one (R28, R64). -/
theorem execPush_agree (sym : BitVec 8) (h : s.SameVisible t) : AgreeNext (execPush sym s) (execPush sym t) := by
  obtain ⟨a, rfl, -⟩ := sameVisible_iff.mp h
  refine ite_agree (fun _ => respond_agree _ _ h) fun _ => ?_
  refine ite_agree (fun _ => respond_agree _ _ (enterError_sameVisible _ h)) fun _ => ?_
  refine ite_agree (fun _ => respond_agree _ _ h) fun _ => ?_
  exact respond_agree _ _ (acceptSymbol_sameVisible sym h)

/-- FIN reads ACC only through the residual (R28, R65). -/
theorem execFin_agree (h : s.SameVisible t) : AgreeNext (execFin s) (execFin t) := by
  obtain ⟨a, rfl, ha⟩ := sameVisible_iff.mp h
  have hres : finResidual { s with acc := a } = finResidual s := (topResidual_congr ha).symm
  have hpadded : AgreeNext (finPadded s) (finPadded { s with acc := a }) := by
    unfold finPadded
    rw [hres]
    refine ite_agree (fun _ => ite_agree (fun _ => respond_agree _ _ h) fun _ => ?_) fun _ => ?_
    · exact respond_agree _ _ (closeConversion_sameVisible (enqueue_sameVisible _ h))
    · exact respond_agree _ _ (closeConversion_sameVisible h)
  have hunpadded : AgreeNext (finUnpadded s) (finUnpadded { s with acc := a }) := by
    unfold finUnpadded
    rw [hres]
    exact ite_agree (fun _ => respond_agree _ _ (enterError_sameVisible _ h)) fun _ =>
      respond_agree _ _ (closeConversion_sameVisible h)
  exact ite_agree (fun _ => respond_agree _ _ h) fun _ => ite_agree (fun _ => hpadded) fun _ => hunpadded

/-- POP on an empty queue is rejected (R66). -/
theorem execPop_nil (h : s.outq = []) : execPop s = respond .eEmpty 0 s := by
  simp [execPop, h, reject]

/-- POP on a queue with an oldest symbol takes it (R66). -/
theorem execPop_cons {v : OutSym} {rest : List OutSym} (h : s.outq = v :: rest) :
    execPop s = respond .ok (v.setWidth 64) { s with outq := rest } := by
  simp [execPop, h]

/-- POP reads only OUTQ (R66). -/
theorem execPop_agree (h : s.SameVisible t) : AgreeNext (execPop s) (execPop t) := by
  have htq : t.outq = s.outq := (congrArg State.outq h.1).symm
  cases hq : s.outq with
  | nil =>
    rw [execPop_nil hq, execPop_nil (htq.trans hq)]
    exact respond_agree _ _ h
  | cons v rest =>
    rw [execPop_cons hq, execPop_cons (htq.trans hq)]
    obtain ⟨a, rfl, ha⟩ := sameVisible_iff.mp h
    exact respond_agree _ _ ⟨rfl, ha⟩

/-- XPUSH reads only XSYM (R78, R80). -/
theorem execXpush_agree (sym : BitVec 8) (h : s.SameVisible t) : AgreeNext (execXpush sym s) (execXpush sym t) := by
  obtain ⟨a, rfl, ha⟩ := sameVisible_iff.mp h
  refine ite_agree (fun _ => respond_agree _ _ (dropSlice_sameVisible h)) fun _ => ?_
  exact ite_agree (fun _ => respond_agree _ _ h) fun _ => respond_agree _ _ ⟨rfl, ha⟩

/-- XRUN reads only XSYM (R79, R80). -/
theorem execXrun_agree (d : BitVec 7) (h : s.SameVisible t) : AgreeNext (execXrun d s) (execXrun d t) := by
  have hdrop := dropSlice_sameVisible h
  obtain ⟨a, rfl, -⟩ := sameVisible_iff.mp h
  refine ite_agree (fun _ => respond_agree _ _ hdrop) fun _ => ?_
  exact ite_agree (fun _ => respond_agree _ _ hdrop) fun _ => respond_agree _ _ hdrop

/-- "STAT does not show" ACC (R21, R85). -/
theorem execStat_agree (h : s.SameVisible t) : AgreeNext (execStat s) (execStat t) := by
  obtain ⟨a, rfl, -⟩ := sameVisible_iff.mp h
  exact respond_agree .ok (statWord s) h

/-- No command shows the hidden bits of ACC or makes them visible (R28). -/
theorem exec_agree (i : Instr) (h : s.SameVisible t) : AgreeNext (exec i s) (exec i t) := by
  cases i with
  | nop => exact respond_agree _ _ h
  | cfg f w pad => exact execCfg_agree f w pad h
  | push sym => exact execPush_agree sym h
  | fin => exact execFin_agree h
  | pop => exact execPop_agree h
  | xpush sym => exact execXpush_agree sym h
  | xrun d => exact execXrun_agree d h
  | stat => exact execStat_agree h
  | rst => exact respond_agree _ _ (toReset_sameVisible h)

/-- No event shows the hidden bits of ACC or makes them visible (R28, R87, R107). -/
theorem execEvent_agree (e : HostEvent) (h : s.SameVisible t) : AgreeNext (execEvent e s) (execEvent e t) := by
  cases e with
  | hardwareReset => exact ⟨_, _, rfl, rfl, toReset_sameVisible h⟩
  | command w =>
    change AgreeNext (execWord w s) (execWord w t)
    cases hw : decode w with
    | ok i =>
      rw [execWord_ok hw, execWord_ok hw]
      exact exec_agree i h
    | error r =>
      rw [execWord_illegal hw, execWord_illegal hw]
      exact respond_agree _ _ h

/-- No step shows the hidden bits of ACC or makes them visible (R28). -/
theorem step_agree (h : s.SameVisible t) : AgreeNext (step s) (step t) := by
  have htin : t.inputs = s.inputs := (congrArg State.inputs h.1).symm
  cases hin : s.inputs with
  | nil =>
    rw [step_of_no_input hin, step_of_no_input (htin.trans hin)]
    exact ⟨_, _, rfl, rfl, h⟩
  | cons e rest =>
    rw [step_of_input hin, step_of_input (htin.trans hin)]
    obtain ⟨a, rfl, ha⟩ := sameVisible_iff.mp h
    exact execEvent_agree e ⟨rfl, ha⟩

/-- Runs of the same length from states in agreement answer states in agreement (R28). -/
theorem run_agree (n : Nat) (h : s.SameVisible t) :
    AgreeNext (Host.Core.run Sys2Proof.core n s) (Host.Core.run Sys2Proof.core n t) := by
  induction n generalizing s t with
  | zero => exact ⟨s, t, run_zero, run_zero, h⟩
  | succ n ih =>
    obtain ⟨s', t', hs, ht, h'⟩ := step_agree h
    rw [run_succ_of_step n hs, run_succ_of_step n ht]
    exact ih h'

end Sys2Proof.Machine
end

section
/-! The statements of 10_state.md: O12, O15 and O44. -/

open Sys2Proof.Machine

/-- Settles O12, by the three ways to the reset values: the initial state, a hardware reset and RST. -/
theorem resetGivesEveryFieldTheSpecsValue : Obligations.ResetGivesEveryFieldTheSpecsValue := by
  rintro t (⟨d, rfl⟩ | ⟨s, h⟩ | ⟨s, h⟩)
  · simp
  · simp [hardwareReset_next.mp h]
  · simp [execRst_next.mp h]

/-- Settles O15: the reset state has the invariants and every step keeps them. -/
theorem reachableStatesAreWellFormed : Obligations.ReachableStatesAreWellFormed := by
  intro d n events t hd hrun
  have hstart : State.Wf { State.resetWith d with inputs := events } := resetWith_wf hd
  exact run_keeps step_wf hstart hrun

/-- Settles O44, by `run_agree`: every step keeps agreement on all that shows. It does so from every state, so
well-formedness is not needed: a PUSH truncates both accumulators to the same 15 bits. -/
theorem hiddenAccumulatorBitsNeverShow : Obligations.HiddenAccumulatorBitsNeverShow := by
  intro s t n _ hst
  exact run_agree n hst

end

/-! ## Proofs about the values in DATA (20_memory.md R36) -/

section
/-! SUPPORT. The bounds of R36: every symbol `convert` gives is below 2^T, so the bytes of an extraction are bytes and its
integer is below 2^D; and the fields of the status word end at bit 35. -/

namespace Sys2Proof.Machine

/-- Every symbol R61's loop emits is below 2^T. -/
theorem feedAll_mem_lt (f t : Nat) (syms : List Nat) : ∀ x ∈ (feedAll f t syms).out, x < 2 ^ t := by
  induction syms using List.reverseRecOn with
  | nil => simp
  | append_singleton syms sym ih =>
    intro x hx
    rw [feedAll_append_one] at hx
    rcases List.mem_append.mp hx with hold | hnew
    · exact ih x hold
    · exact emit_mem_lt _ _ _ _ hnew

/-- All that exhaustion can add to what the loop emitted: nothing, or the padded residual (R61). -/
theorem finish_cases {f t : Nat} {pad : Bool} {c : ConvState} {out : List Nat} (h : finish f t pad c = some out) :
    out = c.out ∨ out = c.out ++ [topResidual t c.acc c.bits] := by
  unfold finish at h
  split at h
  · split at h
    · exact .inr (Option.some.inj h).symm
    · exact .inl (Option.some.inj h).symm
  · split at h
    · cases h
    · exact .inl (Option.some.inj h).symm

/-- Every symbol of a successful conversion is below 2^T (R61). -/
theorem convert_mem_lt {f t : Nat} {pad : Bool} {syms out : List Nat} (h : convert f t pad syms = some out) :
    ∀ x ∈ out, x < 2 ^ t := by
  have hloop := feedAll_mem_lt f t syms
  rcases finish_cases h with rfl | rfl
  · exact hloop
  · exact List.forall_mem_append.mpr ⟨hloop, List.forall_mem_singleton.mpr (topResidual_lt ..)⟩

/-- The bytes of an extraction are bytes (R75). -/
theorem extractBytes_mem_lt (d : Nat) (syms : List Nat) : ∀ b ∈ extractBytes d syms, b < 2 ^ 8 := by
  obtain ⟨out, hout⟩ := convert_padded Config.xsymWidth 8 (syms.take (ceilDiv d Config.xsymWidth))
  rw [extractBytes, hout]
  exact convert_mem_lt hout

/-- A big-endian value of n bytes is below 2^(8·n) (R35). -/
theorem bigEndian_lt {bytes : List Nat} (h : ∀ b ∈ bytes, b < 2 ^ 8) : bigEndian bytes < 2 ^ (8 * bytes.length) := by
  induction bytes using List.reverseRecOn with
  | nil => simp [bigEndian]
  | append_singleton bytes b ih =>
    obtain ⟨hbytes, hb⟩ := List.forall_mem_append.mp h
    have hhigh := ih hbytes
    have hlow : b < 2 ^ 8 := hb b (List.mem_singleton_self b)
    rw [bigEndian_append_one, List.length_append, List.length_singleton, Nat.mul_succ, Nat.pow_add]
    omega

/-- An extracted integer is below 2^D: what is shifted out of its bytes is all but D bits (R36, R75). -/
theorem extract_lt (d : Nat) (syms : List Nat) : extract d syms < 2 ^ d := by
  rw [extract, Nat.shiftRight_eq_div_pow]
  apply Nat.div_lt_of_lt_mul
  rw [← Nat.pow_add]
  calc bigEndian (extractBytes d syms)
    _ < 2 ^ (8 * (extractBytes d syms).length) := bigEndian_lt (extractBytes_mem_lt d syms)
    _ ≤ 2 ^ (8 * (extractBytes d syms).length - d + d) := Nat.pow_le_pow_right (by decide) le_tsub_add

/-- A field of `w` bits placed at bit `k` ends below bit `k + w`. -/
theorem shiftLeft_lt_of_add_le {x w k n : Nat} (hx : x < 2 ^ w) (hn : w + k ≤ n) : x <<< k < 2 ^ n :=
  (Nat.shiftLeft_lt hx).trans_le (Nat.pow_le_pow_right (by decide) hn)

variable {s t : State} {data : Data}

/-- The status word's eight fields lie within its low 36 bits: OUTQ has at most 255 entries and XSYM at most 13 (R30, R36,
R85). -/
theorem statNumber_lt (h : s.Wf) : statNumber s < 2 ^ 36 := by
  obtain ⟨⟨-, hdepth⟩, -, -, -, -, -, -, ⟨hlen, -⟩, hx, -⟩ := h
  have houtq : s.outq.length < 2 ^ 8 := (hlen.trans hdepth).trans_lt (by decide)
  have hxsym : s.xsym.length < 2 ^ 4 := Nat.lt_of_le_of_lt hx (by decide)
  unfold statNumber
  refine Nat.or_lt_two_pow (Nat.or_lt_two_pow (Nat.or_lt_two_pow (Nat.or_lt_two_pow (Nat.or_lt_two_pow
    (Nat.or_lt_two_pow (Nat.or_lt_two_pow ?mode ?err) ?input) ?output) ?pad) ?bits) ?outq) ?xsym
  case mode => exact s.mode.code.isLt.trans (by decide)
  case err => exact shiftLeft_lt_of_add_le s.err.isLt (by decide)
  case input => exact shiftLeft_lt_of_add_le s.fromBits.isLt (by decide)
  case output => exact shiftLeft_lt_of_add_le s.toBits.isLt (by decide)
  case pad => exact shiftLeft_lt_of_add_le (w := 1) s.pad.toNat_lt (by decide)
  case bits => exact shiftLeft_lt_of_add_le s.bits.isLt (by decide)
  case outq => exact shiftLeft_lt_of_add_le houtq (by decide)
  case xsym => exact shiftLeft_lt_of_add_le hxsym (by decide)

/-- The DATA of the response just given is the latest DATA (R56). -/
theorem lastData_answer_iff {st : Status} {d : Data} : lastData (answer st d s) = some data ↔ data = d := by
  simp [eq_comm]

/-- The DATA of POP is below 2^TO: 0 on an empty queue, else an entry of OUTQ (R36, R66). -/
theorem execPop_data_lt (hs : s.Wf) (h : execPop s = .next t) (hdata : lastData t = some data) :
    data.toNat < 2 ^ s.toBits.toNat := by
  obtain ⟨-, -, -, -, -, -, -, ⟨-, hentries⟩, -, -⟩ := hs
  rcases execPop_cases h with ⟨-, rfl⟩ | ⟨v, rest, hq, rfl⟩ <;> obtain rfl := lastData_answer_iff.mp hdata
  · exact Nat.two_pow_pos _
  · have hv : v ∈ s.outq := hq ▸ List.mem_cons_self
    calc (v.setWidth 64).toNat
      _ = v.toNat := BitVec.toNat_setWidth_of_le (by decide)
      _ < 2 ^ s.toBits.toNat := hentries v hv

/-- The DATA of XRUN is below 2^D: 0 on an error, else the extracted integer (R36, R79). -/
theorem execXrun_data_lt {d : BitVec 7} (h : execXrun d s = .next t) (hdata : lastData t = some data) :
    data.toNat < 2 ^ d.toNat := by
  rcases execXrun_cases h with ⟨-, rfl⟩ | ⟨-, -, rfl⟩ | ⟨-, -, rfl⟩ <;> obtain rfl := lastData_answer_iff.mp hdata
  · exact Nat.two_pow_pos _
  · exact Nat.two_pow_pos _
  · exact (toNat_ofNat_le 64 _).trans_lt (extract_lt ..)

/-- The DATA of STAT is below 2^36: it is the status word (R36, R85). -/
theorem execStat_data_lt (hs : s.Wf) (h : execStat s = .next t) (hdata : lastData t = some data) :
    data.toNat < 2 ^ 36 := by
  obtain rfl := execStat_next.mp h
  obtain rfl := lastData_answer_iff.mp hdata
  exact (toNat_ofNat_le 64 _).trans_lt (statNumber_lt hs)

end Sys2Proof.Machine
end

section
/-! The statement of 20_memory.md: O36. -/

open Sys2Proof.Machine

/-- Settles O36, by what each of the three commands can answer: a queue entry, an extracted integer and the status word are
below their bounds, and an error's DATA is 0. -/
theorem dataIsZeroExtended : Obligations.DataIsZeroExtended := by
  intro s t data hs hdata
  exact ⟨fun h => execPop_data_lt hs h hdata, fun _ h => execXrun_data_lt h hdata,
    fun h => execStat_data_lt hs h hdata⟩

end

/-! ## Proofs about the encoding: the decoder, the opcode map and the responses (30_encoding.md) -/

section
/-! SUPPORT. The decoder and the opcode map, said once. A row of R52 is an opcode and one run of must-be-zero bits; a word
decodes to a command of a row exactly when it has both, and the command's operands are then the word's fields. -/

namespace Sys2Proof

/-- The OP of a command's row (R52). -/
def opcodeOf : Instr → BitVec 4
  | .nop => 0
  | .cfg .. => 1
  | .push _ => 2
  | .fin => 3
  | .pop => 4
  | .xpush _ => 5
  | .xrun _ => 6
  | .stat => 7
  | .rst => 8

/-- Where a command's format has its must-be-zero bits (R47 to R50): the lowest of them, and how many they are. -/
def zeroRunOf : Instr → Nat × Nat
  | .cfg .. => (1, 3)
  | .push _ | .xpush _ => (8, 4)
  | .xrun _ => (7, 5)
  | .nop | .fin | .pop | .stat | .rst => (0, 12)

/-- The word has the opcode of the command's row and 0 in its format's must-be-zero bits (R46, R54). -/
def HasFormatOf (w : CmdWord) (i : Instr) : Prop :=
  opOf w = opcodeOf i ∧ w.extractLsb' (zeroRunOf i).1 (zeroRunOf i).2 = 0

/-- The command of the same row whose operands are the word's fields (R51). -/
def withFieldsOf (w : CmdWord) : Instr → Instr
  | .cfg .. => .cfg (fieldF w) (fieldT w) (fieldP w)
  | .push _ => .push (fieldSym w)
  | .xpush _ => .xpush (fieldSym w)
  | .xrun _ => .xrun (fieldD w)
  | i => i

/-- The operands do not move a command to another row. -/
@[simp] theorem rowOf_withFieldsOf (w : CmdWord) (i : Instr) : rowOf (withFieldsOf w i) = rowOf i := by
  cases i <;> rfl

/-- A word in a command's format decodes to that command with the word's operands (R58). -/
theorem decode_of_hasFormatOf {w : CmdWord} {i : Instr} (h : HasFormatOf w i) : decode w = .ok (withFieldsOf w i) := by
  obtain ⟨hop, hzero⟩ := h
  cases i <;>
    simp_all [decode, legalIf, opcodeOf, zeroRunOf, withFieldsOf, zeroZ, zeroC, zeroS, zeroD]

/-- All that a word can decode to: it has the command's format, and the command's operands are its fields (R51, R58). -/
theorem decode_eq_ok_iff {w : CmdWord} {i : Instr} : decode w = .ok i ↔ HasFormatOf w i ∧ i = withFieldsOf w i := by
  constructor
  · intro h
    rcases decode_cases h with ⟨hop, hz, rfl⟩ | ⟨hop, hz, rfl⟩ | ⟨hop, hz, rfl⟩ | ⟨hop, hz, rfl⟩ | ⟨hop, hz, rfl⟩ |
      ⟨hop, hz, rfl⟩ | ⟨hop, hz, rfl⟩ | ⟨hop, hz, rfl⟩ | ⟨hop, hz, rfl⟩ <;>
      exact ⟨⟨BitVec.eq_of_toNat_eq hop, by simpa [zeroZ, zeroC, zeroS, zeroD, zeroRunOf] using hz⟩, rfl⟩
  · rintro ⟨h, hi⟩
    exact hi ▸ decode_of_hasFormatOf h

/-- A word that decodes to no command is refused by name (R53, R54). -/
theorem decode_error_of_ne_ok {w : CmdWord} (h : ∀ i, decode w ≠ .ok i) : ∃ r, decode w = .error r := by
  cases hw : decode w with
  | ok i => exact absurd hw (h i)
  | error r => exact ⟨r, rfl⟩

/-- Two concatenations are equal exactly when their parts are. -/
theorem bitVec_append_eq_append_iff {m n : Nat} {x x' : BitVec m} {y y' : BitVec n} :
    x ++ y = x' ++ y' ↔ x = x' ∧ y = y' := by
  constructor
  · intro h
    have hleft := congrArg (BitVec.extractLsb' n m) h
    have hright := congrArg (BitVec.extractLsb' 0 n) h
    rw [BitVec.extractLsb'_append_eq_left, BitVec.extractLsb'_append_eq_left] at hleft
    rw [BitVec.extractLsb'_append_eq_right, BitVec.extractLsb'_append_eq_right] at hright
    exact ⟨hleft, hright⟩
  · rintro ⟨rfl, rfl⟩
    rfl

/-- Under a run of ones inside the low n bits a word is 0 exactly where its own bits in the run are. -/
theorem low_and_run_eq_zero_iff {v n : Nat} (x : BitVec v) {start len : Nat} (h : start + len ≤ n) :
    x.extractLsb' 0 n &&& (BitVec.allOnes len).setWidth n <<< start = 0 ↔ x.extractLsb' start len = 0 := by
  simp only [BitVec.eq_of_getLsbD_eq_iff]
  constructor
  · intro hbits i hi
    have hbit := hbits (start + i) (by omega)
    simpa [hi, show start + i < n by omega, show i < n by omega] using hbit
  · intro hrun i hi
    by_cases hin : start ≤ i ∧ i - start < len
    · have hbit := hrun (i - start) hin.2
      have hpos : start + (i - start) = i := by omega
      rw [BitVec.getLsbD_extractLsb', hpos] at hbit
      simp_all
    · have hout : i < start ∨ ¬i - start < len := by omega
      rcases hout with hlow | hhigh
      · simp [hlow]
      · simp [hhigh]

/-- A word under a mask of its high part and of a run in its low part: the high part is the match's, the run is 0. -/
theorem and_mask_eq_match_iff {m n : Nat} (x : BitVec (m + n)) (op : BitVec m) {start len : Nat} (h : start + len ≤ n) :
    x &&& (BitVec.allOnes m ++ (BitVec.allOnes len).setWidth n <<< start) = op ++ 0#n ↔
      x.extractLsb' n m = op ∧ x.extractLsb' start len = 0 := by
  have hsplit : x = x.extractLsb' n m ++ x.extractLsb' 0 n := BitVec.extractLsb'_append_extractLsb'.symm
  conv_lhs => rw [hsplit, BitVec.and_append, BitVec.and_allOnes, bitVec_append_eq_append_iff]
  exact and_congr_right fun _ => low_and_run_eq_zero_iff x h

/-- The mask column of R52: OP and the format's must-be-zero bits. -/
theorem maskBits_rowOf (i : Instr) : (rowOf i).maskBits =
    BitVec.allOnes 4 ++ (BitVec.allOnes (zeroRunOf i).2).setWidth 12 <<< (zeroRunOf i).1 := by
  cases i <;> simp [rowOf, zeroRunOf]

/-- The match column of R52: the row's OP above zeros. -/
theorem matchBits_rowOf (i : Instr) : (rowOf i).matchBits = opcodeOf i ++ 0#12 := by
  cases i <;> simp [rowOf, opcodeOf]

/-- R52's test of match and mask is R46's and R54's test of OP and the must-be-zero bits. -/
theorem and_maskBits_eq_matchBits_iff (w : CmdWord) (i : Instr) :
    w &&& (rowOf i).maskBits = (rowOf i).matchBits ↔ HasFormatOf w i := by
  have hrun : (zeroRunOf i).1 + (zeroRunOf i).2 ≤ 12 := by cases i <;> simp [zeroRunOf]
  rw [maskBits_rowOf, matchBits_rowOf]
  exact and_mask_eq_match_iff (m := 4) w (opcodeOf i) hrun

/-- The rows of the opcode map are the rows of the commands (R52). -/
theorem mem_opcodeMap_iff {r : OpRow} : r ∈ opcodeMap ↔ ∃ i, rowOf i = r := by
  constructor
  · intro h
    simp only [opcodeMap, List.mem_cons, List.not_mem_nil, or_false] at h
    rcases h with h | h | h | h | h | h | h | h | h <;> exact ⟨_, h.symm⟩
  · rintro ⟨i, rfl⟩
    cases i <;> simp [opcodeMap, rowOf]

/-- "A word w is command X exactly when `(w & mask_X) = match_X`" (R52). -/
theorem matches_row_iff_decode {w : CmdWord} {r : OpRow} (hr : r ∈ opcodeMap) :
    w &&& r.maskBits = r.matchBits ↔ ∃ i, decode w = .ok i ∧ rowOf i = r := by
  obtain ⟨i, rfl⟩ := mem_opcodeMap_iff.mp hr
  rw [and_maskBits_eq_matchBits_iff]
  constructor
  · intro h
    exact ⟨_, decode_of_hasFormatOf h, rowOf_withFieldsOf w i⟩
  · rintro ⟨j, hj, hrow⟩
    rw [← and_maskBits_eq_matchBits_iff, ← hrow, and_maskBits_eq_matchBits_iff]
    exact (decode_eq_ok_iff.mp hj).1

/-- "At most one row matches any word" (R52): the row is that of the command it decodes to. -/
theorem row_unique {w : CmdWord} {r r' : OpRow} (hr : r ∈ opcodeMap) (hr' : r' ∈ opcodeMap)
    (h : w &&& r.maskBits = r.matchBits) (h' : w &&& r'.maskBits = r'.matchBits) : r = r' := by
  obtain ⟨i, hi, rfl⟩ := (matches_row_iff_decode hr).mp h
  obtain ⟨j, hj, rfl⟩ := (matches_row_iff_decode hr').mp h'
  obtain rfl : i = j := Except.ok.inj (hi.symm.trans hj)
  rfl

/-- A word decodes to no command exactly when it matches no row (R54). -/
theorem ne_ok_iff_matches_no_row {w : CmdWord} :
    (∀ i, decode w ≠ .ok i) ↔ ∀ r ∈ opcodeMap, w &&& r.maskBits ≠ r.matchBits := by
  constructor
  · intro h r hr hmatch
    obtain ⟨i, hi, -⟩ := (matches_row_iff_decode hr).mp hmatch
    exact h i hi
  · intro h i hi
    have hmem : rowOf i ∈ opcodeMap := mem_opcodeMap_iff.mpr ⟨i, rfl⟩
    exact h _ hmem ((matches_row_iff_decode hmem).mpr ⟨i, hi, rfl⟩)

/-- A word decodes to no command exactly when it has no command's format (R46, R54). -/
theorem ne_ok_iff_no_format {w : CmdWord} : (∀ i, decode w ≠ .ok i) ↔ ∀ i, ¬HasFormatOf w i :=
  ⟨fun h _ hi => h _ (decode_of_hasFormatOf hi), fun h i hi => h i (decode_eq_ok_iff.mp hi).1⟩

/-! ### The same as numbers -/

/-- A concatenation's value: the left part stands above the right one. -/
theorem toNat_append_eq_add {m n : Nat} (x : BitVec m) (y : BitVec n) : (x ++ y).toNat = x.toNat * 2 ^ n + y.toNat := by
  rw [BitVec.toNat_append, ← Nat.shiftLeft_add_eq_or_of_lt y.isLt, Nat.shiftLeft_eq]

/-- A field's value: shifted down and cut to its width, unsigned (R51). -/
theorem toNat_field {v : Nat} (x : BitVec v) (start len : Nat) :
    (x.extractLsb' start len).toNat = x.toNat / 2 ^ start % 2 ^ len := by
  rw [BitVec.extractLsb'_toNat, Nat.shiftRight_eq_div_pow]

/-- OP is what stands above the low 12 bits (R46). -/
theorem toNat_opOf (w : CmdWord) : (opOf w).toNat = w.toNat / 2 ^ 12 := by
  rw [opOf, toNat_field]
  have := w.isLt
  omega

/-- P is the lowest bit (R51). -/
theorem toNat_fieldP (w : CmdWord) : (fieldP w).toNat = w.toNat % 2 := by
  rcases Nat.mod_two_eq_zero_or_one w.toNat with h | h <;> simp [fieldP, BitVec.getLsbD, h]

/-- A word's format as numbers: its OP, and the value of its must-be-zero bits (R46, R54). -/
theorem hasFormatOf_iff (w : CmdWord) (i : Instr) : HasFormatOf w i ↔
    w.toNat / 2 ^ 12 = (opcodeOf i).toNat ∧ w.toNat / 2 ^ (zeroRunOf i).1 % 2 ^ (zeroRunOf i).2 = 0 := by
  rw [HasFormatOf, ← BitVec.toNat_inj, ← BitVec.toNat_inj, toNat_opOf, toNat_field]
  rfl

/-- CFG's word as a number (R52). -/
theorem toNat_encode_cfg (f t : BitVec 4) (pad : Bool) :
    (encode (.cfg f t pad)).toNat = 0x1000 + 0x100 * f.toNat + 0x10 * t.toNat + pad.toNat := by
  calc (encode (.cfg f t pad)).toNat
    _ = (0x1#4 ++ f ++ t ++ 0#3).toNat * 2 + (BitVec.ofBool pad).toNat := toNat_append_eq_add _ _
    _ = 0x1000 + 0x100 * f.toNat + 0x10 * t.toNat + pad.toNat := by
      simp only [toNat_append_eq_add, BitVec.toNat_ofBool, BitVec.toNat_ofNat]
      omega

/-- PUSH's word as a number (R52). -/
theorem toNat_encode_push (sym : BitVec 8) : (encode (.push sym)).toNat = 0x2000 + sym.toNat :=
  toNat_append_eq_add (0x2#4 ++ 0#4) sym

/-- XPUSH's word as a number (R52). -/
theorem toNat_encode_xpush (sym : BitVec 8) : (encode (.xpush sym)).toNat = 0x5000 + sym.toNat :=
  toNat_append_eq_add (0x5#4 ++ 0#4) sym

/-- XRUN's word as a number (R52). -/
theorem toNat_encode_xrun (d : BitVec 7) : (encode (.xrun d)).toNat = 0x6000 + d.toNat :=
  toNat_append_eq_add (0x6#4 ++ 0#5) d

/-- The words R53 and R54 call illegal: OP is 0x9 to 0xF, or a bit that the format of OP marks "must be zero" is 1. -/
def BreaksFormat (w : CmdWord) : Prop :=
  9 ≤ w.toNat / 2 ^ 12 ∨
  ((w.toNat / 2 ^ 12 = 0 ∨ w.toNat / 2 ^ 12 = 3 ∨ w.toNat / 2 ^ 12 = 4 ∨ w.toNat / 2 ^ 12 = 7 ∨ w.toNat / 2 ^ 12 = 8) ∧
    w.toNat % 2 ^ 12 ≠ 0) ∨
  (w.toNat / 2 ^ 12 = 1 ∧ w.toNat / 2 % 2 ^ 3 ≠ 0) ∨
  ((w.toNat / 2 ^ 12 = 2 ∨ w.toNat / 2 ^ 12 = 5) ∧ w.toNat / 2 ^ 8 % 2 ^ 4 ≠ 0) ∨
  (w.toNat / 2 ^ 12 = 6 ∧ w.toNat / 2 ^ 7 % 2 ^ 5 ≠ 0)

/-- Every OP below 0x9 is a command's (R52). -/
theorem exists_opcodeOf_eq {op : Nat} (h : op < 9) : ∃ i, op = (opcodeOf i).toNat := by
  interval_cases op
  · exact ⟨.nop, rfl⟩
  · exact ⟨.cfg 0 0 false, rfl⟩
  · exact ⟨.push 0, rfl⟩
  · exact ⟨.fin, rfl⟩
  · exact ⟨.pop, rfl⟩
  · exact ⟨.xpush 0, rfl⟩
  · exact ⟨.xrun 0, rfl⟩
  · exact ⟨.stat, rfl⟩
  · exact ⟨.rst, rfl⟩

/-- Under a command's OP a word is illegal exactly where that command's must-be-zero bits are not 0 (R54). -/
theorem breaksFormat_iff_of_opcode {w : CmdWord} {i : Instr} (hop : w.toNat / 2 ^ 12 = (opcodeOf i).toNat) :
    BreaksFormat w ↔ w.toNat / 2 ^ (zeroRunOf i).1 % 2 ^ (zeroRunOf i).2 ≠ 0 := by
  unfold BreaksFormat
  rw [hop]
  cases i <;> simp [opcodeOf, zeroRunOf]

/-- R53 and R54 between them leave exactly the words that have a command's format. -/
theorem breaksFormat_iff_no_format {w : CmdWord} : BreaksFormat w ↔ ∀ i, ¬HasFormatOf w i := by
  simp only [hasFormatOf_iff]
  by_cases hop : w.toNat / 2 ^ 12 < 9
  · obtain ⟨i, hi⟩ := exists_opcodeOf_eq hop
    constructor
    · rintro hbreaks j ⟨hj, hzero⟩
      exact (breaksFormat_iff_of_opcode hj).mp hbreaks hzero
    · intro h
      exact (breaksFormat_iff_of_opcode hi).mpr fun hzero => h i ⟨hi, hzero⟩
  · have hno : ∀ i, w.toNat / 2 ^ 12 ≠ (opcodeOf i).toNat := by
      intro i hi
      cases i <;> simp [opcodeOf] at hi <;> omega
    exact iff_of_true (.inl (not_lt.mp hop)) fun i h => hno i h.1

end Sys2Proof
end

section
/-! SUPPORT. The one response of every command word (30_encoding.md R56). -/

namespace Sys2Proof.Machine

variable {s t u : State} {st : Status} {data : Data} {carries : Prop}

/-- The host's side and the parameter are as before (R9; logs 1, 2 and 4). -/
def SameHostSide (s u : State) : Prop := u.responses = s.responses ∧ u.inputs = s.inputs ∧ u.outqDepth = s.outqDepth

/-- From `s` to `t` exactly one response was given, with DATA 0 on every error and wherever the command does not carry
data (R56). -/
def GivesOneResponse (s t : State) (carries : Prop) : Prop :=
  ∃ r : Response, t.responses = s.responses ++ [r] ∧ t.inputs = s.inputs ∧ t.outqDepth = s.outqDepth ∧
    (r.status ≠ .ok → r.data = 0) ∧ (r.data ≠ 0 → carries)

/-- The commands whose response carries DATA (R56). -/
def CarriesData (i : Instr) : Prop := i = .pop ∨ (∃ d, i = .xrun d) ∨ i = .stat

/-- An answer with DATA 0 is one response of any command. -/
theorem answer_zero_givesOneResponse (h : SameHostSide s u) : GivesOneResponse s (answer st 0 u) carries := by
  obtain ⟨hresponses, hinputs, hdepth⟩ := h
  exact ⟨⟨st, 0⟩, by rw [answer_responses, hresponses], hinputs, hdepth, fun _ => rfl, fun h => absurd rfl h⟩

/-- An answer OK is one response of a command that carries data. -/
theorem answer_ok_givesOneResponse (hc : carries) (h : SameHostSide s u) :
    GivesOneResponse s (answer .ok data u) carries := by
  obtain ⟨hresponses, hinputs, hdepth⟩ := h
  exact ⟨⟨.ok, data⟩, by rw [answer_responses, hresponses], hinputs, hdepth, fun h => absurd rfl h, fun _ => hc⟩

/-- Every command gives exactly one response, and only POP, XRUN and STAT carry data (R56). -/
theorem exec_givesOneResponse {i : Instr} (h : exec i s = .next t) : GivesOneResponse s t (CarriesData i) := by
  have same : SameHostSide s s := ⟨rfl, rfl, rfl⟩
  cases i with
  | nop =>
    obtain rfl := execNop_next.mp h
    exact answer_zero_givesOneResponse same
  | cfg f w pad =>
    rcases execCfg_cases h with ⟨-, rfl⟩ | ⟨-, rfl⟩ <;> exact answer_zero_givesOneResponse ⟨rfl, rfl, rfl⟩
  | push sym =>
    rcases execPush_cases h with ⟨-, rfl⟩ | ⟨-, -, rfl⟩ | ⟨-, -, -, rfl⟩ | ⟨-, -, -, rfl⟩ <;>
      exact answer_zero_givesOneResponse ⟨rfl, rfl, rfl⟩
  | fin =>
    rcases execFin_cases h with ⟨-, rfl⟩ | ⟨-, -, -, -, rfl⟩ | ⟨-, -, -, -, rfl⟩ | ⟨-, -, -, rfl⟩ | ⟨-, -, -, rfl⟩ |
      ⟨-, -, -, -, rfl⟩ <;> exact answer_zero_givesOneResponse ⟨rfl, rfl, rfl⟩
  | pop =>
    rcases execPop_cases h with ⟨-, rfl⟩ | ⟨v, rest, -, rfl⟩
    · exact answer_zero_givesOneResponse same
    · exact answer_ok_givesOneResponse (.inl rfl) ⟨rfl, rfl, rfl⟩
  | xpush sym =>
    rcases execXpush_cases h with ⟨-, rfl⟩ | ⟨-, -, rfl⟩ | ⟨-, -, rfl⟩ <;>
      exact answer_zero_givesOneResponse ⟨rfl, rfl, rfl⟩
  | xrun d =>
    rcases execXrun_cases h with ⟨-, rfl⟩ | ⟨-, -, rfl⟩ | ⟨-, -, rfl⟩
    · exact answer_zero_givesOneResponse ⟨rfl, rfl, rfl⟩
    · exact answer_zero_givesOneResponse ⟨rfl, rfl, rfl⟩
    · exact answer_ok_givesOneResponse (.inr (.inl ⟨d, rfl⟩)) ⟨rfl, rfl, rfl⟩
  | stat =>
    obtain rfl := execStat_next.mp h
    exact answer_ok_givesOneResponse (.inr (.inr rfl)) same
  | rst =>
    obtain rfl := execRst_next.mp h
    exact answer_zero_givesOneResponse ⟨rfl, rfl, rfl⟩

/-- Every word is answered in every state: no command faults or is refused (R56, R98). -/
theorem execWord_answers (w : CmdWord) (s : State) : ∃ t, execWord w s = .next t := by
  obtain ⟨t, -, ht, -, -⟩ := execEvent_agree (.command w) (sameVisible_refl s)
  exact ⟨t, ht⟩

/-- Every word, legal or illegal, gives exactly one response (R56, R87). -/
theorem execWord_givesOneResponse {w : CmdWord} (h : execWord w s = .next t) :
    GivesOneResponse s t (∃ i, decode w = .ok i ∧ CarriesData i) := by
  cases hw : decode w with
  | ok i =>
    obtain ⟨r, hresponses, hinputs, hdepth, herror, hdata⟩ := exec_givesOneResponse (execWord_ok hw ▸ h)
    exact ⟨r, hresponses, hinputs, hdepth, herror, fun hr => ⟨i, rfl, hdata hr⟩⟩
  | error e =>
    obtain rfl := execIllegal_next.mp (execWord_illegal hw ▸ h)
    exact answer_zero_givesOneResponse ⟨rfl, rfl, rfl⟩

/-- A response carried as one word: STATUS stands above the 64 bits of DATA (R56). -/
theorem toNat_responseWord (r : Response) : r.word.toNat = r.status.code.toNat * 2 ^ 64 + r.data.toNat := by
  rw [Response.word]
  exact toNat_append_eq_add r.status.code r.data

/-- A step on a word that decodes to no command (R53, R54, R87). -/
theorem step_of_illegal_word {w : CmdWord} {rest : List HostEvent} (hw : ∀ i, decode w ≠ .ok i)
    (hin : s.inputs = .command w :: rest) : step s = .next (answer .eIllegal 0 { s with inputs := rest }) := by
  obtain ⟨e, he⟩ := decode_error_of_ne_ok hw
  calc step s
    _ = execWord w { s with inputs := rest } := step_of_input hin
    _ = execIllegal { s with inputs := rest } := execWord_illegal he

end Sys2Proof.Machine
end

section
/-! The statements of 30_encoding.md: O3, O4, O5 and O26. -/

open Sys2Proof Sys2Proof.Machine

/-- Settles O3: a word matches a row exactly when it has the opcode and the zero bits of the row's commands, and then it
decodes to one of them. -/
theorem opcodeMapDecidesEveryWord : Obligations.OpcodeMapDecidesEveryWord := by
  refine ⟨rfl, fun i => ?_, fun w r hr => matches_row_iff_decode hr, fun w r hr r' hr' => row_unique hr hr'⟩
  cases i with
  | cfg f t pad => exact toNat_encode_cfg f t pad
  | push sym => exact toNat_encode_push sym
  | xpush sym => exact toNat_encode_xpush sym
  | xrun d => exact toNat_encode_xrun d
  | nop | fin | pop | stat | rst => rfl

/-- Settles O4: the operands of a decoded command are the fields of its word (`decode_eq_ok_iff`). -/
theorem operandsAreReadUnsigned : Obligations.OperandsAreReadUnsigned := by
  intro w
  refine ⟨fun f t pad h => ?_, fun sym h => ?_, fun sym h => ?_, fun d h => ?_⟩
  · obtain ⟨rfl, rfl, rfl⟩ := Instr.cfg.inj (decode_eq_ok_iff.mp h).2
    exact ⟨toNat_field w 8 4, toNat_field w 4 4, toNat_fieldP w⟩
  · rw [Instr.push.inj (decode_eq_ok_iff.mp h).2, fieldSym, toNat_field, pow_zero, Nat.div_one]
  · rw [Instr.xpush.inj (decode_eq_ok_iff.mp h).2, fieldSym, toNat_field, pow_zero, Nat.div_one]
  · rw [Instr.xrun.inj (decode_eq_ok_iff.mp h).2, fieldD, toNat_field, pow_zero, Nat.div_one]

/-- Settles O5: a word that breaks its format has no command's format, so it decodes to nothing and matches no row. -/
theorem illegalWordsAreAnsweredAndChangeNothing : Obligations.IllegalWordsAreAnsweredAndChangeNothing := by
  intro w op illegal
  have hillegal : illegal ↔ ∀ i, decode w ≠ .ok i := breaksFormat_iff_no_format.trans ne_ok_iff_no_format.symm
  refine ⟨hillegal, ?_, ?_⟩
  · exact hillegal.trans ne_ok_iff_matches_no_row
  · intro s rest hw hin
    exact step_of_illegal_word (hillegal.mp hw) hin

/-- Settles O26: every word is answered, and each answer is one response on the same host side. -/
theorem everyWordGetsOneResponse : Obligations.EveryWordGetsOneResponse := by
  refine ⟨fun w s => ?_, toNat_responseWord⟩
  obtain ⟨t, ht⟩ := execWord_answers w s
  obtain ⟨r, hresponses, hinputs, hdepth, herror, hdata⟩ := execWord_givesOneResponse ht
  refine ⟨t, r, ht, hresponses, hinputs, hdepth, herror, fun hr => ?_⟩
  obtain ⟨i, hi, rfl | ⟨d, rfl⟩ | rfl⟩ := hdata hr
  · exact .inl hi
  · exact .inr (.inl ⟨d, hi⟩)
  · exact .inr (.inr hi)

end

/-! ## Proofs about the converter (40_converter.md) -/

section
/-! SUPPORT. An encoded command reads back (30_encoding.md R58), so a word written as a command's fields runs it. -/

namespace Sys2Proof

/-- An encoded command has its own format (R47 to R50). -/
theorem hasFormatOf_encode (i : Instr) : HasFormatOf (encode i) i := by
  cases i with
  | cfg f t pad =>
    have hpad := pad.toNat_lt
    rw [hasFormatOf_iff, toNat_encode_cfg]
    change _ / 2 ^ 12 = 1 ∧ _ / 2 ^ 1 % 2 ^ 3 = 0
    omega
  | push sym =>
    rw [hasFormatOf_iff, toNat_encode_push]
    change _ / 2 ^ 12 = 2 ∧ _ / 2 ^ 8 % 2 ^ 4 = 0
    omega
  | xpush sym =>
    rw [hasFormatOf_iff, toNat_encode_xpush]
    change _ / 2 ^ 12 = 5 ∧ _ / 2 ^ 8 % 2 ^ 4 = 0
    omega
  | xrun d =>
    rw [hasFormatOf_iff, toNat_encode_xrun]
    change _ / 2 ^ 12 = 6 ∧ _ / 2 ^ 7 % 2 ^ 5 = 0
    omega
  | nop | fin | pop | stat | rst => exact ⟨rfl, rfl⟩

/-- The fields of an encoded command are its operands (R51). -/
theorem withFieldsOf_encode (i : Instr) : withFieldsOf (encode i) i = i := by
  cases i with
  | cfg f t pad =>
    have hpad := pad.toNat_lt
    have hF : fieldF (encode (.cfg f t pad)) = f := BitVec.eq_of_toNat_eq (by
      rw [fieldF, toNat_field, toNat_encode_cfg]; omega)
    have hT : fieldT (encode (.cfg f t pad)) = t := BitVec.eq_of_toNat_eq (by
      rw [fieldT, toNat_field, toNat_encode_cfg]; omega)
    have hP : fieldP (encode (.cfg f t pad)) = pad :=
      (BitVec.getLsbD_append (x := 0x1#4 ++ f ++ t ++ 0#3)).trans (by simp)
    rw [withFieldsOf, hF, hT, hP]
  | push sym =>
    exact congrArg Instr.push (BitVec.eq_of_toNat_eq (by rw [fieldSym, toNat_field, toNat_encode_push]; omega))
  | xpush sym =>
    exact congrArg Instr.xpush (BitVec.eq_of_toNat_eq (by rw [fieldSym, toNat_field, toNat_encode_xpush]; omega))
  | xrun d =>
    exact congrArg Instr.xrun (BitVec.eq_of_toNat_eq (by rw [fieldD, toNat_field, toNat_encode_xrun]; omega))
  | nop | fin | pop | stat | rst => rfl

/-- The decoder reads back every encoded command (R58). -/
theorem decode_encode (i : Instr) : decode (encode i) = .ok i :=
  decode_eq_ok_iff.mpr ⟨hasFormatOf_encode i, (withFieldsOf_encode i).symm⟩

end Sys2Proof
end

section
/-! SUPPORT. The loop of R61 in closed form (40_converter.md R62). The idea: feeding symbols one by one emits what one emission
from the whole stream's number V emits, since an emission can be split where a symbol ends (`emit_split`). The accumulator
holds V's low bits only, which is all an emission reads (`emit_congr`). -/

namespace Sys2Proof.Machine

/-! ### The stream as a number -/

/-- No symbols have the value 0. -/
@[simp] theorem streamValue_nil (w : Nat) : streamValue w [] = 0 := rfl

/-- One more symbol goes below all earlier ones (R62). -/
theorem streamValue_append_one (w : Nat) (syms : List Nat) (x : Nat) :
    streamValue w (syms ++ [x]) = streamValue w syms * 2 ^ w + x := by
  simp [streamValue]

/-- A stream of n symbols of w bits has n·w bits. -/
theorem streamValue_lt {w : Nat} {syms : List Nat} (h : ∀ x ∈ syms, x < 2 ^ w) :
    streamValue w syms < 2 ^ (syms.length * w) := by
  induction syms using List.reverseRecOn with
  | nil => simp
  | append_singleton syms x ih =>
    rw [List.forall_mem_append, List.forall_mem_singleton] at h
    obtain ⟨hsyms, hx⟩ := h
    have hv : streamValue w syms + 1 ≤ 2 ^ (syms.length * w) := ih hsyms
    rw [streamValue_append_one, List.length_append, List.length_singleton, Nat.add_one_mul, Nat.pow_add]
    calc streamValue w syms * 2 ^ w + x
      _ < (streamValue w syms + 1) * 2 ^ w := by rw [Nat.add_one_mul]; omega
      _ ≤ 2 ^ (syms.length * w) * 2 ^ w := Nat.mul_le_mul_right _ hv

/-! ### The emission -/

variable {f t b x v : Nat}

/-- The symbols of an emission, as quotients (R62, R64). -/
theorem emit_fst_div (t acc b : Nat) :
    (emit t acc b).1 = (List.range (b / t)).map fun j => acc / 2 ^ (b - t * (j + 1)) % 2 ^ t := by
  simp [emit_fst, Nat.shiftRight_eq_div_pow]

/-- Fewer than T bits above a whole symbol: the emission is that one symbol. -/
theorem emit_one (acc : Nat) (h : b < t) : (emit t acc (b + t)).1 = [acc / 2 ^ b % 2 ^ t] := by
  have hone : (b + t) / t = 1 := by rw [Nat.add_div_right b (by omega), Nat.div_eq_of_lt h]
  simp [emit_fst_div, hone]

/-- An emission from a number with one more symbol below it: first what the number alone emits, then what its leftover bits
and the new symbol emit. -/
theorem emit_split (ht : 1 ≤ t) (hx : x < 2 ^ f) (v b : Nat) :
    (emit t (v * 2 ^ f + x) (b + f)).1 = (emit t v b).1 ++ (emit t (v * 2 ^ f + x) (b % t + f)).1 := by
  have hb : t * (b / t) + b % t = b := Nat.div_add_mod b t
  have hcount : (b + f) / t = b / t + (b % t + f) / t := by
    conv_lhs => rw [← hb, Nat.add_assoc, Nat.mul_add_div ht]
  have hhigh : (v * 2 ^ f + x) / 2 ^ f = v := by
    rw [Nat.mul_comm, Nat.mul_add_div (Nat.two_pow_pos f), Nat.div_eq_of_lt hx, Nat.add_zero]
  simp only [emit_fst_div, hcount, List.range_add, List.map_append, List.map_map]
  congr 1
  · refine List.map_congr_left fun j hj => ?_
    have hle : t * (j + 1) ≤ b := (Nat.mul_le_mul_left t (List.mem_range.mp hj)).trans (Nat.mul_div_le b t)
    have hshift : b + f - t * (j + 1) = f + (b - t * (j + 1)) := by omega
    rw [hshift, Nat.pow_add, ← Nat.div_div_eq_div_mul, hhigh]
  · refine List.map_congr_left fun j _ => ?_
    have hshift : b + f - t * (b / t + j + 1) = b % t + f - t * (j + 1) := by
      rw [Nat.add_assoc, Nat.mul_add]
      omega
    rw [Function.comp_apply, hshift]

/-- Emitting symbols as wide as those of the stream gives them back (R62, F = T). -/
theorem emit_streamValue {w : Nat} {syms : List Nat} (hw : 1 ≤ w) (h : ∀ x ∈ syms, x < 2 ^ w) :
    (emit w (streamValue w syms) (syms.length * w)).1 = syms := by
  induction syms using List.reverseRecOn with
  | nil => simp [emit_fst_div]
  | append_singleton syms x ih =>
    rw [List.forall_mem_append, List.forall_mem_singleton] at h
    obtain ⟨hsyms, hx⟩ := h
    rw [streamValue_append_one, List.length_append, List.length_singleton, Nat.add_one_mul, emit_split hw hx, ih hsyms,
      Nat.mul_mod_left, emit_one _ hw]
    simp [Nat.mod_eq_of_lt hx]

/-- The emitted symbols, read as a number again, are all but the leftover low bits (R62). -/
theorem streamValue_emit {r : Nat} (hr : r < t) (m : Nat) (hv : v < 2 ^ (m * t + r)) :
    streamValue t (emit t v (m * t + r)).1 = v / 2 ^ r := by
  induction m generalizing v with
  | zero =>
    rw [Nat.zero_mul, Nat.zero_add] at hv ⊢
    simp [emit_fst_div, Nat.div_eq_of_lt hr, Nat.div_eq_of_lt hv]
  | succ m ih =>
    have hlast : v / 2 ^ t * 2 ^ t + v % 2 ^ t = v := Nat.div_add_mod' v (2 ^ t)
    have hlen : (m + 1) * t + r = m * t + r + t := by rw [Nat.add_one_mul]; omega
    have hmod : (m * t + r) % t = r := by rw [Nat.mul_comm, Nat.mul_add_mod, Nat.mod_eq_of_lt hr]
    have hsplit := emit_split (t := t) (by omega) (Nat.mod_lt v (Nat.two_pow_pos t)) (v / 2 ^ t) (m * t + r)
    rw [hlast, hmod, emit_one v hr] at hsplit
    have hhigh : v / 2 ^ t < 2 ^ (m * t + r) := Nat.div_lt_of_lt_mul (by rwa [← Nat.pow_add, Nat.add_comm t, ← hlen])
    rw [hlen, hsplit, streamValue_append_one, ih hhigh, Nat.div_right_comm]
    exact Nat.div_add_mod' (v / 2 ^ r) (2 ^ t)

/-! ### The accumulator and the residual -/

/-- ACC's low bits after a symbol is shifted in, where they are the low bits of the stream and fit ACC (R21, R61). -/
theorem shiftIn_mod {acc : Nat} (hacc : acc % 2 ^ b = v % 2 ^ b) (hx : x < 2 ^ f) (hfit : b + f ≤ Config.accWidth) :
    shiftIn acc f x % 2 ^ (b + f) = (v * 2 ^ f + x) % 2 ^ (b + f) := by
  rw [shiftIn_congr x hacc, shiftIn, ← Nat.shiftLeft_add_eq_or_of_lt hx, Nat.shiftLeft_eq,
    Nat.mod_mod_of_dvd _ (Nat.pow_dvd_pow 2 hfit)]

/-- The residual at the top of a symbol: ACC's low bits above T − BITS zeros (R61, R65). -/
theorem topResidual_eq (acc : Nat) (h : b ≤ t) : topResidual t acc b = acc % 2 ^ b * 2 ^ (t - b) := by
  have hpow : 2 ^ t = 2 ^ b * 2 ^ (t - b) := by rw [← Nat.pow_add, Nat.add_sub_of_le h]
  rw [topResidual, and_mask, Nat.shiftLeft_eq, hpow, Nat.mul_mod_mul_right]

/-! ### The loop and the padding policy -/

/-- The precondition of `convert`: widths in 1..8 and symbols of F bits (R61). -/
structure Convertible (f t : Nat) (syms : List Nat) : Prop where
  from_pos : 1 ≤ f
  from_le : f ≤ 8
  to_pos : 1 ≤ t
  to_le : t ≤ 8
  fits : ∀ x ∈ syms, x < 2 ^ f

variable {syms out : List Nat}

/-- One round of the loop, told with any number that has the accumulator's valid low bits (R61). -/
theorem feed_eq {c : ConvState} {n : Nat} (h : shiftIn c.acc f x % 2 ^ (c.bits + f) = n % 2 ^ (c.bits + f)) :
    feed f t c x = ⟨shiftIn c.acc f x, (c.bits + f) % t, c.out ++ (emit t n (c.bits + f)).1⟩ := by
  rw [feed, emit_congr h, emit_snd]

/-- The stream as a number V of L = nF bits: what the loop has emitted is what one emission from V emits, BITS is what is left
over of L, and ACC's BITS low bits are V's (R62). -/
theorem feedAll_eq_emit (h : Convertible f t syms) :
    (feedAll f t syms).out = (emit t (streamValue f syms) (syms.length * f)).1 ∧
      (feedAll f t syms).bits = syms.length * f % t ∧
      (feedAll f t syms).acc % 2 ^ (syms.length * f % t) = streamValue f syms % 2 ^ (syms.length * f % t) := by
  obtain ⟨-, hf, ht, ht8, hfits⟩ := h
  induction syms using List.reverseRecOn with
  | nil => simp [emit_fst_div]
  | append_singleton syms x ih =>
    rw [List.forall_mem_append, List.forall_mem_singleton] at hfits
    obtain ⟨hsyms, hx⟩ := hfits
    obtain ⟨hout, hbits, hacc⟩ := ih hsyms
    have hlt : syms.length * f % t < t := Nat.mod_lt _ ht
    have hmod : (syms.length * f % t + f) % t = (syms.length * f + f) % t := Nat.mod_add_mod ..
    have hnew : shiftIn (feedAll f t syms).acc f x % 2 ^ (syms.length * f % t + f) =
        (streamValue f syms * 2 ^ f + x) % 2 ^ (syms.length * f % t + f) :=
      shiftIn_mod hacc hx (show _ + f ≤ 15 by omega)
    rw [streamValue_append_one, List.length_append, List.length_singleton, Nat.add_one_mul, feedAll_append_one,
      feed_eq (hbits ▸ hnew), hbits, hout, ← hmod]
    exact ⟨(emit_split ht hx _ _).symm, rfl, Nat.ModEq.of_dvd (Nat.pow_dvd_pow 2 (Nat.mod_le ..)) hnew⟩

/-- `convert` with padding, in closed form (R62). -/
theorem convert_true_eq (h : Convertible f t syms) :
    convert f t true syms = some ((emit t (streamValue f syms) (syms.length * f)).1 ++
      if syms.length * f % t = 0 then []
      else [streamValue f syms % 2 ^ (syms.length * f % t) * 2 ^ (t - syms.length * f % t)]) := by
  obtain ⟨hout, hbits, hacc⟩ := feedAll_eq_emit h
  have hle : syms.length * f % t ≤ t := (Nat.mod_lt _ h.to_pos).le
  rw [convert, finish, if_pos rfl, hout, hbits, topResidual_eq _ hle, hacc]
  by_cases hr : syms.length * f % t = 0
  · rw [if_neg (by omega), if_pos hr, List.append_nil]
  · rw [if_pos (by omega), if_neg hr]

/-- `convert` without padding, in closed form (R62). -/
theorem convert_false_eq (h : Convertible f t syms) :
    convert f t false syms =
      if syms.length * f % t < f ∧ streamValue f syms % 2 ^ (syms.length * f % t) = 0 then
        some (emit t (streamValue f syms) (syms.length * f)).1
      else none := by
  obtain ⟨hout, hbits, hacc⟩ := feedAll_eq_emit h
  have hle : syms.length * f % t ≤ t := (Nat.mod_lt _ h.to_pos).le
  have hzero : topResidual t (feedAll f t syms).acc (syms.length * f % t) = 0 ↔
      streamValue f syms % 2 ^ (syms.length * f % t) = 0 := by
    rw [topResidual_eq _ hle, hacc, Nat.mul_eq_zero, or_iff_left (Nat.two_pow_pos _).ne']
  rw [convert, finish, if_neg (by decide), hout, hbits, ← ite_not]
  refine if_congr ?_ rfl rfl
  rw [not_or, not_le, ne_eq, not_not, hzero]

/-- The zero bits that padding adds to a stream of `len` bits, up to a whole symbol (R62). -/
def padBits (t len : Nat) : Nat := (t - len % t) % t

/-- A padded stream of `len` bits ends at the next whole symbol: there is nothing to add, or what a residual lacks. -/
theorem padBits_cases (ht : 1 ≤ t) (len : Nat) :
    (len % t = 0 ∧ padBits t len = 0) ∨ (len % t ≠ 0 ∧ padBits t len = t - len % t) := by
  have hlt : len % t < t := Nat.mod_lt len ht
  by_cases hr : len % t = 0
  · exact .inl ⟨hr, by simp [padBits, hr]⟩
  · exact .inr ⟨hr, Nat.mod_eq_of_lt (by omega)⟩

/-- Padding adds less than a symbol. -/
theorem padBits_lt (ht : 1 ≤ t) (len : Nat) : padBits t len < t := Nat.mod_lt _ ht

/-- The padded output is the stream with `padBits` zero bits at its end: its length, and its value as a number (R34, R62). -/
theorem convert_true_stream (h : Convertible f t syms) (hout : convert f t true syms = some out) :
    out.length * t = syms.length * f + padBits t (syms.length * f) ∧
      streamValue t out = streamValue f syms * 2 ^ padBits t (syms.length * f) := by
  have hlen : syms.length * f / t * t + syms.length * f % t = syms.length * f := Nat.div_add_mod' ..
  have hv : streamValue f syms < 2 ^ (syms.length * f / t * t + syms.length * f % t) := by
    rw [hlen]
    exact streamValue_lt h.fits
  have hwhole := streamValue_emit (Nat.mod_lt _ h.to_pos) _ hv
  rw [hlen] at hwhole
  obtain rfl := Option.some.inj (hout.symm.trans (convert_true_eq h))
  rcases padBits_cases h.to_pos (syms.length * f) with ⟨hr, hp⟩ | ⟨hr, hp⟩
  · rw [hr] at hlen hwhole
    rw [if_pos hr, List.append_nil, emit_length, hwhole, hp, pow_zero, Nat.div_one, Nat.mul_one]
    exact ⟨hlen, rfl⟩
  · have hlt : syms.length * f % t < t := Nat.mod_lt _ h.to_pos
    have hpow : 2 ^ t = 2 ^ (syms.length * f % t) * 2 ^ (t - syms.length * f % t) := by
      rw [← Nat.pow_add, Nat.add_sub_of_le hlt.le]
    rw [if_neg hr, streamValue_append_one, hwhole, hp, List.length_append, emit_length, List.length_singleton,
      Nat.add_one_mul]
    refine ⟨by omega, ?_⟩
    rw [hpow, ← Nat.mul_assoc, ← Nat.add_mul, Nat.div_add_mod']

/-! ### There and back (R71) -/

/-- Zero bits below a stream emit zero symbols after it. -/
theorem emit_zero_bits (hf : 1 ≤ f) (hsyms : ∀ x ∈ syms, x < 2 ^ f) (p : Nat) :
    (emit f (streamValue f syms * 2 ^ p) (syms.length * f + p)).1 = syms ++ List.replicate (p / f) 0 := by
  have hsplit := emit_split hf (Nat.two_pow_pos p) (streamValue f syms) (syms.length * f)
  have hlow : streamValue f syms * 2 ^ p % 2 ^ p = 0 % 2 ^ p := by simp
  have hzeros : (emit f 0 p).1 = List.replicate (p / f) 0 := by simp [emit_fst_div]
  simpa only [Nat.add_zero, Nat.zero_add, Nat.mul_mod_left, emit_streamValue hf hsyms, emit_congr hlow, hzeros] using hsplit

/-- A quotient rounded up is the quotient, and one more where it does not divide (R11). -/
theorem ceilDiv_eq (hf : 1 ≤ f) (p : Nat) : ceilDiv p f = p / f + if p % f = 0 then 0 else 1 := by
  have hp : f * (p / f) + p % f = p := Nat.div_add_mod p f
  have hlt : p % f < f := Nat.mod_lt p hf
  rw [ceilDiv]
  split
  · rw [show p + f - 1 = f * (p / f) + (f - 1) by omega, Nat.mul_add_div hf,
      Nat.div_eq_of_lt (show f - 1 < f by omega)]
  · rw [show p + f - 1 = f * (p / f + 1) + (p % f - 1) by rw [Nat.mul_add]; omega, Nat.mul_add_div hf,
      Nat.div_eq_of_lt (show p % f - 1 < f by omega)]

/-- Symbols converted with padding and then back, with either policy: they come back with as many zero symbols added as the
padding bits make up, and without padding one that they do not fill is dropped (R71). -/
theorem convert_back (h : Convertible f t syms) (hout : convert f t true syms = some out) :
    convert t f true out = some (syms ++ List.replicate (ceilDiv (padBits t (syms.length * f)) f) 0) ∧
      convert t f false out = some (syms ++ List.replicate (padBits t (syms.length * f) / f) 0) := by
  have hback : Convertible t f out := ⟨h.to_pos, h.to_le, h.from_pos, h.from_le, convert_mem_lt hout⟩
  obtain ⟨hlen, hvalue⟩ := convert_true_stream h hout
  generalize hp : padBits t (syms.length * f) = p at *
  have hlt : p % f < t := (Nat.mod_le p f).trans_lt (hp ▸ padBits_lt h.to_pos _)
  have hrest : (syms.length * f + p) % f = p % f := Nat.mul_add_mod' ..
  have hzero : streamValue f syms * 2 ^ p % 2 ^ (p % f) = 0 :=
    Nat.mod_eq_zero_of_dvd (Dvd.dvd.mul_left (Nat.pow_dvd_pow 2 (Nat.mod_le p f)) _)
  have hemit := emit_zero_bits h.from_pos h.fits p
  constructor
  · rw [convert_true_eq hback, hlen, hvalue, hrest, hzero, hemit, ceilDiv_eq h.from_pos, List.append_assoc]
    by_cases hr : p % f = 0
    · simp [hr]
    · simp [hr, List.replicate_succ']
  · rw [convert_false_eq hback, hlen, hvalue, hrest, hzero, hemit, if_pos ⟨hlt, rfl⟩]

end Sys2Proof.Machine
end

section
/-! SUPPORT. A command runs from its word, the writes of PUSH and FIN in closed form (40_converter.md R64, R65), and the
bounds of R70 on what they append. -/

namespace Sys2Proof.Machine

variable {s t : State}

/-- The word of a command runs it (R58). -/
theorem execWord_encode (i : Instr) (s : State) : execWord (encode i) s = exec i s := execWord_ok (decode_encode i)

/-- The writes of an accepted PUSH, the emission in closed form (R64). -/
theorem acceptSymbol_eq (sym : BitVec 8) (s : State) :
    acceptSymbol sym s = { s with
      acc := BitVec.ofNat 15 (pushAcc sym s)
      outq := s.outq ++ (List.range (pushEmits s)).map fun j =>
        BitVec.ofNat 8 (pushAcc sym s / 2 ^ (pushCount s - s.toBits.toNat * (j + 1)) % 2 ^ s.toBits.toNat)
      bits := BitVec.ofNat 4 (pushCount s % s.toBits.toNat) } := by
  have hsyms : (pushEmission sym s).1.map (BitVec.ofNat 8) = (List.range (pushEmits s)).map fun j =>
      BitVec.ofNat 8 (pushAcc sym s / 2 ^ (pushCount s - s.toBits.toNat * (j + 1)) % 2 ^ s.toBits.toNat) := by
    simp [pushEmission, emit_fst_div, pushEmits]
  rw [acceptSymbol, hsyms, pushEmission, emit_snd]

/-- The residual is ACC moved up to the top of a TO-bit symbol (R65). -/
theorem finResidual_eq (s : State) :
    finResidual s = s.acc.toNat * 2 ^ (s.toBits.toNat - s.bits.toNat) % 2 ^ s.toBits.toNat := by
  simp [finResidual, topResidual, Nat.shiftLeft_eq]

/-- Fewer than TO bits wait before a PUSH, so it emits at most (TO − 1 + FROM) div TO symbols (R70). -/
theorem pushEmits_le (hs : s.Wf) (hm : s.mode = .run) :
    pushEmits s ≤ (s.toBits.toNat - 1 + s.fromBits.toNat) / s.toBits.toNat := by
  obtain ⟨-, -, -, hbits, -⟩ := hs
  have hlt := hbits hm
  exact Nat.div_le_div_right (show s.bits.toNat + s.fromBits.toNat ≤ _ by omega)

/-- R70's bound is at least n exactly where (n − 1)·T < F. -/
theorem le_emissionBound_iff {f t n : Nat} (ht : 1 ≤ t) (hn : 1 ≤ n) : n ≤ (t - 1 + f) / t ↔ (n - 1) * t < f := by
  obtain ⟨m, rfl⟩ := Nat.exists_eq_add_of_le' hn
  rw [Nat.le_div_iff_mul_le ht, Nat.add_mul, Nat.add_sub_cancel]
  omega

/-- R70's bound is at most 8, and 8 only from 8 bits to 1. -/
theorem emissionBound_le {f t : Nat} (hf : f ≤ 8) (ht : 1 ≤ t) :
    (t - 1 + f) / t ≤ 8 ∧ ((t - 1 + f) / t = 8 ↔ f = 8 ∧ t = 1) := by
  have h9 := le_emissionBound_iff (f := f) (n := 9) ht (by decide)
  have h8 := le_emissionBound_iff (f := f) (n := 8) ht (by decide)
  omega

/-- A PUSH on an empty OUTQ finds room: the depth is at least 8 (R9, R70). -/
theorem push_room_of_nil (hs : s.Wf) (hm : s.mode = .run) (hq : s.outq = []) :
    s.outq.length + pushEmits s ≤ s.outqDepth := by
  have hemits := pushEmits_le hs hm
  obtain ⟨⟨hdepth, -⟩, -, hw, -⟩ := hs
  obtain ⟨⟨-, hf⟩, ht, -⟩ := hw (by simp [hm])
  have hbound := (emissionBound_le hf ht).1
  simp only [hq, List.length_nil]
  exact (Nat.zero_add _).trans_le (hemits.trans (hbound.trans hdepth))

/-- A PUSH on an empty OUTQ is never rejected with E_FULL (R70). -/
theorem execPush_ne_full_of_nil {sym : BitVec 8} (hs : s.Wf) (hq : s.outq = []) (h : execPush sym s = .next t) :
    lastStatus t ≠ some .eFull := by
  rcases execPush_cases h with ⟨-, rfl⟩ | ⟨-, -, rfl⟩ | ⟨hm, -, hfull, -⟩ | ⟨-, -, -, rfl⟩
  · simp
  · simp
  · exact absurd (push_room_of_nil hs hm hq) (not_le.mpr hfull)
  · simp

/-- A FIN on an empty OUTQ is never rejected with E_FULL (R70). -/
theorem execFin_ne_full_of_nil (hs : s.Wf) (hq : s.outq = []) (h : execFin s = .next t) :
    lastStatus t ≠ some .eFull := by
  rcases execFin_cases h with ⟨-, rfl⟩ | ⟨-, -, -, hfull, -⟩ | ⟨-, -, -, -, rfl⟩ | ⟨-, -, -, rfl⟩ | ⟨-, -, -, rfl⟩ |
    ⟨-, -, -, -, rfl⟩
  case inr.inl =>
    obtain ⟨⟨hdepth, -⟩, -⟩ := hs
    rw [hq, List.length_nil] at hfull
    exact absurd (hfull ▸ hdepth) (by decide)
  all_goals simp

/-- FIN appends at most the one padded symbol (R70). -/
theorem execFin_outq_length_le (h : execFin s = .next t) : t.outq.length ≤ s.outq.length + 1 := by
  rcases execFin_cases h with ⟨-, rfl⟩ | ⟨-, -, -, -, rfl⟩ | ⟨-, -, -, -, rfl⟩ | ⟨-, -, -, rfl⟩ | ⟨-, -, -, rfl⟩ |
    ⟨-, -, -, -, rfl⟩ <;> simp

end Sys2Proof.Machine
end

section
/-! SUPPORT. The machine's converter and the record of its conversion (40_converter.md R67, R68). While a conversion is open, ACC,
BITS and the emitted sequence are the variables of R61's loop over the symbols fed; every command keeps it so, and FIN then
answers as `finish` does on those variables. -/

namespace Sys2Proof.Machine

variable {s t u : State} {k : Tracked} {c : Conversion} {data : Data}

/-! ### What a command that has answered leaves in the record, by its status -/

/-- An accepted PUSH notes its operand and what it appended (R67, R68). -/
theorem note_push_ok (sym : BitVec 8) :
    c.note (.push sym) s (answer .ok data u) =
      { c with pushed := c.pushed ++ [sym], emitted := c.emitted ++ appended s u } := by
  simp [Conversion.note, appended]

/-- A PUSH that aborts fails the conversion (R67). -/
theorem note_push_eRange (sym : BitVec 8) :
    c.note (.push sym) s (answer .eRange data u) = { c with pushed := c.pushed ++ [sym], phase := .failed } := by
  simp [Conversion.note]

/-- A FIN that returns OK ends the conversion as succeeded (R67). -/
theorem note_fin_ok :
    c.note .fin s (answer .ok data u) = { c with emitted := c.emitted ++ appended s u, phase := .succeeded } := by
  simp [Conversion.note, appended]

/-- A FIN that aborts fails the conversion (R67). -/
theorem note_fin_eConv : c.note .fin s (answer .eConv data u) = { c with phase := .failed } := by
  simp [Conversion.note]

/-- A legal CFG starts a new record (R67). -/
theorem note_cfg_ok (f w : BitVec 4) (pad : Bool) :
    c.note (.cfg f w pad) s (answer .ok data u) = Conversion.start f w pad := by
  simp [Conversion.note]

/-- A POP that returns OK notes the symbol taken (R67). -/
theorem note_pop_ok :
    c.note .pop s (answer .ok data u) = { c with popped := c.popped ++ s.outq.take 1 } := by
  simp [Conversion.note]

/-- A conversion that is abandoned, or had ended before, is not open (R67). -/
theorem abandon_phase_ne_opened (c : Conversion) : c.abandon.phase ≠ .opened := by
  rw [abandon_phase]
  split
  · decide
  · next h => exact h

/-- A rejected command leaves the record: only OK, E_RANGE and E_CONV are noted (R67, R93). -/
theorem note_rejected {i : Instr} {st : Status} (hst : st ∉ [Status.ok, .eRange, .eConv]) (hi : i ≠ .rst) :
    c.note i s (answer st data u) = c := by
  unfold Conversion.note
  split
  case h_7 => exact absurd rfl hi
  case h_8 => rfl
  all_goals simp_all

/-- NOP, STAT and the extractor's commands leave the record (R67, R80). -/
theorem note_other {i : Instr} (h : usesConverter i = false) : c.note i s t = c := by
  cases i <;> simp_all [Conversion.note, usesConverter]

/-- Only a CFG changes the configuration on record (R67). -/
theorem note_config {i : Instr} (hi : ∀ f w pad, i ≠ .cfg f w pad) :
    (c.note i s t).fromBits = c.fromBits ∧ (c.note i s t).toBits = c.toBits ∧ (c.note i s t).pad = c.pad := by
  unfold Conversion.note
  split
  case h_1 => exact absurd rfl (hi _ _ _)
  all_goals exact ⟨rfl, rfl, rfl⟩

/-! ### The converter's variables in the machine -/

/-- A BitVec holds a number that fits its width. -/
theorem toNat_ofNat_of_lt_two_pow {w n m : Nat} (hn : n < 2 ^ m) (hm : m ≤ w) : (BitVec.ofNat w n).toNat = n := by
  rw [BitVec.toNat_ofNat]
  exact Nat.mod_eq_of_lt (hn.trans_le (Nat.pow_le_pow_right (by decide) hm))

/-- Symbols that fit their width are what a list of BitVecs holds of them. -/
theorem map_toNat_map_ofNat {w m : Nat} {syms : List Nat} (h : ∀ x ∈ syms, x < 2 ^ m) (hm : m ≤ w) :
    (syms.map (BitVec.ofNat w)).map BitVec.toNat = syms := by
  rw [List.map_map]
  exact (List.map_congr_left fun x hx => toNat_ofNat_of_lt_two_pow (h x hx) hm).trans (List.map_id syms)

/-- An accepted PUSH is one round of R61's loop (R61, R64). -/
theorem feed_eq_acceptSymbol (sym : BitVec 8) (out : List Nat) (hw : LegalWidth s.toBits) :
    feed s.fromBits.toNat s.toBits.toNat ⟨s.acc.toNat, s.bits.toNat, out⟩ sym.toNat =
      ⟨(acceptSymbol sym s).acc.toNat, (acceptSymbol sym s).bits.toNat,
        out ++ (appended s (acceptSymbol sym s)).map BitVec.toNat⟩ := by
  obtain ⟨hto1, hto8⟩ := hw
  have hbits : (acceptSymbol sym s).bits.toNat = (pushEmission sym s).2 := by
    have hlt : (pushEmission sym s).2 < s.toBits.toNat := (emit_snd ..).trans_lt (Nat.mod_lt _ hto1)
    exact toNat_ofNat_of_lt_two_pow (m := 4) (hlt.trans s.toBits.isLt) le_rfl
  have happended : (appended s (acceptSymbol sym s)).map BitVec.toNat = (pushEmission sym s).1 := by
    rw [appended_of_append (acceptSymbol_outq sym s)]
    exact map_toNat_map_ofNat (emit_mem_lt _ _ _) hto8
  rw [acceptSymbol_acc_toNat, hbits, happended]
  rfl

/-- While a conversion is open, MODE is RUN, the converter is configured as the record says, every symbol fed fits, and ACC, BITS
and the emitted sequence are the variables of R61's loop after the symbols fed (R67, R68). -/
def Tracked.LoopAgrees (k : Tracked) : Prop :=
  k.conv.phase = .opened →
    k.state.mode = .run ∧ k.Configured ∧ (∀ x ∈ k.conv.input, x < 2 ^ k.conv.fromBits.toNat) ∧
      feedAll k.conv.fromBits.toNat k.conv.toBits.toNat k.conv.input =
        ⟨k.state.acc.toNat, k.state.bits.toNat, k.conv.output⟩

/-- With no conversion open there is nothing to agree on. -/
theorem loopAgrees_of_not_opened (h : k.conv.phase ≠ .opened) : k.LoopAgrees := fun ho => absurd ho h

/-- A legal CFG starts the loop (R63). -/
theorem loopAgrees_start {f w : BitVec 4} {pad : Bool} (hf : LegalWidth f) (hw : LegalWidth w)
    (hs : k.state = openConversion f w pad s) (hc : k.conv = Conversion.start f w pad) : k.LoopAgrees := by
  intro _
  rw [Tracked.Configured, hs, hc]
  exact ⟨rfl, ⟨rfl, rfl, rfl, hf, hw⟩, by simp [Conversion.input, Conversion.start], rfl⟩

/-- An accepted PUSH goes on with the loop (R64). -/
theorem loopAgrees_acceptSymbol {sym : BitVec 8} (h : k.LoopAgrees) (hfit : FitsWidth sym k.state.fromBits.toNat) :
    Tracked.LoopAgrees ⟨acceptSymbol sym k.state,
      { k.conv with
        pushed := k.conv.pushed ++ [sym], emitted := k.conv.emitted ++ appended k.state (acceptSymbol sym k.state) },
      k.past⟩ := by
  intro ho
  obtain ⟨hm, ⟨hf, ht, hpad, hlf, hlt⟩, hin, hfeed⟩ := h ho
  refine ⟨hm, ⟨hf, ht, hpad, hlf, hlt⟩, ?_, ?_⟩
  · change ∀ x ∈ (k.conv.pushed ++ [sym]).map BitVec.toNat, _
    rw [List.map_append, List.forall_mem_append]
    exact ⟨hin, List.forall_mem_singleton.mpr (hf ▸ hfit)⟩
  · have hround := feed_eq_acceptSymbol sym k.conv.output (ht ▸ hlt)
    rw [hf, ht, ← hfeed, ← feedAll_append_one] at hround
    simpa [Conversion.input, Conversion.output] using hround

/-- CFG opens a conversion in agreement, or leaves everything (R63). -/
theorem cfg_loopAgrees {f w : BitVec 4} {pad : Bool} (h : k.LoopAgrees) (hx : execCfg f w pad k.state = .next t) :
    (k.noteCommand (.cfg f w pad) t).LoopAgrees := by
  rcases execCfg_cases hx with ⟨⟨hf, hw⟩, rfl⟩ | ⟨-, rfl⟩
  · exact loopAgrees_start (s := answer .ok 0 k.state) hf hw rfl (note_cfg_ok ..)
  · rw [Tracked.noteCommand, note_rejected (by decide) (by simp)]
    exact h

/-- PUSH keeps the agreement (R64). -/
theorem push_loopAgrees {sym : BitVec 8} (h : k.LoopAgrees) (hx : execPush sym k.state = .next t) :
    (k.noteCommand (.push sym) t).LoopAgrees := by
  rcases execPush_cases hx with ⟨-, rfl⟩ | ⟨-, -, rfl⟩ | ⟨-, -, -, rfl⟩ | ⟨-, hfit, -, rfl⟩ <;> rw [Tracked.noteCommand]
  · rw [note_rejected (by decide) (by simp)]
    exact h
  · rw [note_push_eRange]
    exact loopAgrees_of_not_opened (by simp)
  · rw [note_rejected (by decide) (by simp)]
    exact h
  · rw [note_push_ok]
    exact loopAgrees_acceptSymbol h hfit

/-- FIN ends the conversion, or leaves everything (R65). -/
theorem fin_loopAgrees (h : k.LoopAgrees) (hx : execFin k.state = .next t) : (k.noteCommand .fin t).LoopAgrees := by
  rcases execFin_cases hx with ⟨-, rfl⟩ | ⟨-, -, -, -, rfl⟩ | ⟨-, -, -, -, rfl⟩ | ⟨-, -, -, rfl⟩ | ⟨-, -, -, rfl⟩ |
    ⟨-, -, -, -, rfl⟩ <;> rw [Tracked.noteCommand]
  case inl | inr.inl =>
    rw [note_rejected (by decide) (by simp)]
    exact h
  case inr.inr.inr.inr.inl =>
    rw [note_fin_eConv]
    exact loopAgrees_of_not_opened (by simp)
  all_goals
    rw [note_fin_ok]
    exact loopAgrees_of_not_opened (by simp)

/-- POP takes from OUTQ only what was emitted before (R66). -/
theorem pop_loopAgrees (h : k.LoopAgrees) (hx : execPop k.state = .next t) : (k.noteCommand .pop t).LoopAgrees := by
  rcases execPop_cases hx with ⟨-, rfl⟩ | ⟨v, rest, -, rfl⟩ <;> rw [Tracked.noteCommand]
  · rw [note_rejected (by decide) (by simp)]
    exact h
  · rw [note_pop_ok]
    exact h

/-- NOP, STAT and the extractor's commands leave the converter's fields as they are (R80, R83, R84). -/
theorem exec_other_sameConverter {i : Instr} (hi : usesConverter i = false) (hx : exec i s = .next t) :
    s.SameConverter t := by
  cases i with
  | nop =>
    obtain rfl := execNop_next.mp hx
    simp [State.SameConverter]
  | stat =>
    obtain rfl := execStat_next.mp hx
    simp [State.SameConverter]
  | xpush sym => rcases execXpush_cases hx with ⟨-, rfl⟩ | ⟨-, -, rfl⟩ | ⟨-, -, rfl⟩ <;> simp [State.SameConverter]
  | xrun d => rcases execXrun_cases hx with ⟨-, rfl⟩ | ⟨-, -, rfl⟩ | ⟨-, -, rfl⟩ <;> simp [State.SameConverter]
  | cfg | push | fin | pop | rst => cases hi

/-- The commands that do not use the converter keep the agreement (R80). -/
theorem other_loopAgrees {i : Instr} (hi : usesConverter i = false) (h : k.LoopAgrees) (hx : exec i k.state = .next t) :
    (k.noteCommand i t).LoopAgrees := by
  obtain ⟨hmode, -, hf, ht, hpad, hacc, hbits, -, -⟩ := exec_other_sameConverter hi hx
  rw [Tracked.noteCommand, note_other hi]
  simpa only [Tracked.LoopAgrees, Tracked.Configured, hmode, hf, ht, hpad, hacc, hbits] using h

/-- Every command is answered in every state (R98). -/
theorem exec_answers (i : Instr) (s : State) : ∃ t, exec i s = .next t := by
  obtain ⟨t, -, ht, -, -⟩ := exec_agree i (sameVisible_refl s)
  exact ⟨t, ht⟩

/-- Every command keeps the agreement of the machine with R61's loop (R68). -/
theorem issue_loopAgrees (i : Instr) (h : k.LoopAgrees) : (k.issue i).LoopAgrees := by
  obtain ⟨t, ht⟩ := exec_answers i k.state
  rw [issue_of_next ht]
  cases i with
  | cfg f w pad => exact cfg_loopAgrees h ht
  | push sym => exact push_loopAgrees h ht
  | fin => exact fin_loopAgrees h ht
  | pop => exact pop_loopAgrees h ht
  | rst =>
    exact loopAgrees_of_not_opened (abandon_phase_ne_opened k.conv)
  | nop | xpush | xrun | stat => exact other_loopAgrees rfl h ht

/-! ### FIN answers as `convert` does -/

/-- While a conversion is open, `convert` of the symbols fed is R61's step on exhaustion, on the machine's variables (R68). -/
theorem convert_eq_finish (h : k.LoopAgrees) (ho : k.conv.phase = .opened) :
    convert k.conv.fromBits.toNat k.conv.toBits.toNat k.conv.pad k.conv.input =
      finish k.state.fromBits.toNat k.state.toBits.toNat k.state.pad
        ⟨k.state.acc.toNat, k.state.bits.toNat, k.conv.output⟩ := by
  obtain ⟨-, ⟨hf, ht, hpad, -, -⟩, -, hfeed⟩ := h ho
  rw [convert, hfeed, hf, ht, hpad]

/-- The emitted sequence after a FIN that returns OK: what it appended to OUTQ comes last (R67). -/
theorem output_fin_ok {new : List OutSym} (h : u.outq = k.state.outq ++ new) :
    (k.noteCommand .fin (answer .ok data u)).conv.output = k.conv.output ++ new.map BitVec.toNat := by
  rw [noteCommand_conv, note_fin_ok, appended_of_append h]
  exact List.map_append

/-- FIN on an open conversion: no room, or success with the output of `convert`, or an abort where `convert` gives none (R65,
R68). -/
theorem fin_eq_convert (h : k.LoopAgrees) (ho : k.conv.phase = .opened) (hx : execFin k.state = .next t) :
    lastStatus t = some .eFull ∨
    (lastStatus t = some .ok ∧ convert k.conv.fromBits.toNat k.conv.toBits.toNat k.conv.pad k.conv.input =
      some (k.noteCommand .fin t).conv.output) ∨
    (lastStatus t = some .eConv ∧
      convert k.conv.fromBits.toNat k.conv.toBits.toNat k.conv.pad k.conv.input = none) := by
  obtain ⟨hrun, ⟨-, ht, -, -, -, hto8⟩, -, -⟩ := h ho
  have hsame : (closeConversion k.state).outq = k.state.outq ++ [] := (List.append_nil _).symm
  rw [convert_eq_finish h ho]
  rcases execFin_cases hx with ⟨hm, -⟩ | ⟨-, -, -, -, rfl⟩ | ⟨-, hpad, hb, -, rfl⟩ | ⟨-, hpad, hb, rfl⟩ |
    ⟨-, hpad, hbad, rfl⟩ | ⟨-, hpad, hb, hr, rfl⟩
  · exact absurd hrun hm
  · exact .inl (lastStatus_answer ..)
  · have hlt : finResidual k.state < 2 ^ k.state.toBits.toNat := topResidual_lt ..
    have hres := map_toNat_map_ofNat (w := 8) (List.forall_mem_singleton.mpr hlt) (ht ▸ hto8)
    refine .inr (.inl ⟨lastStatus_answer .., ?_⟩)
    rw [output_fin_ok (new := [finResidual k.state].map (BitVec.ofNat 8)) rfl, hres, finish, if_pos hpad]
    exact if_pos hb
  · refine .inr (.inl ⟨lastStatus_answer .., ?_⟩)
    rw [output_fin_ok hsame, List.map_nil, List.append_nil, finish, if_pos hpad]
    exact if_neg (Nat.not_lt.mpr hb.le)
  · refine .inr (.inr ⟨lastStatus_answer .., ?_⟩)
    rw [finish, if_neg (by simp [hpad])]
    exact if_pos hbad
  · refine .inr (.inl ⟨lastStatus_answer .., ?_⟩)
    rw [output_fin_ok hsame, List.map_nil, List.append_nil, finish, if_neg (by simp [hpad])]
    exact if_neg (not_or.mpr ⟨not_le.mpr hb, not_not.mpr hr⟩)

/-- A PUSH of a too wide symbol into an open conversion aborts with E_RANGE (R64). -/
theorem execPush_too_wide {sym : BitVec 8} (hm : s.mode = .run) (hwide : ¬FitsWidth sym s.fromBits.toNat) :
    execPush sym s = .next (answer .eRange 0 (enterError .eRange s)) := by
  rw [execPush, if_neg (not_not.mpr hm), if_pos hwide]
  rfl

/-- A PUSH of a too wide symbol fails the open conversion (R67, R68). -/
theorem push_too_wide {sym : BitVec 8} (h : k.LoopAgrees) (ho : k.conv.phase = .opened)
    (hwide : 2 ^ k.conv.fromBits.toNat ≤ sym.toNat) :
    lastStatus (k.issue (.push sym)).state = some .eRange ∧ (k.issue (.push sym)).conv.phase = .failed := by
  obtain ⟨hm, ⟨hf, -⟩, -, -⟩ := h ho
  have hx : exec (.push sym) k.state = _ := execPush_too_wide hm (hf ▸ not_lt.mpr hwide)
  rw [issue_of_next hx, noteCommand_conv, note_push_eRange]
  exact ⟨lastStatus_answer .., rfl⟩

/-- The machine agrees with R61's loop, and the conversion on record is one of the given configuration. -/
def Tracked.Converts (f w : BitVec 4) (pad : Bool) (k : Tracked) : Prop :=
  k.LoopAgrees ∧ k.conv.fromBits = f ∧ k.conv.toBits = w ∧ k.conv.pad = pad

/-- Commands without a CFG among them keep both the agreement and the configuration (R67, R68). -/
theorem issueAll_converts {f w : BitVec 4} {pad : Bool} {cs : List Instr} (hcs : ∀ c ∈ cs, ∀ f' w' p', c ≠ .cfg f' w' p')
    (h : k.Converts f w pad) : (k.issueAll cs).Converts f w pad := by
  refine List.foldlRecOn cs Tracked.issue h fun j hj i hi => ?_
  obtain ⟨hloop, hf, hw, hpad⟩ := hj
  obtain ⟨t, ht⟩ := exec_answers i j.state
  obtain ⟨hf', hw', hpad'⟩ := note_config (c := j.conv) (s := j.state) (t := t) (hcs i hi)
  refine ⟨issue_loopAgrees i hloop, ?_⟩
  rw [issue_of_next ht]
  exact ⟨hf'.trans hf, hw'.trans hw, hpad'.trans hpad⟩

end Sys2Proof.Machine
end

section
/-! The statements of 40_converter.md: O20 to O23, O37, O38, O41 and O45. -/

open Sys2Proof Sys2Proof.Machine

/-- Settles O20: the illegal widths are those that fail `LegalWidth`. -/
theorem cfgOpensAConversionOrRejects : Obligations.CfgOpensAConversionOrRejects := by
  intro f t pad s
  refine ⟨execWord_encode (.cfg f t pad) s, ?_⟩
  have hillegal : ¬(LegalWidth f ∧ LegalWidth t) ↔ f.toNat < 1 ∨ 8 < f.toNat ∨ t.toNat < 1 ∨ 8 < t.toNat := by
    simp only [LegalWidth, Config.maxWidth]
    omega
  calc exec (.cfg f t pad) s
    _ = if ¬(LegalWidth f ∧ LegalWidth t) then reject .eParam s else respond .ok 0 (openConversion f t pad s) :=
      (ite_not ..).symm
    _ = _ := if_congr hillegal rfl rfl

/-- Settles O21: PUSH makes its checks in R64's order, and `acceptSymbol_eq` is the accepted one in closed form. -/
theorem pushFeedsOneSymbol : Obligations.PushFeedsOneSymbol := by
  intro sym s _ fromW toW b k acc
  have hword : (0b00100000#8 ++ sym : CmdWord) = encode (.push sym) := rfl
  refine ⟨hword ▸ execWord_encode (.push sym) s, ?_⟩
  have haccepted : respond .ok 0 (acceptSymbol sym s) = _ := congrArg (respond .ok 0) (acceptSymbol_eq sym s)
  exact if_congr Iff.rfl rfl (if_congr not_lt rfl (if_congr Iff.rfl rfl haccepted))

/-- Settles O22: FIN makes its checks in R65's order, and `finResidual_eq` is the residual. -/
theorem finAppliesThePaddingPolicy : Obligations.FinAppliesThePaddingPolicy := by
  intro s _ r
  refine ⟨execWord_encode .fin s, ?_⟩
  change execFin s = _
  have hr : finResidual s = r := finResidual_eq s
  rw [execFin, finPadded, finUnpadded, hr]
  rfl

/-- Settles O23, by the two forms of OUTQ. -/
theorem popTakesTheOldestSymbol : Obligations.PopTakesTheOldestSymbol := by
  refine ⟨execWord_encode .pop, fun s hq => execPop_nil hq, fun s v rest hq => ?_⟩
  rw [BitVec.ofNat_toNat]
  exact execPop_cons hq

/-- Settles O41: R70's bound and its greatest values by arithmetic, and the room on an empty OUTQ by the least depth, 8. -/
theorem emissionIsBounded : Obligations.EmissionIsBounded := by
  refine ⟨fun s hs hm => ?_, fun f t hf1 hf8 ht1 ht8 => ?_, by decide, fun s t h => execFin_outq_length_le h, ?_⟩
  · have hemits := pushEmits_le hs hm
    obtain ⟨-, -, hw, -⟩ := hs
    obtain ⟨⟨-, hf⟩, ht, -⟩ := hw (by simp [hm])
    obtain ⟨hbound, hmax⟩ := emissionBound_le hf ht
    refine ⟨hemits, hemits.trans hbound, fun h8 => ?_⟩
    obtain ⟨hf8, ht1⟩ := hmax.mp (by omega)
    exact ⟨BitVec.eq_of_toNat_eq hf8, BitVec.eq_of_toNat_eq ht1⟩
  · obtain ⟨hbound, hmax⟩ := emissionBound_le hf8 ht1
    have h4 := le_emissionBound_iff (f := f) (n := 4) ht1 (by decide)
    simp only [List.mem_cons, Prod.mk.injEq, List.not_mem_nil, or_false]
    exact ⟨hbound, hmax, by omega⟩
  · rintro s t hs hq (⟨sym, h⟩ | h)
    · exact execPush_ne_full_of_nil hs hq h
    · exact execFin_ne_full_of_nil hs hq h

/-- Settles O37, by the closed forms of the loop and of both padding policies. -/
theorem convertHasTheClosedForm : Obligations.ConvertHasTheClosedForm := by
  intro f t syms hf1 hf8 ht1 ht8 hfits len v m rho whole c
  have h : Convertible f t syms := ⟨hf1, hf8, ht1, ht8, hfits⟩
  have hwhole : (emit t v len).1 = whole := emit_fst_div t v len
  have hpadded := hwhole ▸ convert_true_eq h
  have hunpadded := hwhole ▸ convert_false_eq h
  refine ⟨hwhole ▸ feedAll_eq_emit h, hpadded, fun out hout => ?_, hunpadded, ?_, ?_⟩
  · have hlen : out.length * t = len + padBits t len := (convert_true_stream h hout).1
    have hlt := padBits_lt ht1 len
    exact (Nat.div_eq_of_lt_le (by omega) (by rw [Nat.add_one_mul]; omega)).symm
  · rintro (_ | _) rfl
    · simp [convert, finish, topResidual_zero, Nat.ne_of_gt hf1]
    · simp [convert, finish]
  · rintro pad rfl
    have hrest : syms.length * f % f = 0 := Nat.mul_mod_left ..
    have hsame : whole = syms := hwhole ▸ emit_streamValue hf1 hfits
    cases pad
    · rw [hunpadded, hrest, if_pos ⟨hf1, Nat.mod_one _⟩, hsame]
    · rw [hpadded, if_pos hrest, hsame, List.append_nil]

/-- Settles O45, by `convert_back`: the number of padding bits decides how many zero symbols are added. -/
theorem bytesSurviveTheRoundTrip : Obligations.BytesSurviveTheRoundTrip := by
  constructor
  · intro bytes hbytes
    have h : Convertible 8 5 bytes := ⟨by decide, by decide, by decide, by decide, hbytes⟩
    obtain ⟨mid, hmid⟩ := convert_padded 8 5 bytes
    obtain ⟨hpadded, hunpadded⟩ := convert_back h hmid
    have hcases := padBits_cases (t := 5) (by decide) (bytes.length * 8)
    have hnone : padBits 5 (bytes.length * 8) / 8 = 0 := by omega
    refine ⟨mid, hmid, ?_, by simpa [hnone] using hunpadded⟩
    rw [hpadded]
    split
    · have hcount : ceilDiv (padBits 5 (bytes.length * 8)) 8 = 0 := by rw [ceilDiv]; omega
      simp [hcount]
    · have hcount : ceilDiv (padBits 5 (bytes.length * 8)) 8 = 1 := by rw [ceilDiv]; omega
      simp [hcount]
  · intro a b ha hb
    have h : Convertible 5 8 [a, b] := ⟨by decide, by decide, by decide, by decide, by simp [ha, hb]⟩
    obtain ⟨mid, hmid⟩ := convert_padded 5 8 [a, b]
    have hcount : ceilDiv (padBits 8 10) 5 = 2 := by decide
    exact ⟨mid, hmid, by simpa [hcount] using (convert_back h hmid).1⟩

/-- Settles O38: the machine agrees with R61's loop after every command of an open conversion, and FIN answers as the step on
exhaustion does. -/
theorem everyConversionComputesConvert : Obligations.EveryConversionComputesConvert := by
  intro f t pad s cs hf ht hcs k input z ho
  have hstart : (startTracked f t pad s).Converts f t pad := ⟨loopAgrees_start hf ht rfl rfl, rfl, rfl, rfl⟩
  obtain ⟨hloop, hkf, hkt, hkpad⟩ := issueAll_converts (fun c hc => (hcs c hc).2) hstart
  obtain ⟨-, -, hfits, -⟩ := hloop ho
  obtain ⟨u, hu⟩ := exec_answers .fin k.state
  have hz : z = k.noteCommand .fin u := issue_of_next hu
  refine ⟨hkf ▸ hfits, fun sym hwide => push_too_wide hloop ho (hkf ▸ hwide), fun hroom => ?_⟩
  have hfin := fin_eq_convert hloop ho hu
  rw [hkf, hkt, hkpad] at hfin
  change _ ∨ (_ ∧ convert f.toNat t.toNat pad input = _) ∨ (_ ∧ convert f.toNat t.toNat pad input = _) at hfin
  rw [hz, noteCommand_state] at hroom ⊢
  rcases hfin with hfull | ⟨hok, hsome⟩ | ⟨hconv, hnone⟩
  · exact absurd hfull hroom
  · rw [hok, hsome]
    exact ⟨by simp, fun out hout => Option.some.inj hout, by simp⟩
  · rw [hconv, hnone]
    exact ⟨by simp, fun out hout => (nomatch hout), by simp⟩

end

/-! ## Proofs about the extractor (41_extractor.md) -/

section
/-! SUPPORT. The extractor's algorithm (41_extractor.md R75, R76): its bytes are the leading symbols' stream with zero bits added
at its end (`convert_true_stream`), and the shift takes those bits off again with the stream's own tail. -/

namespace Sys2Proof.Machine

/-- The bytes of an extraction are the leading symbols' stream with `padBits` zero bits at its end: their number, and
their value (R75, R76). -/
theorem extractBytes_stream {d : Nat} {syms : List Nat} (hfits : ∀ x ∈ syms, x < 2 ^ 5) (hn : ceilDiv d 5 ≤ syms.length) :
    8 * (extractBytes d syms).length = 5 * ceilDiv d 5 + padBits 8 (5 * ceilDiv d 5) ∧
      bigEndian (extractBytes d syms) =
        streamValue 5 (syms.take (ceilDiv d 5)) * 2 ^ padBits 8 (5 * ceilDiv d 5) := by
  obtain ⟨out, hout⟩ := convert_padded 5 8 (syms.take (ceilDiv d 5))
  have hbytes : extractBytes d syms = out := congrArg (Option.getD · []) hout
  have h : Convertible 5 8 (syms.take (ceilDiv d 5)) :=
    ⟨by decide, by decide, by decide, by decide, fun x hx => hfits x (List.mem_of_mem_take hx)⟩
  have hstream := convert_true_stream h hout
  rwa [List.length_take_of_le hn, Nat.mul_comm out.length, Nat.mul_comm _ 5, ← hbytes] at hstream

/-- D bits need ceil(D/5) symbols, the last of them in part: at most 4 bits of it are left over, and none where 5 divides D
(R76). -/
theorem ceilDiv_five_tail (d : Nat) :
    d ≤ 5 * ceilDiv d 5 ∧ 5 * ceilDiv d 5 - d ≤ 4 ∧ (5 * ceilDiv d 5 - d = 0 ↔ 5 ∣ d) := by
  rw [ceilDiv]
  omega

/-- An extraction has ceil(5n/8) bytes (R76). -/
theorem extractBytes_length {d : Nat} {syms : List Nat} (hfits : ∀ x ∈ syms, x < 2 ^ 5) (hn : ceilDiv d 5 ≤ syms.length) :
    (extractBytes d syms).length = (5 * ceilDiv d 5 + 7) / 8 := by
  have hlen := (extractBytes_stream hfits hn).1
  have hlt : padBits 8 (5 * ceilDiv d 5) < 8 := padBits_lt (by decide) _
  omega

/-- `extract` in closed form: the leading symbols' number S without its tail of 5n − D bits (R76). -/
theorem extract_eq {d : Nat} {syms : List Nat} (hfits : ∀ x ∈ syms, x < 2 ^ 5) (hn : ceilDiv d 5 ≤ syms.length) :
    extract d syms = streamValue 5 (syms.take (ceilDiv d 5)) / 2 ^ (5 * ceilDiv d 5 - d) := by
  obtain ⟨hlen, hvalue⟩ := extractBytes_stream hfits hn
  have htail := (ceilDiv_five_tail d).1
  have hshift : 8 * (extractBytes d syms).length - d = 5 * ceilDiv d 5 - d + padBits 8 (5 * ceilDiv d 5) := by omega
  rw [extract, Nat.shiftRight_eq_div_pow, hvalue, hshift, Nat.pow_add, Nat.mul_div_mul_right _ _ (Nat.two_pow_pos _)]

/-- Where D is a whole number of symbols, and these are all there are, `extract` is their number (R76, R81). -/
theorem extract_of_exact {d : Nat} {syms : List Nat} (hfits : ∀ x ∈ syms, x < 2 ^ 5) (hd : d = 5 * syms.length) :
    extract d syms = streamValue 5 syms := by
  have hn : ceilDiv d 5 = syms.length := by rw [ceilDiv]; omega
  rw [extract_eq hfits hn.le, hn, hd, Nat.sub_self, pow_zero, Nat.div_one, List.take_length]

end Sys2Proof.Machine
end

section
/-! SUPPORT. XPUSHes fill the slice and an XRUN takes it (41_extractor.md R78, R79, R81). -/

namespace Sys2Proof.Machine

variable {s : State} {k : Tracked} {syms : List Nat}

/-- An accepted XPUSH (R78). -/
theorem execXpush_of_room {sym : BitVec 8} (hfit : FitsWidth sym 5) (hroom : s.xsym.length ≠ 13) :
    execXpush sym s = .next (answer .ok 0 { s with xsym := s.xsym ++ [sym.setWidth 5] }) := by
  rw [execXpush, if_neg (not_not.mpr hfit), if_neg hroom]
  rfl

/-- A successful XRUN (R79). -/
theorem execXrun_of_enough {d : BitVec 7} (hd : d.toNat ≤ 64) (hn : ceilDiv d.toNat 5 ≤ s.xsym.length) :
    execXrun d s = .next (answer .ok (BitVec.ofNat 64 (extract d.toNat (slice s))) (dropSlice s)) := by
  rw [execXrun, if_neg (not_not.mpr hd), if_neg (not_lt.mpr hn)]
  rfl

/-- One XPUSH for each symbol. -/
def xpushAll (syms : List Nat) : List Instr := syms.map fun x => .xpush (BitVec.ofNat 8 x)

/-- XPUSHes from an empty slice leave in it the symbols pushed, in order, where they fit (R78). -/
theorem slice_issueAll_xpushAll (hempty : k.state.xsym = []) (hfits : ∀ x ∈ syms, x < 2 ^ 5) (hlen : syms.length ≤ 13) :
    slice (k.issueAll (xpushAll syms)).state = syms := by
  induction syms using List.reverseRecOn with
  | nil => simp [xpushAll, slice, hempty]
  | append_singleton syms x ih =>
    rw [List.forall_mem_append, List.forall_mem_singleton] at hfits
    rw [List.length_append, List.length_singleton] at hlen
    obtain ⟨hsyms, hx⟩ := hfits
    have hbefore := ih hsyms (by omega)
    have hsym : (BitVec.ofNat 8 x).toNat = x := toNat_ofNat_of_lt_two_pow hx (by decide)
    have hroom : (k.issueAll (xpushAll syms)).state.xsym.length ≠ 13 := by
      have hcount := congrArg List.length hbefore
      rw [slice, List.length_map] at hcount
      omega
    have hpush : exec (.xpush (BitVec.ofNat 8 x)) (k.issueAll (xpushAll syms)).state = _ :=
      execXpush_of_room (show _ < 2 ^ 5 by rwa [hsym]) hroom
    have hnew : ((BitVec.ofNat 8 x).setWidth 5).toNat = x := by rw [BitVec.toNat_setWidth, hsym, Nat.mod_eq_of_lt hx]
    have happend : xpushAll (syms ++ [x]) = xpushAll syms ++ [.xpush (BitVec.ofNat 8 x)] := List.map_append
    rw [happend, issueAll_append_one, issue_of_next hpush, noteCommand_state, slice, answer_xsym, List.map_append]
    exact congrArg₂ (· ++ ·) hbefore (congrArg (fun y => [y]) hnew)

/-- From an empty slice, symbols pushed and then extracted whole come back as their number, and the slice is empty again (R79,
R81). -/
theorem xpushAll_xrun_of_exact {d : BitVec 7} (hempty : k.state.xsym = []) (hfits : ∀ x ∈ syms, x < 2 ^ 5)
    (hd : d.toNat = 5 * syms.length) (hd64 : d.toNat ≤ 64) :
    let z := (k.issueAll (xpushAll syms ++ [.xrun d])).state
    lastStatus z = some .ok ∧ lastData z = some (BitVec.ofNat 64 (streamValue 5 syms)) ∧ z.xsym = [] := by
  have hslice := slice_issueAll_xpushAll hempty hfits (by omega)
  have hcount : (k.issueAll (xpushAll syms)).state.xsym.length = syms.length := by
    rw [← List.length_map (f := BitVec.toNat)]
    exact congrArg List.length hslice
  have hrun : exec (.xrun d) (k.issueAll (xpushAll syms)).state = _ :=
    execXrun_of_enough hd64 (by rw [hcount, ceilDiv]; omega)
  rw [issueAll_append_one, issue_of_next hrun, noteCommand_state, hslice, extract_of_exact hfits hd]
  exact ⟨lastStatus_answer .., lastData_answer .., rfl⟩

/-- A 35-bit value's seven big-endian digits of five bits have it as their number (R81). -/
theorem streamValue_digits {v : Nat} (hv : v < 2 ^ 35) :
    streamValue 5 ((List.range 7).map fun j => v / 2 ^ (5 * (6 - j)) % 32) = v := by
  have hdigits : (emit 5 v 35).1 = (List.range 7).map fun j => v / 2 ^ (5 * (6 - j)) % 32 := by
    rw [emit_fst_div]
    refine List.map_congr_left fun j _ => ?_
    have hshift : 35 - 5 * (j + 1) = 5 * (6 - j) := by omega
    exact congrArg (fun p => v / 2 ^ p % 32) hshift
  have hvalue := streamValue_emit (t := 5) (r := 0) (by decide) 7 hv
  rw [← hdigits]
  exact hvalue.trans (Nat.div_one v)

end Sys2Proof.Machine
end

section
/-! SUPPORT. The two units do not meet (41_extractor.md R80). A command that answers the same whatever another unit holds also
leaves it: take for that other content the one it has. -/

namespace Sys2Proof.Machine

variable {s t : State} {g : State → State} {i : Instr}

/-- Two outcomes are next states, the second the image of the first. -/
def MapsTo (g : State → State) (o o' : Host.Outcome State Fault Refusal) : Prop :=
  ∃ u, o = .next u ∧ o' = .next (g u)

/-- The image of a known next state. -/
theorem next_of_mapsTo {o o' : Host.Outcome State Fault Refusal} (h : MapsTo g o o') (ho : o = .next t) :
    o' = .next (g t) := by
  obtain ⟨u, hu, ho'⟩ := h
  obtain rfl := Host.Outcome.next.inj (hu.symm.trans ho)
  exact ho'

/-- A next state is its own image where the outcome is its own. -/
theorem eq_of_mapsTo_self {o : Host.Outcome State Fault Refusal} (h : MapsTo g o o) (ho : o = .next t) : t = g t :=
  Host.Outcome.next.inj (ho.symm.trans (next_of_mapsTo h ho))

/-- The same response on a state and on its image. -/
theorem respond_mapsTo {st : Status} {data : Data} (h : answer st data t = g (answer st data s)) :
    MapsTo g (respond st data s) (respond st data t) := ⟨_, rfl, congrArg _ h⟩

/-- The same decision on a state and on its image. -/
theorem ite_mapsTo {p : Prop} [Decidable p] {a b a' b' : Host.Outcome State Fault Refusal} (ht : MapsTo g a a')
    (hf : MapsTo g b b') : MapsTo g (if p then a else b) (if p then a' else b') := by
  split
  · exact ht
  · exact hf

/-- The state with another slice. -/
def withSlice (x : List XSym) (s : State) : State := { s with xsym := x }

/-- CFG does not meet the slice (R63, R80). -/
theorem execCfg_withSlice (f w : BitVec 4) (pad : Bool) (x : List XSym) (s : State) :
    MapsTo (withSlice x) (execCfg f w pad s) (execCfg f w pad (withSlice x s)) :=
  ite_mapsTo (respond_mapsTo rfl) (respond_mapsTo rfl)

/-- PUSH does not meet the slice (R64, R80). -/
theorem execPush_withSlice (sym : BitVec 8) (x : List XSym) (s : State) :
    MapsTo (withSlice x) (execPush sym s) (execPush sym (withSlice x s)) :=
  ite_mapsTo (respond_mapsTo rfl) <| ite_mapsTo (respond_mapsTo rfl) <|
    ite_mapsTo (respond_mapsTo rfl) (respond_mapsTo rfl)

/-- FIN does not meet the slice (R65, R80). -/
theorem execFin_withSlice (x : List XSym) (s : State) :
    MapsTo (withSlice x) (execFin s) (execFin (withSlice x s)) := by
  have hpadded : MapsTo (withSlice x) (finPadded s) (finPadded (withSlice x s)) :=
    ite_mapsTo (ite_mapsTo (respond_mapsTo rfl) (respond_mapsTo rfl)) (respond_mapsTo rfl)
  have hunpadded : MapsTo (withSlice x) (finUnpadded s) (finUnpadded (withSlice x s)) :=
    ite_mapsTo (respond_mapsTo rfl) (respond_mapsTo rfl)
  exact ite_mapsTo (respond_mapsTo rfl) (ite_mapsTo hpadded hunpadded)

/-- POP does not meet the slice (R66, R80). -/
theorem execPop_withSlice (x : List XSym) (s : State) :
    MapsTo (withSlice x) (execPop s) (execPop (withSlice x s)) := by
  cases hq : s.outq with
  | nil =>
    rw [execPop_nil hq, execPop_nil (s := withSlice x s) hq]
    exact respond_mapsTo rfl
  | cons v rest =>
    rw [execPop_cons hq, execPop_cons (s := withSlice x s) hq]
    exact respond_mapsTo rfl

/-- The converter's commands do not meet the slice (R80). -/
theorem exec_withSlice (h : (∃ f w pad, i = .cfg f w pad) ∨ (∃ sym, i = .push sym) ∨ i = .fin ∨ i = .pop)
    (x : List XSym) (s : State) : MapsTo (withSlice x) (exec i s) (exec i (withSlice x s)) := by
  obtain ⟨f, w, pad, rfl⟩ | ⟨sym, rfl⟩ | rfl | rfl := h
  · exact execCfg_withSlice f w pad x s
  · exact execPush_withSlice sym x s
  · exact execFin_withSlice x s
  · exact execPop_withSlice x s

/-- The state `c` with the slice and the responses of another: all that the extractor's commands write. -/
def withExtractorOf (c s : State) : State := { c with xsym := s.xsym, responses := s.responses }

/-- XPUSH meets nothing but the slice (R78, R80). -/
theorem execXpush_withExtractorOf (sym : BitVec 8) (c s : State) :
    MapsTo (withExtractorOf c) (execXpush sym s) (execXpush sym (withExtractorOf c s)) :=
  ite_mapsTo (respond_mapsTo rfl) (ite_mapsTo (respond_mapsTo rfl) (respond_mapsTo rfl))

/-- XRUN meets nothing but the slice (R79, R80). -/
theorem execXrun_withExtractorOf (d : BitVec 7) (c s : State) :
    MapsTo (withExtractorOf c) (execXrun d s) (execXrun d (withExtractorOf c s)) :=
  ite_mapsTo (respond_mapsTo rfl) (ite_mapsTo (respond_mapsTo rfl) (respond_mapsTo rfl))

/-- The extractor's commands meet nothing but the slice (R80). -/
theorem exec_withExtractorOf (h : (∃ sym, i = .xpush sym) ∨ ∃ d, i = .xrun d) (c s : State) :
    MapsTo (withExtractorOf c) (exec i s) (exec i (withExtractorOf c s)) := by
  obtain ⟨sym, rfl⟩ | ⟨d, rfl⟩ := h
  · exact execXpush_withExtractorOf sym c s
  · exact execXrun_withExtractorOf d c s

end Sys2Proof.Machine
end

section
/-! The statements of 41_extractor.md: O24, O25, O34, O47 and O49. -/

open Sys2Proof Sys2Proof.Machine

/-- Settles O24: a symbol of 32 or more is one that fails `FitsWidth`, and cutting a fitting one to 5 bits is taking its
number. -/
theorem xpushAppendsOneSymbol : Obligations.XpushAppendsOneSymbol := by
  intro sym s
  have hword : (0b01010000#8 ++ sym : CmdWord) = encode (.xpush sym) := rfl
  refine ⟨hword ▸ execWord_encode (.xpush sym) s, ?_⟩
  rw [BitVec.ofNat_toNat]
  exact if_congr not_lt rfl rfl

/-- Settles O25: a D above 64 is one that fails `LegalDatabits`. -/
theorem xrunExtractsAndConsumesTheSlice : Obligations.XrunExtractsAndConsumesTheSlice := by
  intro d s
  have hword : (0b011000000#9 ++ d : CmdWord) = encode (.xrun d) := rfl
  exact ⟨hword ▸ execWord_encode (.xrun d) s, if_congr not_le rfl rfl⟩

/-- Settles O34: each unit's commands answer the same whatever the other holds, and that they leave it is the case of what it
holds already. -/
theorem unitsDoNotAffectEachOther : Obligations.UnitsDoNotAffectEachOther := by
  constructor
  · intro i s t x hi ht
    have hsame : t = withSlice s.xsym t := eq_of_mapsTo_self (exec_withSlice hi s.xsym s) ht
    have hleft : t.xsym = (withSlice s.xsym t).xsym := congrArg State.xsym hsame
    exact ⟨hleft, next_of_mapsTo (exec_withSlice hi x s) ht⟩
  · intro i s t c hi ht
    have hsame : t = withExtractorOf s t := eq_of_mapsTo_self (exec_withExtractorOf hi s s) ht
    refine ⟨?_, next_of_mapsTo (exec_withExtractorOf hi c s) ht⟩
    rw [hsame]
    exact ⟨rfl, rfl, rfl, rfl, rfl, rfl, rfl, rfl, rfl⟩

/-- Settles O47, by the closed form of the bytes and the tail of D bits in whole symbols. -/
theorem extractHasTheClosedForm : Obligations.ExtractHasTheClosedForm := by
  intro d syms _ hfits n hn
  have hlen : (extractBytes d syms).length = (5 * n + 7) / 8 := extractBytes_length hfits hn
  obtain ⟨hle, htail, hdvd⟩ : d ≤ 5 * n ∧ 5 * n - d ≤ 4 ∧ (5 * n - d = 0 ↔ 5 ∣ d) := ceilDiv_five_tail d
  exact ⟨extract_eq hfits hn, extract_lt d syms, hlen, by omega, hle, htail, hdvd⟩

/-- Settles O49: each value is the number of the symbols pushed, which an extraction of all their bits gives back. -/
theorem timestampLengthAndTagComeBack : Obligations.TimestampLengthAndTagComeBack := by
  intro k hempty
  refine ⟨fun v hv => ?_, fun a b ha hb => ?_, fun a ha => ?_⟩
  · have hfits : ∀ x ∈ (List.range 7).map fun j => v / 2 ^ (5 * (6 - j)) % 32, x < 2 ^ 5 :=
      List.forall_mem_map.mpr fun j _ => Nat.mod_lt _ (by decide)
    have hback := xpushAll_xrun_of_exact (d := 35) hempty hfits rfl (by decide)
    rwa [streamValue_digits hv, xpushAll, List.map_map] at hback
  · have hvalue : streamValue 5 [a, b] = 32 * a + b := by simp [streamValue, Nat.mul_comm]
    have hback := xpushAll_xrun_of_exact (d := 10) (syms := [a, b]) hempty (by simp [ha, hb]) rfl (by decide)
    rwa [hvalue] at hback
  · have hvalue : streamValue 5 [a] = a := by simp [streamValue]
    have hback := xpushAll_xrun_of_exact (d := 5) (syms := [a]) hempty (by simp [ha]) rfl (by decide)
    rwa [hvalue] at hback

end

/-! ## Proofs about the control commands (42_control.md) -/

section
/-! SUPPORT. The status word as its fields side by side (42_control.md R85). The formula ORs each field shifted to its place and
cuts the result to 64 bits; the fields stand in disjoint places that fill the 64 bits, so both say the same where the two
lengths fit their fields. -/

namespace Sys2Proof.Machine

variable {s : State}

/-- The status word as R85's table draws it, most significant field first. -/
def statFields (s : State) : Data :=
  0#28 ++ BitVec.ofNat 4 s.xsym.length ++ BitVec.ofNat 8 s.outq.length ++ s.bits ++ 0#3 ++ BitVec.ofBool s.pad ++ s.toBits ++
    s.fromBits ++ s.err ++ 0#2 ++ s.mode.code

/-- OUTQ's length fits R85's 8 bits: OUTQ_DEPTH is at most 255 (R9, R30). -/
theorem outq_length_lt (h : s.Wf) : s.outq.length < 2 ^ 8 := by
  obtain ⟨⟨-, hdepth⟩, -, -, -, -, -, -, ⟨hlen, -⟩, -, -⟩ := h
  exact (hlen.trans hdepth).trans_lt (by decide)

/-- XSYM's length fits R85's 4 bits: a slice has at most 13 symbols (R8, R30). -/
theorem xsym_length_lt (h : s.Wf) : s.xsym.length < 2 ^ 4 := by
  obtain ⟨-, -, -, -, -, -, -, -, hx, -⟩ := h
  exact Nat.lt_of_le_of_lt hx (by decide)

/-- The fields side by side have the value of R85's formula: each ends up shifted by the sum of the widths to its right, and
the zero fields add nothing. -/
theorem toNat_statFields (h : s.Wf) : (statFields s).toNat = statNumber s := by
  have houtq : (BitVec.ofNat 8 s.outq.length).toNat = s.outq.length := Nat.mod_eq_of_lt (outq_length_lt h)
  have hxsym : (BitVec.ofNat 4 s.xsym.length).toNat = s.xsym.length := Nat.mod_eq_of_lt (xsym_length_lt h)
  have hplaces : (statFields s).toNat = s.xsym.length <<< 32 ||| s.outq.length <<< 24 ||| s.bits.toNat <<< 20
      ||| s.pad.toNat <<< 16 ||| s.toBits.toNat <<< 12 ||| s.fromBits.toNat <<< 8 ||| s.err.toNat <<< 4
      ||| s.mode.code.toNat := by
    refine (BitVec.toNat_append _ s.mode.code).trans ?_
    simp only [BitVec.toNat_append, houtq, hxsym, BitVec.toNat_ofBool, BitVec.toNat_ofNat, Nat.zero_mod,
      Nat.shiftLeft_or_distrib, ← Nat.shiftLeft_add, Nat.zero_shiftLeft, Nat.zero_or, Nat.or_zero]
  rw [hplaces, statNumber]
  simp only [Nat.or_comm, Nat.or_assoc, Nat.or_left_comm]

/-- STAT's DATA has every field in its place and 0 elsewhere (R85). -/
theorem statWord_eq_statFields (h : s.Wf) : statWord s = statFields s := by
  rw [statWord, ← toNat_statFields h, BitVec.ofNat_toNat, BitVec.setWidth_eq]

end Sys2Proof.Machine
end

section
/-! The statements of 42_control.md: O17, O18 and O19. -/

open Sys2Proof Sys2Proof.Machine

/-- Settles O17: the word is NOP's, and NOP only answers. -/
theorem nopAnswersOkAndChangesNothing : Obligations.NopAnswersOkAndChangesNothing := fun s =>
  ⟨execWord_encode .nop s, execNop_next.mpr rfl⟩

/-- Settles O18: the word is STAT's, STAT only answers, and what it answers is R85's fields side by side. -/
theorem statAnswersTheStatusWord : Obligations.StatAnswersTheStatusWord := by
  intro s hs
  refine ⟨execWord_encode .stat s, execStat_next.mpr ?_⟩
  rw [statWord_eq_statFields hs]
  rfl

/-- Settles O19: the word is RST's, and RST answers from the reset state (R31). -/
theorem rstRestoresTheResetState : Obligations.RstRestoresTheResetState := fun s =>
  ⟨execWord_encode .rst s, execRst_next.mpr rfl⟩

end

/-! ## Proofs about the errors and the instances of a platform (60_exceptions.md) -/

section
/-! SUPPORT. The table of errors (60_exceptions.md R91) with the order of the checks (R96), as one relation. A word that is not
answered OK is answered as its row says (`ok_or_errorRow`), and every row is answered so (`execWord_of_errorRow`). -/

namespace Sys2Proof.Machine

variable {w : CmdWord} {s t : State} {st : Status}

/-- The three outcomes of an error (R93, R94, R95). -/
inductive ErrorOutcome where
  | reject
  | abort
  | xdiscard

/-- What an outcome writes before the error is answered (R93, R94, R95). -/
def ErrorOutcome.writes : ErrorOutcome → Status → State → State
  | .reject, _ => id
  | .abort, st => enterError st
  | .xdiscard, _ => dropSlice

/-- The rows of R91's table: the word decodes to a command that raises the error, its cause holds, and the conditions checked
before it in R96's order do not. -/
inductive ErrorRow (w : CmdWord) (s : State) : Status → ErrorOutcome → Prop
  | illegal (hw : ∀ i, decode w ≠ .ok i) : ErrorRow w s .eIllegal .reject
  | cfgParam {f u pad} (hw : decode w = .ok (.cfg f u pad)) (hwidths : ¬(LegalWidth f ∧ LegalWidth u)) :
      ErrorRow w s .eParam .reject
  | pushState {sym} (hw : decode w = .ok (.push sym)) (hmode : s.mode ≠ .run) : ErrorRow w s .eState .reject
  | pushRange {sym} (hw : decode w = .ok (.push sym)) (hmode : s.mode = .run)
      (hwide : 2 ^ s.fromBits.toNat ≤ sym.toNat) : ErrorRow w s .eRange .abort
  | pushFull {sym} (hw : decode w = .ok (.push sym)) (hmode : s.mode = .run)
      (hfits : sym.toNat < 2 ^ s.fromBits.toNat) (hfull : s.outqDepth < s.outq.length + pushEmits s) :
      ErrorRow w s .eFull .reject
  | finState (hw : decode w = .ok .fin) (hmode : s.mode ≠ .run) : ErrorRow w s .eState .reject
  | finFull (hw : decode w = .ok .fin) (hmode : s.mode = .run) (hpad : s.pad = true) (hbits : 0 < s.bits.toNat)
      (hfull : s.outq.length = s.outqDepth) : ErrorRow w s .eFull .reject
  | finConv (hw : decode w = .ok .fin) (hmode : s.mode = .run) (hpad : s.pad = false)
      (hresidual : s.fromBits.toNat ≤ s.bits.toNat ∨ finResidual s ≠ 0) : ErrorRow w s .eConv .abort
  | popEmpty (hw : decode w = .ok .pop) (hempty : s.outq = []) : ErrorRow w s .eEmpty .reject
  | xpushRange {sym} (hw : decode w = .ok (.xpush sym)) (hwide : 32 ≤ sym.toNat) : ErrorRow w s .eRange .xdiscard
  | xpushFull {sym} (hw : decode w = .ok (.xpush sym)) (hfits : sym.toNat < 32) (hfull : s.xsym.length = 13) :
      ErrorRow w s .eFull .reject
  | xrunParam {d} (hw : decode w = .ok (.xrun d)) (hwide : 64 < d.toNat) : ErrorRow w s .eParam .xdiscard
  | xrunTrunc {d} (hw : decode w = .ok (.xrun d)) (hfits : d.toNat ≤ 64) (hshort : s.xsym.length < ceilDiv d.toNat 5) :
      ErrorRow w s .eTrunc .xdiscard

/-- The word was answered OK, or as a row of the table of errors says. -/
def OkOrErrorRow (w : CmdWord) (s t : State) : Prop :=
  lastStatus t = some .ok ∨ ∃ st o, ErrorRow w s st o ∧ t = answer st 0 (o.writes st s)

/-- An answer OK. -/
theorem okOrErrorRow_of_ok {data : Data} {u : State} : OkOrErrorRow w s (answer .ok data u) := .inl (lastStatus_answer ..)

/-- An answer that a row gives. -/
theorem okOrErrorRow_of_row {o : ErrorOutcome} (row : ErrorRow w s st o) :
    OkOrErrorRow w s (answer st 0 (o.writes st s)) := .inr ⟨st, o, row, rfl⟩

/-- PUSH fails only as its rows say (R64). -/
theorem push_okOrErrorRow {sym : BitVec 8} (hw : decode w = .ok (.push sym)) (h : execPush sym s = .next t) :
    OkOrErrorRow w s t := by
  rcases execPush_cases h with ⟨hm, rfl⟩ | ⟨hm, hf, rfl⟩ | ⟨hm, hf, hd, rfl⟩ | ⟨-, -, -, rfl⟩
  · exact okOrErrorRow_of_row (.pushState hw hm)
  · exact okOrErrorRow_of_row (.pushRange hw hm (not_lt.mp hf))
  · exact okOrErrorRow_of_row (.pushFull hw hm hf hd)
  · exact okOrErrorRow_of_ok

/-- FIN fails only as its rows say (R65). -/
theorem fin_okOrErrorRow (hw : decode w = .ok .fin) (h : execFin s = .next t) : OkOrErrorRow w s t := by
  rcases execFin_cases h with ⟨hm, rfl⟩ | ⟨hm, hp, hb, hd, rfl⟩ | ⟨-, -, -, -, rfl⟩ | ⟨-, -, -, rfl⟩ |
    ⟨hm, hp, hr, rfl⟩ | ⟨-, -, -, -, rfl⟩
  · exact okOrErrorRow_of_row (.finState hw hm)
  · exact okOrErrorRow_of_row (.finFull hw hm hp hb hd)
  · exact okOrErrorRow_of_ok
  · exact okOrErrorRow_of_ok
  · exact okOrErrorRow_of_row (.finConv hw hm hp hr)
  · exact okOrErrorRow_of_ok

/-- XPUSH fails only as its rows say (R78). -/
theorem xpush_okOrErrorRow {sym : BitVec 8} (hw : decode w = .ok (.xpush sym)) (h : execXpush sym s = .next t) :
    OkOrErrorRow w s t := by
  rcases execXpush_cases h with ⟨hf, rfl⟩ | ⟨hf, hd, rfl⟩ | ⟨-, -, rfl⟩
  · exact okOrErrorRow_of_row (.xpushRange hw (not_lt.mp hf))
  · exact okOrErrorRow_of_row (.xpushFull hw hf hd)
  · exact okOrErrorRow_of_ok

/-- XRUN fails only as its rows say (R79). -/
theorem xrun_okOrErrorRow {d : BitVec 7} (hw : decode w = .ok (.xrun d)) (h : execXrun d s = .next t) :
    OkOrErrorRow w s t := by
  rcases execXrun_cases h with ⟨hd, rfl⟩ | ⟨hd, hn, rfl⟩ | ⟨-, -, rfl⟩
  · exact okOrErrorRow_of_row (.xrunParam hw hd)
  · exact okOrErrorRow_of_row (.xrunTrunc hw hd hn)
  · exact okOrErrorRow_of_ok

/-- Every word fails only as its rows say (R91, R96). -/
theorem ok_or_errorRow (h : execWord w s = .next t) : OkOrErrorRow w s t := by
  cases hw : decode w with
  | error r =>
    obtain rfl := execIllegal_next.mp (execWord_illegal hw ▸ h)
    exact okOrErrorRow_of_row (.illegal (by simp [hw]))
  | ok i =>
    rw [execWord_ok hw] at h
    cases i with
    | nop =>
      obtain rfl := execNop_next.mp h
      exact okOrErrorRow_of_ok
    | cfg f u pad =>
      rcases execCfg_cases h with ⟨-, rfl⟩ | ⟨hl, rfl⟩
      · exact okOrErrorRow_of_ok
      · exact okOrErrorRow_of_row (.cfgParam hw hl)
    | push sym => exact push_okOrErrorRow hw h
    | fin => exact fin_okOrErrorRow hw h
    | pop =>
      rcases execPop_cases h with ⟨hq, rfl⟩ | ⟨v, rest, -, rfl⟩
      · exact okOrErrorRow_of_row (.popEmpty hw hq)
      · exact okOrErrorRow_of_ok
    | xpush sym => exact xpush_okOrErrorRow hw h
    | xrun d => exact xrun_okOrErrorRow hw h
    | stat =>
      obtain rfl := execStat_next.mp h
      exact okOrErrorRow_of_ok
    | rst =>
      obtain rfl := execRst_next.mp h
      exact okOrErrorRow_of_ok

/-- A PUSH with no conversion open (R64, R96). -/
theorem execPush_of_not_run {sym : BitVec 8} (hm : s.mode ≠ .run) : execPush sym s = reject .eState s := if_pos hm

/-- A FIN with no conversion open (R65, R96). -/
theorem execFin_of_not_run (hm : s.mode ≠ .run) : execFin s = reject .eState s := if_pos hm

/-- Past the mode check, FIN follows the padding policy (R65). -/
theorem execFin_of_run (hm : s.mode = .run) : execFin s = if s.pad then finPadded s else finUnpadded s :=
  if_neg (not_not.mpr hm)

/-- Where a row's conditions hold, the word is answered with the row's status and outcome (R91, R96). -/
theorem execWord_of_errorRow {o : ErrorOutcome} (row : ErrorRow w s st o) :
    execWord w s = .next (answer st 0 (o.writes st s)) := by
  cases row with
  | illegal hw =>
    obtain ⟨r, hr⟩ := decode_error_of_ne_ok hw
    exact execWord_illegal hr
  | cfgParam hw hl => exact (execWord_ok hw).trans (if_neg hl)
  | pushState hw hm => exact (execWord_ok hw).trans (execPush_of_not_run hm)
  | pushRange hw hm hf => exact (execWord_ok hw).trans (execPush_too_wide hm (not_lt.mpr hf))
  | pushFull hw hm hf hd =>
    exact (execWord_ok hw).trans <|
      (if_neg (not_not.mpr hm)).trans <| (if_neg (not_not.mpr hf)).trans (if_pos hd)
  | finState hw hm => exact (execWord_ok hw).trans (execFin_of_not_run hm)
  | finFull hw hm hp hb hd =>
    exact (execWord_ok hw).trans <| (execFin_of_run hm).trans <| (if_pos hp).trans <| (if_pos hb).trans (if_pos hd)
  | finConv hw hm hp hr =>
    exact (execWord_ok hw).trans <| (execFin_of_run hm).trans <| (if_neg (by simp [hp])).trans (if_pos hr)
  | popEmpty hw hq => exact (execWord_ok hw).trans (execPop_nil hq)
  | xpushRange hw hf => exact (execWord_ok hw).trans (if_pos (not_lt.mpr hf))
  | xpushFull hw hf hd => exact (execWord_ok hw).trans <| (if_neg (not_not.mpr hf)).trans (if_pos hd)
  | xrunParam hw hd => exact (execWord_ok hw).trans (if_pos (not_le.mpr hd))
  | xrunTrunc hw hd hn => exact (execWord_ok hw).trans <| (if_neg (not_not.mpr hd)).trans (if_pos hn)

/-- The state after a word that a row is about. -/
theorem eq_of_errorRow {o : ErrorOutcome} (row : ErrorRow w s st o) (h : execWord w s = .next t) :
    t = answer st 0 (o.writes st s) := Host.Outcome.next.inj (h.symm.trans (execWord_of_errorRow row))

/-- An error that is answered is one of a row that holds, and that row's outcome is the whole effect (R91). -/
theorem exists_errorRow (hst : st ≠ .ok) (h : execWord w s = .next t) (hlast : lastStatus t = some st) :
    ∃ o, ErrorRow w s st o ∧ t = answer st 0 (o.writes st s) := by
  rcases ok_or_errorRow h with hok | ⟨st', o, row, rfl⟩
  · exact absurd (Option.some.inj (hlast.symm.trans hok)) hst
  · obtain rfl : st' = st := by simpa using hlast
    exact ⟨o, row, rfl⟩

/-- An error is answered exactly where one of its rows holds (R96). -/
theorem lastStatus_eq_iff_errorRow (hst : st ≠ .ok) (h : execWord w s = .next t) :
    lastStatus t = some st ↔ ∃ o, ErrorRow w s st o := by
  constructor
  · intro hlast
    obtain ⟨o, row, -⟩ := exists_errorRow hst h hlast
    exact ⟨o, row⟩
  · rintro ⟨o, row⟩
    rw [eq_of_errorRow row h, lastStatus_answer]

/-! ### The rows of each error -/

/-- E_ILLEGAL: decoding fails (R53, R54). -/
theorem errorRow_eIllegal_iff : (∃ o, ErrorRow w s .eIllegal o) ↔ ∀ i, decode w ≠ .ok i := by
  constructor
  · rintro ⟨o, row⟩
    cases row with
    | illegal hw => exact hw
  · exact fun hw => ⟨_, .illegal hw⟩

/-- E_PARAM: CFG with an illegal width, XRUN of more than 64 bits (R63, R79). -/
theorem errorRow_eParam_iff : (∃ o, ErrorRow w s .eParam o) ↔
    (∃ f u pad, decode w = .ok (.cfg f u pad) ∧ ¬(LegalWidth f ∧ LegalWidth u)) ∨
      ∃ d, decode w = .ok (.xrun d) ∧ 64 < d.toNat := by
  constructor
  · rintro ⟨o, row⟩
    cases row with
    | cfgParam hw hl => exact .inl ⟨_, _, _, hw, hl⟩
    | xrunParam hw hd => exact .inr ⟨_, hw, hd⟩
  · rintro (⟨f, u, pad, hw, hl⟩ | ⟨d, hw, hd⟩)
    · exact ⟨_, .cfgParam hw hl⟩
    · exact ⟨_, .xrunParam hw hd⟩

/-- E_RANGE: a symbol too wide for PUSH in RUN, or for XPUSH (R64, R78). -/
theorem errorRow_eRange_iff : (∃ o, ErrorRow w s .eRange o) ↔
    (∃ sym, decode w = .ok (.push sym) ∧ s.mode = .run ∧ 2 ^ s.fromBits.toNat ≤ sym.toNat) ∨
      ∃ sym, decode w = .ok (.xpush sym) ∧ 32 ≤ sym.toNat := by
  constructor
  · rintro ⟨o, row⟩
    cases row with
    | pushRange hw hm hf => exact .inl ⟨_, hw, hm, hf⟩
    | xpushRange hw hf => exact .inr ⟨_, hw, hf⟩
  · rintro (⟨sym, hw, hm, hf⟩ | ⟨sym, hw, hf⟩)
    · exact ⟨_, .pushRange hw hm hf⟩
    · exact ⟨_, .xpushRange hw hf⟩

/-- E_STATE: PUSH or FIN outside RUN (R64, R65). -/
theorem errorRow_eState_iff : (∃ o, ErrorRow w s .eState o) ↔
    ((∃ sym, decode w = .ok (.push sym)) ∨ decode w = .ok .fin) ∧ s.mode ≠ .run := by
  constructor
  · rintro ⟨o, row⟩
    cases row with
    | pushState hw hm => exact ⟨.inl ⟨_, hw⟩, hm⟩
    | finState hw hm => exact ⟨.inr hw, hm⟩
  · rintro ⟨⟨sym, hw⟩ | hw, hm⟩
    · exact ⟨_, .pushState hw hm⟩
    · exact ⟨_, .finState hw hm⟩

/-- E_FULL: no room in OUTQ for PUSH's or FIN's symbols, or in XSYM for XPUSH's (R64, R65, R78). -/
theorem errorRow_eFull_iff : (∃ o, ErrorRow w s .eFull o) ↔
    (∃ sym, decode w = .ok (.push sym) ∧ s.mode = .run ∧ sym.toNat < 2 ^ s.fromBits.toNat ∧
      s.outqDepth < s.outq.length + pushEmits s) ∨
    (decode w = .ok .fin ∧ s.mode = .run ∧ s.pad = true ∧ 0 < s.bits.toNat ∧ s.outq.length = s.outqDepth) ∨
      ∃ sym, decode w = .ok (.xpush sym) ∧ sym.toNat < 32 ∧ s.xsym.length = 13 := by
  constructor
  · rintro ⟨o, row⟩
    cases row with
    | pushFull hw hm hf hd => exact .inl ⟨_, hw, hm, hf, hd⟩
    | finFull hw hm hp hb hd => exact .inr (.inl ⟨hw, hm, hp, hb, hd⟩)
    | xpushFull hw hf hd => exact .inr (.inr ⟨_, hw, hf, hd⟩)
  · rintro (⟨sym, hw, hm, hf, hd⟩ | ⟨hw, hm, hp, hb, hd⟩ | ⟨sym, hw, hf, hd⟩)
    · exact ⟨_, .pushFull hw hm hf hd⟩
    · exact ⟨_, .finFull hw hm hp hb hd⟩
    · exact ⟨_, .xpushFull hw hf hd⟩

/-- E_EMPTY: POP on an empty OUTQ (R66). -/
theorem errorRow_eEmpty_iff : (∃ o, ErrorRow w s .eEmpty o) ↔ decode w = .ok .pop ∧ s.outq = [] := by
  constructor
  · rintro ⟨o, row⟩
    cases row with
    | popEmpty hw hq => exact ⟨hw, hq⟩
  · exact fun ⟨hw, hq⟩ => ⟨_, .popEmpty hw hq⟩

/-- E_CONV: FIN without padding on a residual that is too long or not all zero (R65). -/
theorem errorRow_eConv_iff : (∃ o, ErrorRow w s .eConv o) ↔
    decode w = .ok .fin ∧ s.mode = .run ∧ s.pad = false ∧
      (s.fromBits.toNat ≤ s.bits.toNat ∨ finResidual s ≠ 0) := by
  constructor
  · rintro ⟨o, row⟩
    cases row with
    | finConv hw hm hp hr => exact ⟨hw, hm, hp, hr⟩
  · exact fun ⟨hw, hm, hp, hr⟩ => ⟨_, .finConv hw hm hp hr⟩

/-- E_TRUNC: XRUN on a slice too short (R79). -/
theorem errorRow_eTrunc_iff : (∃ o, ErrorRow w s .eTrunc o) ↔
    ∃ d, decode w = .ok (.xrun d) ∧ d.toNat ≤ 64 ∧ s.xsym.length < ceilDiv d.toNat 5 := by
  constructor
  · rintro ⟨o, row⟩
    cases row with
    | xrunTrunc hw hd hn => exact ⟨_, hw, hd, hn⟩
  · exact fun ⟨_, hw, hd, hn⟩ => ⟨_, .xrunTrunc hw hd hn⟩

/-! ### The outcome of each row -/

/-- The rows that reject (R93). -/
theorem outcome_eq_reject {o : ErrorOutcome} (row : ErrorRow w s st o)
    (hst : st = .eIllegal ∨ st = .eState ∨ st = .eFull ∨ st = .eEmpty ∨
      (st = .eParam ∧ ∃ f u pad, decode w = .ok (.cfg f u pad))) : o = .reject := by
  cases row with
  | xrunParam hw _ => simp [hw] at hst
  | pushRange | finConv | xpushRange | xrunTrunc => simp at hst
  | _ => rfl

/-- The rows that abort (R94). -/
theorem outcome_eq_abort {o : ErrorOutcome} (row : ErrorRow w s st o)
    (hst : st = .eConv ∨ (st = .eRange ∧ ∃ sym, decode w = .ok (.push sym))) : o = .abort := by
  cases row with
  | pushRange | finConv => rfl
  | xpushRange hw _ => simp [hw] at hst
  | _ => simp at hst

/-- The rows that discard the slice (R95). -/
theorem outcome_eq_xdiscard {o : ErrorOutcome} (row : ErrorRow w s st o)
    (hst : st = .eTrunc ∨ (st = .eRange ∧ ∃ sym, decode w = .ok (.xpush sym)) ∨
      (st = .eParam ∧ ∃ d, decode w = .ok (.xrun d))) : o = .xdiscard := by
  cases row with
  | xpushRange | xrunParam | xrunTrunc => rfl
  | pushRange hw | cfgParam hw => simp [hw] at hst
  | _ => simp at hst

end Sys2Proof.Machine
end

section
/-! SUPPORT. What can change in ERROR (60_exceptions.md R99, R100), and that every event is answered (R98). -/

namespace Sys2Proof.Machine

variable {w : CmdWord} {s t : State}

/-- In ERROR a command keeps MODE and ERR, unless it is a legal CFG or RST (R99, R100). -/
theorem exec_in_error {i : Instr} (hm : s.mode = .error) (h : exec i s = .next t) :
    (t.mode = .error ∧ t.err = s.err) ∨
    (∃ f u pad, i = .cfg f u pad ∧ LegalWidth f ∧ LegalWidth u ∧ t = answer .ok 0 (openConversion f u pad s)) ∨
    (i = .rst ∧ t = answer .ok 0 (toReset s)) := by
  have hrun : s.mode ≠ .run := by simp [hm]
  cases i with
  | cfg f u pad =>
    rcases execCfg_cases h with ⟨⟨hf, hu⟩, rfl⟩ | ⟨-, rfl⟩
    · exact .inr (.inl ⟨f, u, pad, rfl, hf, hu, rfl⟩)
    · exact .inl ⟨hm, rfl⟩
  | push sym =>
    obtain rfl := reject_next.mp ((execPush_of_not_run hrun).symm.trans h)
    exact .inl ⟨hm, rfl⟩
  | fin =>
    obtain rfl := reject_next.mp ((execFin_of_not_run hrun).symm.trans h)
    exact .inl ⟨hm, rfl⟩
  | pop => rcases execPop_cases h with ⟨-, rfl⟩ | ⟨v, rest, -, rfl⟩ <;> exact .inl ⟨hm, rfl⟩
  | rst => exact .inr (.inr ⟨rfl, execRst_next.mp h⟩)
  | nop | xpush | xrun | stat =>
    obtain ⟨hmode, herr, -⟩ := exec_other_sameConverter rfl h
    exact .inl ⟨hmode ▸ hm, herr.symm⟩

/-- In ERROR a word keeps MODE and ERR, unless it is a legal CFG or RST (R87, R99, R100). -/
theorem execWord_in_error (hm : s.mode = .error) (h : execWord w s = .next t) :
    (t.mode = .error ∧ t.err = s.err) ∨
    (∃ f u pad, decode w = .ok (.cfg f u pad) ∧ LegalWidth f ∧ LegalWidth u ∧
      t = answer .ok 0 (openConversion f u pad s)) ∨
    (decode w = .ok .rst ∧ t = answer .ok 0 (toReset s)) := by
  cases hw : decode w with
  | error r =>
    obtain rfl := execIllegal_next.mp (execWord_illegal hw ▸ h)
    exact .inl ⟨hm, rfl⟩
  | ok i => simpa only [Except.ok.injEq] using exec_in_error hm (execWord_ok hw ▸ h)

/-- Agreement on the converter is symmetric. -/
theorem sameConverter_symm (h : s.SameConverter t) : t.SameConverter s := by
  obtain ⟨hmode, herr, hf, ht, hpad, hacc, hbits, hq, hd⟩ := h
  exact ⟨hmode.symm, herr.symm, hf.symm, ht.symm, hpad.symm, hacc.symm, hbits.symm, hq.symm, hd.symm⟩

/-- The commands R99 lists behave in every mode as in this one: the same response, but for STAT's DATA, and the same slice
(R80, R99). -/
theorem exec_other_in_mode {i : Instr} {m : Mode} {u : State}
    (hi : (∃ sym, i = .xpush sym) ∨ (∃ d, i = .xrun d) ∨ i = .stat ∨ i = .nop) (ht : exec i s = .next t)
    (hu : exec i { s with mode := m } = .next u) :
    lastStatus u = lastStatus t ∧ u.xsym = t.xsym ∧ (i ≠ .stat → lastData u = lastData t) := by
  have extractor (hx : (∃ sym, i = .xpush sym) ∨ ∃ d, i = .xrun d) : u = withExtractorOf { s with mode := m } t :=
    Host.Outcome.next.inj (hu.symm.trans (next_of_mapsTo (exec_withExtractorOf hx { s with mode := m } s) ht))
  rcases hi with hx | hx | rfl | rfl
  · rw [extractor (.inl hx)]
    exact ⟨rfl, rfl, fun _ => rfl⟩
  · rw [extractor (.inr hx)]
    exact ⟨rfl, rfl, fun _ => rfl⟩
  · obtain rfl := execStat_next.mp ht
    obtain rfl := execStat_next.mp hu
    exact ⟨by simp, rfl, fun h => absurd rfl h⟩
  · obtain rfl := execNop_next.mp ht
    obtain rfl := execNop_next.mp hu
    exact ⟨rfl, rfl, fun _ => rfl⟩

/-- Every event is answered in every state (R98, R107). -/
theorem execEvent_answers (e : HostEvent) (s : State) : ∃ t, execEvent e s = .next t := by
  obtain ⟨t, -, ht, -, -⟩ := execEvent_agree e (sameVisible_refl s)
  exact ⟨t, ht⟩

end Sys2Proof.Machine
end

section
/-! The statements of 60_exceptions.md: O28 to O32 and O53. -/

open Sys2Proof Sys2Proof.Machine

/-- Settles O28: an error is answered exactly where one of its rows in the table of errors holds, and the rows of each error
are its causes. -/
theorem eachErrorHasExactlyItsCause : Obligations.EachErrorHasExactlyItsCause := by
  intro w s t h
  have hrow {st : Status} (hst : st ≠ .ok) := lastStatus_eq_iff_errorRow hst h
  rw [← finResidual_eq]
  exact ⟨(hrow (by decide)).trans errorRow_eIllegal_iff, (hrow (by decide)).trans errorRow_eParam_iff,
    (hrow (by decide)).trans errorRow_eRange_iff, (hrow (by decide)).trans errorRow_eState_iff,
    (hrow (by decide)).trans errorRow_eFull_iff, (hrow (by decide)).trans errorRow_eEmpty_iff,
    (hrow (by decide)).trans errorRow_eConv_iff, (hrow (by decide)).trans errorRow_eTrunc_iff⟩

/-- Settles O29: the status and the command name the row, and the row names the outcome. -/
theorem errorsRejectAbortOrDiscard : Obligations.ErrorsRejectAbortOrDiscard := by
  intro w s t st h hlast
  refine ⟨fun hst => ?_, fun hst => ?_, fun hst => ?_⟩ <;>
    obtain ⟨o, row, rfl⟩ := exists_errorRow (by rintro rfl; simp at hst) h hlast
  · obtain rfl := outcome_eq_reject row hst
    rfl
  · obtain rfl := outcome_eq_abort row hst
    rfl
  · obtain rfl := outcome_eq_xdiscard row hst
    rfl

/-- Settles O30: each consequence is the row whose conditions hold, whatever later condition holds with them. -/
theorem earlierChecksHideLaterOnes : Obligations.EarlierChecksHideLaterOnes := by
  refine ⟨fun w s t hw h => ?_, fun sym s t hm _ h => ?_, fun sym s t hm hwide _ h => ?_, fun sym s t hwide _ h => ?_⟩
  · rw [eq_of_errorRow (.illegal hw) h, lastStatus_answer]
  · rw [← execWord_encode] at h
    rw [eq_of_errorRow (.pushState (decode_encode _) hm) h]
    exact ⟨lastStatus_answer .., rfl⟩
  · rw [← execWord_encode] at h
    rw [eq_of_errorRow (.pushRange (decode_encode _) hm hwide) h]
    exact ⟨lastStatus_answer .., rfl⟩
  · rw [← execWord_encode] at h
    rw [eq_of_errorRow (.xpushRange (decode_encode _) hwide) h]
    exact ⟨lastStatus_answer .., rfl⟩

/-- Settles O31: `execWord_in_error` for the ways out, the checks of PUSH, FIN and POP for the converter, and for the other
commands that they neither read MODE nor write the converter's fields. -/
theorem errorIsLeftOnlyByCfgOrReset : Obligations.ErrorIsLeftOnlyByCfgOrReset := by
  intro s hs hm
  have hrun : s.mode ≠ .run := by simp [hm]
  obtain ⟨-, -, -, -, -, hnamed, -⟩ := hs
  obtain ⟨hq, -⟩ := hnamed hm
  refine ⟨fun w t h hleft => ?_, fun t h => ?_, fun sym => execPush_of_not_run hrun, execFin_of_not_run hrun,
    execPop_nil hq, fun i m t u hi ht hu => ?_⟩
  · rcases execWord_in_error hm h with ⟨hstay, -⟩ | ⟨f, u, pad, hw, hf, hu, rfl⟩ | ⟨hw, rfl⟩
    · exact absurd hstay hleft
    · exact .inl ⟨rfl, rfl, f, u, pad, hw, hf, hu⟩
    · exact .inr ⟨rfl, hw⟩
  · rw [hardwareReset_next.mp h, toReset_mode]
  · have hother : usesConverter i = false := by
      rcases hi with ⟨sym, rfl⟩ | ⟨d, rfl⟩ | rfl | rfl <;> rfl
    obtain ⟨hstatus, hslice, hdata⟩ := exec_other_in_mode hi ht hu
    exact ⟨hstatus, hslice, hdata, sameConverter_symm (exec_other_sameConverter hother ht)⟩

/-- Settles O32: of the ways `execWord_in_error` leaves, only keeping MODE and ERR is neither CFG nor RST; and the extractor's
commands leave the whole converter. -/
theorem firstCauseStaysInErr : Obligations.FirstCauseStaysInErr := by
  refine ⟨fun w s t hm h hcfg hrst => ?_, fun i s t hi h => ?_⟩
  · rcases execWord_in_error hm h with hstay | ⟨f, u, pad, hw, -⟩ | ⟨hw, -⟩
    · exact hstay
    · exact absurd hw (hcfg f u pad)
    · exact absurd hw hrst
  · have hother : usesConverter i = false := by
      rcases hi with ⟨sym, rfl⟩ | ⟨d, rfl⟩ <;> rfl
    obtain ⟨hmode, herr, -⟩ := exec_other_sameConverter hother h
    exact ⟨hmode.symm, herr.symm⟩

/-- Settles O53: an event rewrites one place of the platform's list, and there it is answered. -/
theorem instancesDoNotAffectEachOther : Obligations.InstancesDoNotAffectEachOther := by
  intro p n e
  refine ⟨List.length_modify .., fun m hmn => List.getElem?_modify_ne _ _ hmn.symm, fun s hs => ?_⟩
  obtain ⟨t, ht⟩ := execEvent_answers e s
  exact ⟨t, ht, by simp [issueTo, hs, ht]⟩

end

/-! ## Proofs about reset and what the host must do first (70_reset_and_hazards.md) -/

section
/-! SUPPORT. The unconfigured converter (70_reset_and_hazards.md R110): only a CFG that returns OK moves MODE to RUN, and outside RUN
a PUSH or a FIN is answered E_STATE. -/

namespace Sys2Proof.Machine

variable {s t : State} {i : Instr} {k : Tracked} {cs : List Instr}

/-- A command that is no CFG of two legal widths, so none that can return OK (R63). -/
def NoLegalCfg (i : Instr) : Prop := ∀ f w pad, i = .cfg f w pad → ¬(LegalWidth f ∧ LegalWidth w)

/-- Only a CFG that returns OK moves MODE to RUN (R16, R63). -/
theorem exec_not_run (hm : s.mode ≠ .run) (hi : NoLegalCfg i) (h : exec i s = .next t) : t.mode ≠ .run := by
  cases i with
  | cfg f w pad =>
    rcases execCfg_cases h with ⟨hlegal, -⟩ | ⟨-, rfl⟩
    · exact absurd hlegal (hi f w pad rfl)
    · exact hm
  | push sym =>
    obtain rfl := reject_next.mp ((execPush_of_not_run hm).symm.trans h)
    exact hm
  | fin =>
    obtain rfl := reject_next.mp ((execFin_of_not_run hm).symm.trans h)
    exact hm
  | pop => rcases execPop_cases h with ⟨-, rfl⟩ | ⟨v, rest, -, rfl⟩ <;> exact hm
  | rst =>
    obtain rfl := execRst_next.mp h
    simp
  | nop | xpush | xrun | stat =>
    obtain ⟨hmode, -⟩ := exec_other_sameConverter rfl h
    exact hmode ▸ hm

/-- A list of commands without a CFG that returns OK leaves the converter out of RUN (R110). -/
theorem issueAll_not_run (hm : k.state.mode ≠ .run) (hcs : ∀ c ∈ cs, NoLegalCfg c) :
    (k.issueAll cs).state.mode ≠ .run := by
  refine List.foldlRecOn (motive := fun j : Tracked => j.state.mode ≠ .run) cs Tracked.issue hm fun j hj i hi => ?_
  obtain ⟨t, ht⟩ := exec_answers i j.state
  rw [issue_of_next ht]
  exact exec_not_run hj (hcs i hi) ht

/-- A command that is rejected with a status is answered so on record too (R93). -/
theorem lastStatus_issue_of_reject {st : Status} (h : exec i k.state = reject st k.state) :
    lastStatus (k.issue i).state = some st := by
  rw [issue_of_next h, noteCommand_state, lastStatus_answer]

/-- At reset every field STAT reports is 0 (R31, R85). -/
theorem statWord_resetWith (d : Nat) : statWord (State.resetWith d) = 0 := by
  simp [statWord, statNumber, Mode.code]

/-- XRUN 0 answers (OK, 0) in every state and empties the slice: it needs no symbol and extracts a number of no bits (R76, R79). -/
theorem execXrun_zero (s : State) : execXrun 0 s = .next (answer .ok 0 (dropSlice s)) := by
  have hvalue : extract 0 (slice s) = 0 := Nat.lt_one_iff.mp (extract_lt 0 (slice s))
  have hrun := execXrun_of_enough (s := s) (d := 0) (Nat.zero_le _) (Nat.zero_le _)
  rwa [show (0 : BitVec 7).toNat = 0 from rfl, hvalue] at hrun

end Sys2Proof.Machine
end

section
/-! The statements of 70_reset_and_hazards.md: O8 and O16. -/

open Sys2Proof Sys2Proof.Machine

/-- Settles O8: the step takes the event and resets, and RST answers from the state a hardware reset leaves (R86). -/
theorem hardwareResetSetsEveryFieldAndAnswersNothing : Obligations.HardwareResetSetsEveryFieldAndAnswersNothing := by
  refine ⟨fun s rest hin => ?_, fun s t u ht hu => ?_⟩
  · exact (step_of_input hin).trans (hardwareReset_next.mpr rfl)
  · obtain rfl := hardwareReset_next.mp ht
    obtain rfl := execRst_next.mp hu
    rfl

/-- Settles O16: MODE is IDLE at reset and stays out of RUN until a CFG returns OK; the other commands' outcomes are their own
lemmas at the reset state. -/
theorem hostMustConfigureBeforeConverting : Obligations.HostMustConfigureBeforeConverting := by
  intro d
  refine ⟨fun cs hcs => ?_, fun sym hsym => ?_, execXrun_zero _, ?_, execNop_next.mpr rfl, execRst_next.mpr rfl,
    execPop_nil (s := State.resetWith d) rfl⟩
  · have hrun : ((Tracked.fresh (State.resetWith d)).issueAll cs).state.mode ≠ .run := issueAll_not_run (by simp) hcs
    exact ⟨fun sym => lastStatus_issue_of_reject (execPush_of_not_run hrun),
      lastStatus_issue_of_reject (execFin_of_not_run hrun)⟩
  · exact execXpush_of_room hsym (by simp)
  · exact execStat_next.mpr (by rw [statWord_resetWith]; rfl)

end

/-! ## Proofs about the record of a conversion (40_converter.md R67, R68; 20_memory.md R34) -/

section
/-! SUPPORT. All that one event can do to the machine and the record together (40_converter.md R67), said once: it opens a
conversion, feeds it, ends it, hands over an output, resets, or leaves both. What every event keeps, every step and every
list of commands keeps. -/

namespace Sys2Proof.Machine

/-- The word changes nothing on record (R67): it decodes to no command, or to one that does not use the converter, or to one that
was rejected. -/
def PassesBy (w : CmdWord) (after : State) : Prop :=
  ∀ i, decode w = .ok i → usesConverter i = true →
    i ≠ .rst ∧ ∃ st, lastStatus after = some st ∧ st ∉ [Status.ok, .eRange, .eConv]

/-- All that an event can do to the machine and the record (R67). -/
inductive Tracked.Takes (k : Tracked) : HostEvent → Tracked → Prop
  /-- A legal CFG (R63). -/
  | opens {w f u pad} (hw : decode w = .ok (.cfg f u pad)) (hwidths : LegalWidth f ∧ LegalWidth u) :
      k.Takes (.command w)
        ⟨answer .ok 0 (openConversion f u pad k.state), Conversion.start f u pad, k.past ++ k.conv.leftBehind⟩
  /-- An accepted PUSH (R64). -/
  | feeds {w sym} (hw : decode w = .ok (.push sym)) (hmode : k.state.mode = .run)
      (hfits : FitsWidth sym k.state.fromBits.toNat) :
      k.Takes (.command w)
        ⟨answer .ok 0 (acceptSymbol sym k.state),
          { k.conv with
            pushed := k.conv.pushed ++ [sym]
            emitted := k.conv.emitted ++ (pushEmission sym k.state).1.map (BitVec.ofNat 8) }, k.past⟩
  /-- A PUSH of a too wide symbol (R64). -/
  | overruns {w sym} (hw : decode w = .ok (.push sym)) (hmode : k.state.mode = .run)
      (hwide : ¬FitsWidth sym k.state.fromBits.toNat) :
      k.Takes (.command w)
        ⟨answer .eRange 0 (enterError .eRange k.state),
          { k.conv with pushed := k.conv.pushed ++ [sym], phase := .failed }, k.past⟩
  /-- A FIN that returns OK, whatever it appended (R65). -/
  | finishes {w} {u : State} {new : List OutSym} (hw : decode w = .ok .fin) (hmode : k.state.mode = .run)
      (hfin : execFin k.state = .next (answer .ok 0 u)) (hdone : u.mode = .done) (hq : u.outq = k.state.outq ++ new) :
      k.Takes (.command w)
        ⟨answer .ok 0 u, { k.conv with emitted := k.conv.emitted ++ new, phase := .succeeded }, k.past⟩
  /-- A FIN without padding on a residual that is not dropped (R65). -/
  | breaks {w} (hw : decode w = .ok .fin) (hmode : k.state.mode = .run)
      (hfin : execFin k.state = .next (answer .eConv 0 (enterError .eConv k.state))) :
      k.Takes (.command w) ⟨answer .eConv 0 (enterError .eConv k.state), { k.conv with phase := .failed }, k.past⟩
  /-- A POP with an output to hand over (R66). -/
  | pops {w v rest} (hw : decode w = .ok .pop) (hq : k.state.outq = v :: rest) :
      k.Takes (.command w)
        ⟨answer .ok (v.setWidth 64) { k.state with outq := rest }, { k.conv with popped := k.conv.popped ++ [v] }, k.past⟩
  /-- RST or a hardware reset (R86, R107). -/
  | resets {e} {t : State} (he : e = .hardwareReset ∨ ∃ w, e = .command w ∧ decode w = .ok .rst) (hmode : t.mode = .idle)
      (hq : t.outq = []) : k.Takes e ⟨t, k.conv.abandon, k.past⟩
  /-- Any other word, the converter's fields being as before (R80, R93). -/
  | passes {w} {t : State} (hquiet : PassesBy w t) (hsame : k.state.SameConverter t) : k.Takes (.command w) ⟨t, k.conv, k.past⟩

variable {k z : Tracked} {e : HostEvent} {w : CmdWord} {i : Instr} {s t : State}

/-- Only a CFG that returns OK moves a record to the earlier ones (R67). -/
theorem closed_of_ne_ok {c : Conversion} (h : lastStatus t ≠ some .ok) : c.closed i t = [] := by
  unfold Conversion.closed
  split
  · next hok => exact absurd hok h
  · rfl

/-- Only a CFG moves a record to the earlier ones (R67). -/
theorem closed_of_ne_cfg {c : Conversion} (h : ∀ f u pad, i ≠ .cfg f u pad) : c.closed i t = [] := by
  unfold Conversion.closed
  split
  · exact absurd rfl (h _ _ _)
  · rfl

/-- A CFG that returns OK moves the latest record to the earlier ones (R67). -/
theorem closed_cfg_ok {c : Conversion} {f u : BitVec 4} {pad : Bool} {data : Data} :
    c.closed (.cfg f u pad) (answer .ok data t) = c.leftBehind := by
  simp [Conversion.closed]

/-- A rejected command passes by (R93). -/
theorem rejected_takes {st : Status} (hst : st ∉ [Status.ok, .eRange, .eConv]) (hw : decode w = .ok i) (hi : i ≠ .rst) :
    k.Takes (.command w) (k.noteCommand i (answer st 0 k.state)) := by
  have hok : lastStatus (answer st 0 k.state) ≠ some .ok := by
    rintro h
    obtain rfl : st = .ok := by simpa using h
    simp at hst
  have hquiet : PassesBy w (answer st 0 k.state) := by
    rintro j hj -
    obtain rfl := Except.ok.inj (hw.symm.trans hj)
    exact ⟨hi, st, lastStatus_answer .., hst⟩
  rw [Tracked.noteCommand, note_rejected hst hi, closed_of_ne_ok hok, List.append_nil]
  exact .passes hquiet ⟨rfl, rfl, rfl, rfl, rfl, rfl, rfl, rfl, rfl⟩

/-- CFG opens a conversion or passes by (R63). -/
theorem cfg_takes {f u : BitVec 4} {pad : Bool} (hw : decode w = .ok (.cfg f u pad))
    (h : execCfg f u pad k.state = .next s) : k.Takes (.command w) (k.noteCommand (.cfg f u pad) s) := by
  rcases execCfg_cases h with ⟨hwidths, rfl⟩ | ⟨-, rfl⟩
  · rw [Tracked.noteCommand, note_cfg_ok, closed_cfg_ok]
    exact .opens hw hwidths
  · exact rejected_takes (by decide) hw (by simp)

/-- PUSH feeds the conversion, fails it or passes by (R64). -/
theorem push_takes {sym : BitVec 8} (hw : decode w = .ok (.push sym)) (h : execPush sym k.state = .next s) :
    k.Takes (.command w) (k.noteCommand (.push sym) s) := by
  have hpast : k.conv.closed (.push sym) s = [] := closed_of_ne_cfg (by simp)
  rcases execPush_cases h with ⟨-, rfl⟩ | ⟨hm, hwide, rfl⟩ | ⟨-, -, -, rfl⟩ | ⟨hm, hfits, -, rfl⟩
  · exact rejected_takes (by decide) hw (by simp)
  · rw [Tracked.noteCommand, hpast, List.append_nil, note_push_eRange]
    exact .overruns hw hm hwide
  · exact rejected_takes (by decide) hw (by simp)
  · rw [Tracked.noteCommand, hpast, List.append_nil, note_push_ok, appended_of_append (acceptSymbol_outq sym k.state)]
    exact .feeds hw hm hfits

/-- A FIN that returns OK finishes the conversion, whatever it appended (R65). -/
theorem finished_takes {u : State} {new : List OutSym} (hw : decode w = .ok .fin) (hmode : k.state.mode = .run)
    (hfin : execFin k.state = .next (answer .ok 0 u)) (hdone : u.mode = .done) (hq : u.outq = k.state.outq ++ new) :
    k.Takes (.command w) (k.noteCommand .fin (answer .ok 0 u)) := by
  rw [Tracked.noteCommand, closed_of_ne_cfg (by simp), List.append_nil, note_fin_ok, appended_of_append hq]
  exact .finishes hw hmode hfin hdone hq

/-- FIN finishes the conversion, fails it or passes by (R65). -/
theorem fin_takes (hw : decode w = .ok .fin) (h : execFin k.state = .next s) :
    k.Takes (.command w) (k.noteCommand .fin s) := by
  have hsame : (closeConversion k.state).outq = k.state.outq ++ [] := (List.append_nil _).symm
  rcases execFin_cases h with ⟨-, rfl⟩ | ⟨-, -, -, -, rfl⟩ | ⟨hm, -, -, -, rfl⟩ | ⟨hm, -, -, rfl⟩ | ⟨hm, -, -, rfl⟩ |
    ⟨hm, -, -, -, rfl⟩
  · exact rejected_takes (by decide) hw (by simp)
  · exact rejected_takes (by decide) hw (by simp)
  · exact finished_takes hw hm h rfl rfl
  · exact finished_takes hw hm h rfl hsame
  · rw [Tracked.noteCommand, closed_of_ne_cfg (by simp), List.append_nil, note_fin_eConv]
    exact .breaks hw hm h
  · exact finished_takes hw hm h rfl hsame

/-- POP hands over OUTQ's head or passes by (R66). -/
theorem pop_takes (hw : decode w = .ok .pop) (h : execPop k.state = .next s) :
    k.Takes (.command w) (k.noteCommand .pop s) := by
  rcases execPop_cases h with ⟨-, rfl⟩ | ⟨v, rest, hq, rfl⟩
  · exact rejected_takes (by decide) hw (by simp)
  · rw [Tracked.noteCommand, closed_of_ne_cfg (by simp), List.append_nil, note_pop_ok, hq]
    exact .pops hw hq

/-- A command that does not use the converter passes by (R80). -/
theorem other_takes (hw : decode w = .ok i) (hi : usesConverter i = false) (h : exec i k.state = .next s) :
    k.Takes (.command w) (k.noteCommand i s) := by
  have hpast : k.conv.closed i s = [] := closed_of_ne_cfg (by rintro f u pad rfl; cases hi)
  have hquiet : PassesBy w s := by
    intro j hj huses
    obtain rfl := Except.ok.inj (hw.symm.trans hj)
    simp [hi] at huses
  rw [Tracked.noteCommand, note_other hi, hpast, List.append_nil]
  exact .passes hquiet (exec_other_sameConverter hi h)

/-- Every command does one of these (R67). -/
theorem noteCommand_takes (hw : decode w = .ok i) (h : exec i k.state = .next s) :
    k.Takes (.command w) (k.noteCommand i s) := by
  cases i with
  | cfg f u pad => exact cfg_takes hw h
  | push sym => exact push_takes hw h
  | fin => exact fin_takes hw h
  | pop => exact pop_takes hw h
  | rst =>
    obtain rfl := execRst_next.mp h
    rw [Tracked.noteCommand, closed_of_ne_cfg (by simp), List.append_nil]
    exact .resets (.inr ⟨w, rfl, hw⟩) rfl rfl
  | nop | xpush | xrun | stat => exact other_takes hw rfl h

/-- What answers an event is the machine beside the record after it. -/
theorem receive_state (h : execEvent e k.state = .next s) : (k.receive e).state = s := by
  rw [receive_of_next h, note_state]

/-- Every event does one of these (R67, R87, R107). -/
theorem receive_takes (k : Tracked) (e : HostEvent) : k.Takes e (k.receive e) := by
  obtain ⟨s, h⟩ := execEvent_answers e k.state
  rw [receive_of_next h]
  rcases note_cases (k := k) (e := e) (s := s) with ⟨rfl, hn⟩ | ⟨w, i, rfl, hw, hn⟩ | ⟨w, r, rfl, hw, hn⟩ <;> rw [hn]
  · obtain rfl := hardwareReset_next.mp h
    exact .resets (.inl rfl) rfl rfl
  · exact noteCommand_takes hw (execWord_ok hw ▸ h)
  · have h : execWord w k.state = .next s := h
    obtain rfl := execIllegal_next.mp (execWord_illegal hw ▸ h)
    exact .passes (fun i hi => by simp [hw] at hi) ⟨rfl, rfl, rfl, rfl, rfl, rfl, rfl, rfl, rfl⟩

/-- Receiving a word is issuing the command it decodes to (R58). -/
theorem receive_command_of_decode (hw : decode w = .ok i) : k.receive (.command w) = k.issue i := by
  obtain ⟨s, h⟩ := exec_answers i k.state
  have hevent : execEvent (.command w) k.state = .next s := (execWord_ok hw).trans h
  rw [receive_of_next hevent, issue_of_next h, Tracked.note, hw]

/-- Issuing a command is receiving its word (R58). -/
theorem issue_eq_receive (k : Tracked) (i : Instr) : k.issue i = k.receive (.command (encode i)) :=
  (receive_command_of_decode (decode_encode i)).symm

/-- What every event keeps, and no waiting event touches, every step keeps. -/
theorem step_keeps {P : Tracked → Prop} (hinputs : ∀ k ins, P k → P { k with state := { k.state with inputs := ins } })
    (keep : ∀ k e, P k → P (k.receive e)) (h : P k) (hs : step k.state = .next s) : k.step.state = s ∧ P k.step := by
  cases hin : k.state.inputs with
  | nil =>
    rw [step_of_no_event (nextEvent_nil hin)]
    exact ⟨Host.Outcome.next.inj ((step_of_no_input hin).symm.trans hs), h⟩
  | cons e rest =>
    rw [step_of_event (nextEvent_cons hin)]
    exact ⟨receive_state ((step_of_input hin).symm.trans hs), keep _ e (hinputs k rest h)⟩

end Sys2Proof.Machine
end

section
/-! SUPPORT. The three agreements of the record with the machine: with MODE, with OUTQ and with the loop of R61 (40_converter.md
R67, R68). Every event keeps each. -/

namespace Sys2Proof.Machine

variable {k z : Tracked} {e : HostEvent} {s : State}

/-! ### The record and MODE -/

/-- In RUN a conversion is open (R16, R67). -/
theorem opened_of_run (h : k.PhaseAgrees) (hm : k.state.mode = .run) : k.conv.phase = .opened := by
  obtain ⟨hnever, -, hsucceeded, hfailed, habandoned, -⟩ := h
  cases hp : k.conv.phase with
  | opened => rfl
  | never => simpa [hm] using hnever hp
  | succeeded => simpa [hm] using hsucceeded hp
  | failed => simpa [hm] using hfailed hp
  | abandoned => simpa [hm] using habandoned hp

/-- A conversion left behind has ended (R67). -/
theorem leftBehind_ended (c : Conversion) :
    ∀ d ∈ c.leftBehind, d.phase = .succeeded ∨ d.phase = .failed ∨ d.phase = .abandoned := by
  intro d hd
  rw [Conversion.leftBehind] at hd
  split at hd
  · simp at hd
  · next hp =>
    obtain rfl := List.mem_singleton.mp hd
    rw [abandon_phase]
    cases hc : c.phase <;> simp_all

/-- A conversion that is not open is not abandoned (R67). -/
theorem abandon_of_not_opened {c : Conversion} (h : c.phase ≠ .opened) : c.abandon = c := by
  rw [Conversion.abandon, if_neg h]

/-- Before any conversion MODE is IDLE (R31). -/
theorem fresh_phaseAgrees (d : Nat) : (Tracked.fresh (State.resetWith d)).PhaseAgrees := by
  simp [Tracked.PhaseAgrees, Conversion.none]

/-- A conversion starts in RUN (R63). -/
theorem startTracked_phaseAgrees (f t : BitVec 4) (pad : Bool) (s : State) : (startTracked f t pad s).PhaseAgrees := by
  simp [Tracked.PhaseAgrees, Conversion.start]

/-- Every event keeps the record in agreement with MODE (R67). -/
theorem phaseAgrees_of_takes (h : k.PhaseAgrees) (hz : k.Takes e z) : z.PhaseAgrees := by
  obtain ⟨hnever, hopened, hsucceeded, hfailed, habandoned, hpast⟩ := h
  cases hz with
  | opens =>
    refine ⟨by simp [Conversion.start], fun _ => rfl, by simp [Conversion.start], by simp [Conversion.start],
      by simp [Conversion.start], ?_⟩
    exact List.forall_mem_append.mpr ⟨hpast, leftBehind_ended k.conv⟩
  | feeds => exact ⟨hnever, hopened, hsucceeded, hfailed, habandoned, hpast⟩
  | overruns => exact ⟨by simp, by simp, by simp, by simp, by simp, hpast⟩
  | finishes _ _ _ hdone => exact ⟨by simp, by simp, by simp [hdone], by simp, by simp, hpast⟩
  | breaks => exact ⟨by simp, by simp, by simp, by simp, by simp, hpast⟩
  | pops => exact ⟨hnever, hopened, hsucceeded, hfailed, habandoned, hpast⟩
  | resets _ hmode =>
    exact ⟨fun _ => hmode, fun ho => absurd ho (abandon_phase_ne_opened _), fun _ => .inr hmode, fun _ => .inr hmode,
      fun _ => hmode, hpast⟩
  | passes _ hsame =>
    obtain ⟨hmode, -⟩ := hsame
    rw [hmode] at hnever hopened hsucceeded hfailed habandoned
    exact ⟨hnever, hopened, hsucceeded, hfailed, habandoned, hpast⟩

/-! ### The record and OUTQ -/

/-- A property of every conversion on record, told of the latest and the earlier ones. -/
theorem forall_mem_all {P : Conversion → Prop} : (∀ c ∈ k.all, P c) ↔ (∀ c ∈ k.past, P c) ∧ P k.conv := by
  simp [Tracked.all, or_imp, forall_and]

/-- A property that abandoning keeps holds of what is left behind. -/
theorem forall_mem_leftBehind {P : Conversion → Prop} {c : Conversion} (h : P c.abandon) : ∀ d ∈ c.leftBehind, P d := by
  intro d hd
  rw [Conversion.leftBehind] at hd
  split at hd
  · simp at hd
  · exact List.mem_singleton.mp hd ▸ h

/-- Once its outputs are discarded, OUTQ is empty and the host has had no more than was emitted (R67). -/
theorem queueAgrees_of_not_live (hlive : ¬z.Live) (hq : z.state.outq = []) (hall : ∀ c ∈ z.all, c.popped <+: c.emitted) :
    z.QueueAgrees := ⟨fun h => absurd h hlive, fun _ => hq, hall⟩

/-- While its outputs are not discarded, a conversion's emitted sequence is what was popped and then what is queued, so what was
popped is its start. -/
theorem queueAgrees_of_live (hlive : z.Live) (hq : z.conv.emitted = z.conv.popped ++ z.state.outq)
    (hpast : ∀ c ∈ z.past, c.popped <+: c.emitted) : z.QueueAgrees :=
  ⟨fun _ => hq, fun h => absurd hlive h, forall_mem_all.mpr ⟨hpast, _, hq.symm⟩⟩

/-- Before any conversion there are no outputs (R31). -/
theorem fresh_queueAgrees (d : Nat) : (Tracked.fresh (State.resetWith d)).QueueAgrees :=
  queueAgrees_of_not_live (by simp [Conversion.none]) rfl (by simp [Tracked.all, Conversion.none])

/-- A conversion starts with no outputs (R63). -/
theorem startTracked_queueAgrees (f t : BitVec 4) (pad : Bool) (s : State) : (startTracked f t pad s).QueueAgrees :=
  queueAgrees_of_live (.inl rfl) rfl (by simp)

/-- What is appended both to OUTQ and to the emitted sequence keeps them in step (R67). -/
theorem emitted_append {new : List OutSym} (hq : k.conv.emitted = k.conv.popped ++ k.state.outq) :
    k.conv.emitted ++ new = k.conv.popped ++ (k.state.outq ++ new) := by
  rw [hq, List.append_assoc]

/-- Every event keeps the record in agreement with OUTQ (R67). -/
theorem queueAgrees_of_takes (hp : k.PhaseAgrees) (h : k.QueueAgrees) (hz : k.Takes e z) : z.QueueAgrees := by
  obtain ⟨hlive, hdead, hall⟩ := h
  obtain ⟨hpast, hconv⟩ := forall_mem_all.mp hall
  cases hz with
  | opens =>
    exact queueAgrees_of_live (.inl rfl) rfl (List.forall_mem_append.mpr ⟨hpast, forall_mem_leftBehind hconv⟩)
  | feeds _ hm =>
    have ho := opened_of_run hp hm
    exact queueAgrees_of_live (.inl ho) (emitted_append (hlive (.inl ho))) hpast
  | overruns => exact queueAgrees_of_not_live (by simp) rfl (forall_mem_all.mpr ⟨hpast, hconv⟩)
  | finishes _ hm _ hdone hq =>
    have ho := opened_of_run hp hm
    exact queueAgrees_of_live (.inr ⟨rfl, hdone⟩) (hq ▸ emitted_append (hlive (.inl ho))) hpast
  | breaks => exact queueAgrees_of_not_live (by simp) rfl (forall_mem_all.mpr ⟨hpast, hconv⟩)
  | @pops _ v rest _ hq =>
    have hk : k.Live := by
      by_contra hno
      simp [hdead hno] at hq
    exact queueAgrees_of_live hk (by simpa [hq] using hlive hk) hpast
  | resets _ hmode hq =>
    have hno : ¬k.conv.abandon.phase = .opened := abandon_phase_ne_opened _
    exact queueAgrees_of_not_live (by simp [hno, hmode]) hq (forall_mem_all.mpr ⟨hpast, hconv⟩)
  | passes _ hsame =>
    obtain ⟨hmode, -, -, -, -, -, -, hq, -⟩ := hsame
    rw [Tracked.Live, hmode, hq] at hlive hdead
    exact ⟨hlive, hdead, hall⟩

/-! ### The record and `convert` -/

/-- Every event keeps the machine in agreement with R61's loop (R68, R87, R107). -/
theorem receive_loopAgrees (e : HostEvent) (h : k.LoopAgrees) : (k.receive e).LoopAgrees := by
  cases e with
  | hardwareReset => exact loopAgrees_of_not_opened (abandon_phase_ne_opened k.conv)
  | command w =>
    cases hw : decode w with
    | ok i =>
      rw [receive_command_of_decode hw]
      exact issue_loopAgrees i h
    | error r =>
      have hx : execEvent (.command w) k.state = .next (answer .eIllegal 0 k.state) := execWord_illegal hw
      rw [receive_of_next hx, Tracked.note, hw]
      exact h

/-- The agreement on ACC, BITS and the emitted sequence, with MODE beside it, is the agreement with R61's loop. -/
theorem loopAgrees_of_convertAgrees (hp : k.PhaseAgrees) (h : k.ConvertAgrees) : k.LoopAgrees := by
  obtain ⟨-, hopened, -⟩ := hp
  intro ho
  exact ⟨hopened ho, h.1 ho⟩

/-- A conversion still to end ends as `convert` does, there being nothing to say yet. -/
theorem endsAsConvert_of_opened {c : Conversion} (h : c.phase = .opened) : c.EndsAsConvert := by
  constructor <;> simp [h]

/-- Before any conversion there is none for `convert` to speak of (R31). -/
theorem fresh_convertAgrees (d : Nat) : (Tracked.fresh (State.resetWith d)).ConvertAgrees := by
  simp [Tracked.ConvertAgrees, Tracked.all, Conversion.EndsAsConvert, Conversion.none]

/-- Abandoning a conversion adds no end that `convert` speaks of (R67). -/
theorem abandon_endsAsConvert {c : Conversion} (h : c.EndsAsConvert) : c.abandon.EndsAsConvert := by
  by_cases ho : c.phase = .opened
  · constructor <;> simp [abandon_phase, ho]
  · exact (abandon_of_not_opened ho).symm ▸ h

/-- A FIN that returns OK ends the conversion as `convert` does (R68). -/
theorem finish_endsAsConvert {u : State} {new : List OutSym} (h : k.LoopAgrees) (ho : k.conv.phase = .opened)
    (hfin : execFin k.state = .next (answer .ok 0 u)) (hq : u.outq = k.state.outq ++ new) :
    Conversion.EndsAsConvert { k.conv with emitted := k.conv.emitted ++ new, phase := .succeeded } := by
  refine ⟨fun _ => ?_, by simp⟩
  rcases fin_eq_convert h ho hfin with hfull | ⟨-, hsome⟩ | ⟨hconv, -⟩
  · simp at hfull
  · rw [output_fin_ok hq] at hsome
    exact hsome.trans (congrArg some List.map_append.symm)
  · simp at hconv

/-- A FIN that aborts ends the conversion as `convert` does (R68). -/
theorem break_endsAsConvert {u : State} (h : k.LoopAgrees) (ho : k.conv.phase = .opened)
    (hfin : execFin k.state = .next (answer .eConv 0 u)) : Conversion.EndsAsConvert { k.conv with phase := .failed } := by
  refine ⟨by simp, fun _ => .inr ?_⟩
  rcases fin_eq_convert h ho hfin with hfull | ⟨hok, -⟩ | ⟨-, hnone⟩
  · simp at hfull
  · simp at hok
  · exact hnone

/-- A PUSH that aborts was fed a too wide symbol (R64, R68). -/
theorem overrun_endsAsConvert {sym : BitVec 8} (h : k.LoopAgrees) (ho : k.conv.phase = .opened)
    (hwide : ¬FitsWidth sym k.state.fromBits.toNat) :
    Conversion.EndsAsConvert { k.conv with pushed := k.conv.pushed ++ [sym], phase := .failed } := by
  obtain ⟨-, ⟨hf, -⟩, -⟩ := h ho
  refine ⟨by simp, fun _ => .inl ⟨sym.toNat, by simp [Conversion.input], ?_⟩⟩
  exact hf ▸ not_lt.mp hwide

/-- Every event leaves every conversion that has ended as `convert` would have it (R68). -/
theorem endsAsConvert_of_takes (hp : k.PhaseAgrees) (hloop : k.LoopAgrees) (hall : ∀ c ∈ k.all, c.EndsAsConvert)
    (hz : k.Takes e z) : ∀ c ∈ z.all, c.EndsAsConvert := by
  obtain ⟨hpast, hconv⟩ := forall_mem_all.mp hall
  refine forall_mem_all.mpr ?_
  cases hz with
  | opens =>
    exact ⟨List.forall_mem_append.mpr ⟨hpast, forall_mem_leftBehind (abandon_endsAsConvert hconv)⟩,
      endsAsConvert_of_opened rfl⟩
  | feeds _ hm => exact ⟨hpast, endsAsConvert_of_opened (opened_of_run hp hm)⟩
  | overruns _ hm hwide => exact ⟨hpast, overrun_endsAsConvert hloop (opened_of_run hp hm) hwide⟩
  | finishes _ hm hfin _ hq => exact ⟨hpast, finish_endsAsConvert hloop (opened_of_run hp hm) hfin hq⟩
  | breaks _ hm hfin => exact ⟨hpast, break_endsAsConvert hloop (opened_of_run hp hm) hfin⟩
  | pops => exact ⟨hpast, hconv⟩
  | resets => exact ⟨hpast, abandon_endsAsConvert hconv⟩
  | passes => exact ⟨hpast, hconv⟩

/-- Every event keeps the record in agreement with `convert` (R68). -/
theorem receive_convertAgrees (e : HostEvent) (hp : k.PhaseAgrees) (h : k.ConvertAgrees) : (k.receive e).ConvertAgrees := by
  have hloop := loopAgrees_of_convertAgrees hp h
  exact ⟨fun ho => (receive_loopAgrees e hloop ho).2, endsAsConvert_of_takes hp hloop h.2 (receive_takes k e)⟩

end Sys2Proof.Machine
end

section
/-! SUPPORT. The bit stream (20_memory.md R33, R34). A number's bits, most significant first, are those of its high part and
then those of its low part (`msbBits_add`); so an emission takes the stream's first bits and leaves the rest in ACC
(`stream_emit`), with no condition on the widths. -/

namespace Sys2Proof.Machine

/-- A number's bits are those of what stands above its `n` low bits, and then these (R12). -/
theorem msbBits_add (m n v : Nat) : msbBits (m + n) v = msbBits m (v / 2 ^ n) ++ msbBits n v := by
  induction m with
  | zero => simp [msbBits]
  | succ m ih =>
    rw [Nat.succ_add, msbBits, msbBits, ih, Nat.testBit_div_two_pow, List.cons_append]

/-- The `w` bits of a number are those of its remainder modulo 2^w (R12). -/
theorem msbBits_congr {w x y : Nat} (h : x % 2 ^ w = y % 2 ^ w) : msbBits w x = msbBits w y := by
  rw [mod_two_pow_eq_iff] at h
  induction w with
  | zero => rfl
  | succ w ih =>
    rw [msbBits, msbBits, h w w.lt_succ_self, ih fun i hi => h i (hi.trans w.lt_succ_self)]

/-- A zero in `w` bits (R12). -/
theorem msbBits_zero (w : Nat) : msbBits w 0 = List.replicate w false := by
  induction w with
  | zero => rfl
  | succ w ih => rw [msbBits, ih, Nat.zero_testBit, List.replicate_succ]

/-- The bits of a number with a symbol put below it (R12, R33). -/
theorem msbBits_mul_add {f x : Nat} (w v : Nat) (hx : x < 2 ^ f) :
    msbBits (w + f) (v * 2 ^ f + x) = msbBits w v ++ msbBits f x := by
  have hhigh : (v * 2 ^ f + x) / 2 ^ f = v := by
    rw [Nat.mul_comm, Nat.mul_add_div (Nat.two_pow_pos f), Nat.div_eq_of_lt hx, Nat.add_zero]
  have hlow : (v * 2 ^ f + x) % 2 ^ f = x % 2 ^ f := Nat.mul_add_mod' ..
  rw [msbBits_add, hhigh, msbBits_congr hlow]

/-- The bits of a number above `p` zero bits (R12). -/
theorem msbBits_mul_two_pow (w p v : Nat) : msbBits (w + p) (v * 2 ^ p) = msbBits w v ++ List.replicate p false :=
  msbBits_zero p ▸ msbBits_mul_add w v (Nat.two_pow_pos p)

/-- The bits of two sequences of symbols, one after the other (R33). -/
theorem stream_append (w : Nat) (xs ys : List Nat) : stream w (xs ++ ys) = stream w xs ++ stream w ys :=
  List.flatMap_append

/-- The bits of one symbol (R33). -/
theorem stream_singleton (w x : Nat) : stream w [x] = msbBits w x := List.flatMap_singleton ..

/-- The emission loop takes the first bits of a number and leaves the rest, in order (R33, R64). -/
theorem stream_emitLoop (t acc fuel b : Nat) :
    stream t (emitLoop t acc fuel b).1 ++ msbBits (emitLoop t acc fuel b).2 acc = msbBits b acc := by
  induction fuel generalizing b with
  | zero => rfl
  | succ fuel ih =>
    rw [emitLoop]
    split
    · next ht =>
      have hsymbol : msbBits t (acc >>> (b - t) &&& mask t) = msbBits t (acc / 2 ^ (b - t)) := by
        rw [and_mask, Nat.shiftRight_eq_div_pow]
        exact msbBits_congr (Nat.mod_mod ..)
      calc stream t ((acc >>> (b - t) &&& mask t) :: (emitLoop t acc fuel (b - t)).1) ++
            msbBits (emitLoop t acc fuel (b - t)).2 acc
        _ = msbBits t (acc / 2 ^ (b - t)) ++ msbBits (b - t) acc := by
          rw [← ih (b - t), ← List.append_assoc, ← hsymbol]
          rfl
        _ = msbBits b acc := by rw [← msbBits_add, Nat.add_sub_of_le ht.2]
    · rfl

/-- An emission takes the first bits of a number and leaves the rest, in order (R33, R64). -/
theorem stream_emit (t acc b : Nat) : stream t (emit t acc b).1 ++ msbBits (emit t acc b).2 acc = msbBits b acc :=
  stream_emitLoop t acc b b

/-- ACC's bits with a symbol shifted in are its bits before and then the symbol's (R21, R33). -/
theorem msbBits_shiftIn {acc b f x : Nat} (hx : x < 2 ^ f) (hfit : b + f ≤ Config.accWidth) :
    msbBits (b + f) (shiftIn acc f x) = msbBits b acc ++ msbBits f x := by
  rw [msbBits_congr (shiftIn_mod rfl hx hfit), msbBits_mul_add b acc hx]

/-- One round of R61's loop moves the new symbol's bits to the end of those emitted and those still held (R33, R61). -/
theorem stream_feed {f t x : Nat} (c : ConvState) (hx : x < 2 ^ f) (hfit : c.bits + f ≤ Config.accWidth) :
    stream t (feed f t c x).out ++ msbBits (feed f t c x).bits (feed f t c x).acc =
      stream t c.out ++ msbBits c.bits c.acc ++ msbBits f x := by
  rw [feed, stream_append, List.append_assoc, stream_emit, msbBits_shiftIn hx hfit, List.append_assoc]

/-- The stream of symbols of their width is the bits of their number (R33, R62). -/
theorem stream_eq_msbBits {w : Nat} {syms : List Nat} (h : ∀ x ∈ syms, x < 2 ^ w) :
    stream w syms = msbBits (syms.length * w) (streamValue w syms) := by
  induction syms using List.reverseRecOn with
  | nil => simp [stream, msbBits]
  | append_singleton syms x ih =>
    rw [List.forall_mem_append, List.forall_mem_singleton] at h
    obtain ⟨hsyms, hx⟩ := h
    rw [stream_append, stream_singleton, ih hsyms, streamValue_append_one, List.length_append, List.length_singleton,
      Nat.add_one_mul, msbBits_mul_add _ _ hx]

variable {k z : Tracked} {e : HostEvent}

/-- An accepted PUSH keeps the bits in order (R34, R64). -/
theorem acceptSymbol_streamAgrees {sym : BitVec 8} {c : Conversion} {past : List Conversion} (h : k.StreamAgrees)
    (hfits : FitsWidth sym k.state.fromBits.toNat)
    (hc : c = { k.conv with
      pushed := k.conv.pushed ++ [sym]
      emitted := k.conv.emitted ++ (pushEmission sym k.state).1.map (BitVec.ofNat 8) }) :
    Tracked.StreamAgrees ⟨answer .ok 0 (acceptSymbol sym k.state), c, past⟩ := by
  subst hc
  intro ho
  obtain ⟨⟨hf, ht, hpad, hlf, hlt⟩, hbits, hstream⟩ := h ho
  have hround := feed_eq_acceptSymbol sym k.conv.output (ht ▸ hlt)
  have hfit : k.state.bits.toNat + k.state.fromBits.toNat ≤ Config.accWidth := by
    have hf8 : k.conv.fromBits.toNat ≤ 8 := hlf.2
    have ht8 : k.conv.toBits.toNat ≤ 8 := hlt.2
    rw [hf]
    exact Nat.le_of_lt_succ (show _ < 8 + 8 by omega)
  have hbitsNew := acceptSymbol_bits_lt (s := k.state) sym (ht ▸ hlt).1
  have hnew := stream_feed (t := k.state.toBits.toNat) ⟨k.state.acc.toNat, k.state.bits.toNat, k.conv.output⟩ hfits hfit
  rw [hround, appended_of_append (acceptSymbol_outq sym k.state), hf, ht, hstream] at hnew
  refine ⟨⟨hf, ht, hpad, hlf, hlt⟩, ht ▸ hbitsNew, ?_⟩
  simpa [Conversion.output, Conversion.input, stream_append, stream_singleton] using hnew

/-- A conversion starts with no bits fed, emitted or held (R63). -/
theorem startTracked_streamAgrees {f t : BitVec 4} {pad : Bool} {s : State} (hf : LegalWidth f) (ht : LegalWidth t) :
    (startTracked f t pad s).StreamAgrees := fun _ => ⟨⟨rfl, rfl, rfl, hf, ht⟩, ht.1, rfl⟩

/-- Every event keeps the emitted bits and ACC's residual equal to the pushed bits (R33, R34). -/
theorem streamAgrees_of_takes (h : k.StreamAgrees) (hz : k.Takes e z) : z.StreamAgrees := by
  cases hz with
  | opens _ hwidths => exact fun _ => ⟨⟨rfl, rfl, rfl, hwidths⟩, hwidths.2.1, rfl⟩
  | feeds _ _ hfits => exact acceptSymbol_streamAgrees h hfits rfl
  | overruns | finishes | breaks => exact fun ho => by simp at ho
  | pops => exact h
  | resets => exact fun ho => absurd ho (abandon_phase_ne_opened _)
  | passes _ hsame =>
    obtain ⟨-, -, hf, ht, hpad, hacc, hbits, -⟩ := hsame
    simpa only [Tracked.StreamAgrees, Tracked.Configured, hf, ht, hpad, hacc, hbits] using h

end Sys2Proof.Machine
end

section
/-! The statements told of one step: O1 for the encoding, O14 for the invariants, O55 to O58 for the record. -/

open Sys2Proof Sys2Proof.Machine

/-- Settles O1: an encoded command has its own format, and the fields of its word are its operands. -/
theorem decodeReadsBackEveryEncodedCommand : Obligations.DecodeReadsBackEveryEncodedCommand := decode_encode

/-- Settles O14: every named update of the state keeps the invariants, so every command and every event does. -/
theorem stepKeepsTheInvariants : Obligations.StepKeepsTheInvariants := step_wf

/-- Settles O55: with no conversion there is nothing to agree on, and a legal CFG starts the loop, the queue and the stream empty. -/
theorem recordAgreesAtResetAndAfterCfg : Obligations.RecordAgreesAtResetAndAfterCfg := by
  refine ⟨fun d => ⟨fresh_phaseAgrees d, fresh_queueAgrees d, fresh_convertAgrees d, fun ho => nomatch ho⟩,
    fun f t pad s hf ht => ⟨startTracked_phaseAgrees f t pad s, startTracked_queueAgrees f t pad s, ?_, ?_⟩⟩
  · have hloop : (startTracked f t pad s).LoopAgrees := loopAgrees_start hf ht rfl rfl
    exact ⟨fun ho => (hloop ho).2, forall_mem_all.mpr ⟨by simp, endsAsConvert_of_opened rfl⟩⟩
  · exact startTracked_streamAgrees hf ht

/-- Settles O56: every event keeps the agreement with MODE and with OUTQ. -/
theorem stepKeepsTheEmittedSequenceInOrder : Obligations.StepKeepsTheEmittedSequenceInOrder := by
  intro k s hp hq hs
  refine step_keeps (P := fun k => k.PhaseAgrees ∧ k.QueueAgrees) (fun _ _ h => h) (fun k e h => ?_) ⟨hp, hq⟩ hs
  have hz := receive_takes k e
  exact ⟨phaseAgrees_of_takes h.1 hz, queueAgrees_of_takes h.1 h.2 hz⟩

/-- Settles O57: every event keeps the agreement with MODE, with R61's loop and with the ends `convert` gives. -/
theorem stepKeepsTheConverterEqualToConvert : Obligations.StepKeepsTheConverterEqualToConvert := by
  intro k s hp hc hs
  refine step_keeps (P := fun k => k.PhaseAgrees ∧ k.ConvertAgrees) (fun _ _ h => h) (fun k e h => ?_) ⟨hp, hc⟩ hs
  exact ⟨phaseAgrees_of_takes h.1 (receive_takes k e), receive_convertAgrees e h.1 h.2⟩

/-- Settles O58: an accepted PUSH moves its symbol's bits to the end of the stream, and no other event of an open conversion moves a
bit. -/
theorem stepKeepsTheOutputBitsInInputOrder : Obligations.StepKeepsTheOutputBitsInInputOrder := by
  intro k s h hs
  exact step_keeps (P := Tracked.StreamAgrees) (fun _ _ h => h)
    (fun k e h => streamAgrees_of_takes h (receive_takes k e)) h hs

end

section
/-! SUPPORT. What ends a conversion (40_converter.md R67): the kind of an event, by its command and the status it was answered with,
decides what becomes of the record and of OUTQ. -/

namespace Sys2Proof.Machine

variable {k z : Tracked} {e : HostEvent} {w : CmdWord} {s : State} {st : Option Status}

/-- What an answered event is to the conversion on record (R67). -/
inductive EventKind where
  | reconfigured
  | reset
  | finished
  | fed
  | aborted
  | other

/-- The kind of a decoded word that was answered with a status (R67). -/
def wordKind : Except Illegal Instr → Option Status → EventKind
  | .ok (.cfg ..), some .ok => .reconfigured
  | .ok (.push _), some .ok => .fed
  | .ok (.push _), some .eRange => .aborted
  | .ok .fin, some .ok => .finished
  | .ok .fin, some .eConv => .aborted
  | .ok .rst, _ => .reset
  | _, _ => .other

/-- The kind of an event that was answered with a status (R67, R107). -/
def eventKind (e : HostEvent) (st : Option Status) : EventKind :=
  match e with
  | .hardwareReset => .reset
  | .command w => wordKind (decode w) st

/-- A CFG that returns OK reconfigures (R67). -/
theorem eventKind_reconfigured_iff : eventKind e st = .reconfigured ↔
    ∃ w f t pad, e = .command w ∧ decode w = .ok (.cfg f t pad) ∧ st = some .ok := by
  constructor
  · intro h
    cases e with
    | hardwareReset => simp [eventKind] at h
    | command w =>
      simp only [eventKind, wordKind] at h
      split at h
      case h_1 hw => exact ⟨w, _, _, _, rfl, hw, rfl⟩
      all_goals cases h
  · rintro ⟨w, f, t, pad, rfl, hw, rfl⟩
    simp [eventKind, wordKind, hw]

/-- RST and a hardware reset reset (R67, R107). -/
theorem eventKind_reset_iff : eventKind e st = .reset ↔
    e = .hardwareReset ∨ ∃ w, e = .command w ∧ decode w = .ok .rst := by
  cases e with
  | hardwareReset => simp [eventKind]
  | command w => simp only [eventKind, wordKind]; split <;> simp_all

/-- A FIN that returns OK finishes (R67). -/
theorem eventKind_finished_iff : eventKind e st = .finished ↔
    ∃ w, e = .command w ∧ decode w = .ok .fin ∧ st = some .ok := by
  cases e with
  | hardwareReset => simp [eventKind]
  | command w => simp only [eventKind, wordKind]; split <;> simp_all

/-- A PUSH that returns OK feeds (R67). -/
theorem eventKind_fed_iff : eventKind e st = .fed ↔
    ∃ w sym, e = .command w ∧ decode w = .ok (.push sym) ∧ st = some .ok := by
  cases e with
  | hardwareReset => simp [eventKind]
  | command w => simp only [eventKind, wordKind]; split <;> simp_all

/-- E_CONV at FIN and E_RANGE at PUSH abort (R67). -/
theorem eventKind_aborted_iff : eventKind e st = .aborted ↔
    ∃ w, e = .command w ∧ ((decode w = .ok .fin ∧ st = some .eConv) ∨
      ∃ sym, decode w = .ok (.push sym) ∧ st = some .eRange) := by
  cases e with
  | hardwareReset => simp [eventKind]
  | command w => simp only [eventKind, wordKind]; split <;> simp_all

/-- A word that passes by was not answered with a status that the record notes. -/
theorem lastStatus_ne_of_passesBy {i : Instr} {st : Status} (h : PassesBy w s) (hw : decode w = .ok i)
    (hi : usesConverter i = true) (hst : st ∈ [Status.ok, .eRange, .eConv]) : lastStatus s ≠ some st := by
  obtain ⟨-, st', hlast, hno⟩ := h i hw hi
  rintro hst'
  obtain rfl := Option.some.inj (hlast.symm.trans hst')
  exact hno hst

/-- A word that passes by is of no kind that R67 speaks of. -/
theorem eventKind_of_passesBy (h : PassesBy w s) : eventKind (.command w) (lastStatus s) = .other := by
  cases hkind : eventKind (.command w) (lastStatus s) with
  | other => rfl
  | reconfigured =>
    obtain ⟨_, f, t, pad, ⟨⟩, hw, hst⟩ := eventKind_reconfigured_iff.mp hkind
    exact absurd hst (lastStatus_ne_of_passesBy h hw rfl (by decide))
  | reset =>
    obtain hno | ⟨_, ⟨⟩, hw⟩ := eventKind_reset_iff.mp hkind
    · cases hno
    · exact absurd rfl (h _ hw rfl).1
  | finished =>
    obtain ⟨_, ⟨⟩, hw, hst⟩ := eventKind_finished_iff.mp hkind
    exact absurd hst (lastStatus_ne_of_passesBy h hw rfl (by decide))
  | fed =>
    obtain ⟨_, sym, ⟨⟩, hw, hst⟩ := eventKind_fed_iff.mp hkind
    exact absurd hst (lastStatus_ne_of_passesBy h hw rfl (by decide))
  | aborted =>
    obtain ⟨_, ⟨⟩, ⟨hw, hst⟩ | ⟨sym, hw, hst⟩⟩ := eventKind_aborted_iff.mp hkind
    · exact absurd hst (lastStatus_ne_of_passesBy h hw rfl (by decide))
    · exact absurd hst (lastStatus_ne_of_passesBy h hw rfl (by decide))

/-- A POP opens and ends nothing (R67). -/
theorem eventKind_of_pop (hw : decode w = .ok .pop) : eventKind (.command w) st = .other := by
  simp [eventKind, wordKind, hw]

/-- The phase of a conversion after an event (R67). -/
def EventKind.phaseAfter : EventKind → Phase → Phase
  | .reconfigured, _ => .opened
  | .reset, p => if p = .opened then .abandoned else p
  | .finished, _ => .succeeded
  | .aborted, _ => .failed
  | .fed, p => p
  | .other, p => p

/-- What an event moves from the latest record to the earlier ones (R67). -/
def EventKind.leaves : EventKind → Conversion → List Conversion
  | .reconfigured, c => c.leftBehind
  | .reset, _ | .finished, _ | .aborted, _ | .fed, _ | .other, _ => []

/-- Only a CFG that returns OK leaves a conversion behind (R67). -/
theorem EventKind.leaves_of_ne {kind : EventKind} {c : Conversion} (h : kind ≠ .reconfigured) : kind.leaves c = [] := by
  cases kind with
  | reconfigured => exact absurd rfl h
  | reset | finished | aborted | fed | other => rfl

/-- What an event of each kind does to the record and to OUTQ (R67). -/
structure KindEffect (kind : EventKind) (k z : Tracked) : Prop where
  phase : z.conv.phase = kind.phaseAfter k.conv.phase
  past : z.past = k.past ++ kind.leaves k.conv
  config : kind ≠ .reconfigured →
    z.conv.fromBits = k.conv.fromBits ∧ z.conv.toBits = k.conv.toBits ∧ z.conv.pad = k.conv.pad
  runs : kind = .finished ∨ kind = .fed ∨ kind = .aborted → k.state.mode = .run
  pushed : kind = .reset ∨ kind = .other → z.conv.pushed = k.conv.pushed
  emits : kind = .fed ∨ kind = .finished →
    ∃ new, z.state.outq = k.state.outq ++ new ∧ z.conv.emitted = k.conv.emitted ++ new
  silent : kind ≠ .fed → kind ≠ .finished → kind ≠ .reconfigured → z.conv.emitted = k.conv.emitted
  empties : kind = .reconfigured ∨ kind = .reset ∨ kind = .aborted → z.state.outq = []

/-- The kind of an event decides its effect (R67). -/
theorem kindEffect_of_takes (hz : k.Takes e z) : KindEffect (eventKind e (lastStatus z.state)) k z := by
  cases hz with
  | opens hw =>
    rw [eventKind_reconfigured_iff.mpr ⟨_, _, _, _, rfl, hw, lastStatus_answer ..⟩]
    constructor <;> simp [EventKind.phaseAfter, EventKind.leaves, Conversion.start]
  | feeds hw hm =>
    rw [eventKind_fed_iff.mpr ⟨_, _, rfl, hw, lastStatus_answer ..⟩]
    constructor <;> simp [EventKind.phaseAfter, EventKind.leaves, hm]
  | overruns hw hm =>
    rw [eventKind_aborted_iff.mpr ⟨_, rfl, .inr ⟨_, hw, lastStatus_answer ..⟩⟩]
    constructor <;> simp [EventKind.phaseAfter, EventKind.leaves, hm]
  | finishes hw hm _ _ hq =>
    rw [eventKind_finished_iff.mpr ⟨_, rfl, hw, lastStatus_answer ..⟩]
    constructor <;> simp [EventKind.phaseAfter, EventKind.leaves, hm, hq]
  | breaks hw hm =>
    rw [eventKind_aborted_iff.mpr ⟨_, rfl, .inl ⟨hw, lastStatus_answer ..⟩⟩]
    constructor <;> simp [EventKind.phaseAfter, EventKind.leaves, hm]
  | pops hw =>
    rw [eventKind_of_pop hw]
    constructor <;> simp [EventKind.phaseAfter, EventKind.leaves]
  | resets he _ hq =>
    rw [eventKind_reset_iff.mpr he]
    constructor <;> simp [EventKind.phaseAfter, EventKind.leaves, abandon_phase, hq]
  | passes hquiet =>
    rw [eventKind_of_passesBy hquiet]
    constructor <;> simp [EventKind.phaseAfter, EventKind.leaves]

/-- A POP that returns OK hands over OUTQ's head (R66, R67). -/
theorem pop_ok_of_takes (hz : k.Takes (.command w) z) (hw : decode w = .ok .pop) (hok : lastStatus z.state = some .ok) :
    ∃ v, k.state.outq = v :: z.state.outq ∧ z.conv.popped = k.conv.popped ++ [v] := by
  generalize he : HostEvent.command w = e at hz
  cases hz with
  | pops _ hq => exact ⟨_, hq, rfl⟩
  | passes hquiet =>
    obtain rfl := HostEvent.command.inj he
    exact absurd hok (lastStatus_ne_of_passesBy hquiet hw rfl (by decide))
  | resets hreset =>
    subst he
    simp [hw] at hreset
  | _ => simp_all

/-- A CFG that returns OK leaves a new record (R63, R67). -/
theorem cfg_ok_of_receive {f t : BitVec 4} {pad : Bool} (hx : execEvent (.command w) k.state = .next s)
    (hw : decode w = .ok (.cfg f t pad)) (hok : lastStatus s = some .ok) :
    (k.receive (.command w)).conv = Conversion.start f t pad := by
  rw [receive_of_next hx, Tracked.note, hw]
  simp [Conversion.note, hok]

end Sys2Proof.Machine
end

section
/-! SUPPORT. Lists of commands without RST (40_converter.md R67), and what FIN adds to the bit stream or drops from it
(20_memory.md R34; 40_converter.md R65). -/

namespace Sys2Proof.Machine

variable {k z : Tracked} {e : HostEvent} {s t : State} {cs : List Instr}

/-- What every command of a list keeps, the list keeps. -/
theorem issueAll_keeps {P : Tracked → Prop} (keep : ∀ k, ∀ i ∈ cs, P k → P (k.issue i)) (h : P k) : P (k.issueAll cs) :=
  List.foldlRecOn cs Tracked.issue h fun j hj i hi => keep j i hi hj

/-- Only a reset moves MODE to IDLE (R16). -/
theorem not_idle_of_takes (hz : k.Takes e z) (he : ¬(e = .hardwareReset ∨ ∃ w, e = .command w ∧ decode w = .ok .rst))
    (hm : k.state.mode ≠ .idle) : z.state.mode ≠ .idle := by
  cases hz with
  | opens | overruns | breaks => simp
  | feeds | pops => exact hm
  | finishes _ _ _ hdone => simp [hdone]
  | resets hreset => exact absurd hreset he
  | passes _ hsame => exact hsame.1 ▸ hm

/-- No command but RST moves MODE to IDLE (R16). -/
theorem issue_not_idle {i : Instr} (hi : i ≠ .rst) (hm : k.state.mode ≠ .idle) : (k.issue i).state.mode ≠ .idle := by
  rw [issue_eq_receive]
  refine not_idle_of_takes (receive_takes k _) ?_ hm
  simp [decode_encode, hi]

/-- From a CFG on without RST, the outputs of a conversion that is open or has succeeded are not discarded (R67). -/
theorem live_of_not_idle (hp : k.PhaseAgrees) (hm : k.state.mode ≠ .idle)
    (h : k.conv.phase = .opened ∨ k.conv.phase = .succeeded) : k.Live := by
  obtain ⟨-, -, hsucceeded, -⟩ := hp
  exact h.imp_right fun hs => ⟨hs, (hsucceeded hs).resolve_right hm⟩

/-- A residual that is zero at the top of a symbol is all zero bits (R65). -/
theorem msbBits_of_topResidual_eq_zero {t b acc : Nat} (hb : b ≤ t) (h : topResidual t acc b = 0) :
    msbBits b acc = List.replicate b false := by
  rw [topResidual_eq _ hb, Nat.mul_eq_zero, or_iff_left (Nat.two_pow_pos _).ne'] at h
  rw [← msbBits_zero]
  exact msbBits_congr (h.trans (Nat.zero_mod _).symm)

/-- The padded symbol is the residual's bits and then zero bits (R65). -/
theorem msbBits_topResidual {t b acc : Nat} (hb : b ≤ t) :
    msbBits t (topResidual t acc b) = msbBits b acc ++ List.replicate (t - b) false := by
  rw [topResidual_eq _ hb]
  calc msbBits t (acc % 2 ^ b * 2 ^ (t - b))
    _ = msbBits (b + (t - b)) (acc % 2 ^ b * 2 ^ (t - b)) := by rw [Nat.add_sub_of_le hb]
    _ = msbBits b acc ++ List.replicate (t - b) false := by
      rw [msbBits_mul_two_pow, msbBits_congr (Nat.mod_mod ..)]

/-- At a FIN that returns OK the emitted bits are the pushed bits, with fewer than TO zero bits added (PAD = 1) or fewer than
FROM zero bits dropped (PAD = 0) (R34, R65). -/
theorem fin_ok_stream (h : k.StreamAgrees) (ho : k.conv.phase = .opened) (hx : execFin k.state = .next t)
    (hok : lastStatus t = some .ok) :
    (k.conv.pad = true → ∃ n, n < k.conv.toBits.toNat ∧
      stream k.conv.toBits.toNat (k.noteCommand .fin t).conv.output =
        stream k.conv.fromBits.toNat k.conv.input ++ List.replicate n false) ∧
    (k.conv.pad = false → ∃ n, n < k.conv.fromBits.toNat ∧
      stream k.conv.fromBits.toNat k.conv.input =
        stream k.conv.toBits.toNat (k.noteCommand .fin t).conv.output ++ List.replicate n false) := by
  obtain ⟨⟨hf, ht, hpad, -, hto, hto8⟩, hbits, hstream⟩ := h ho
  have hsame : (closeConversion k.state).outq = k.state.outq ++ [] := (List.append_nil _).symm
  rw [← hstream, ← hpad]
  rcases execFin_cases hx with ⟨-, rfl⟩ | ⟨-, -, -, -, rfl⟩ | ⟨-, hp, hb, -, rfl⟩ | ⟨-, hp, hb, rfl⟩ | ⟨-, -, -, rfl⟩ |
    ⟨-, hp, hb, hr, rfl⟩
  · simp at hok
  · simp at hok
  · have hlt : finResidual k.state < 2 ^ k.state.toBits.toNat := topResidual_lt ..
    have hnew := map_toNat_map_ofNat (w := 8) (List.forall_mem_singleton.mpr hlt) (ht ▸ hto8)
    refine ⟨fun _ => ⟨k.conv.toBits.toNat - k.state.bits.toNat, by omega, ?_⟩, by simp [hp]⟩
    rw [output_fin_ok (new := [finResidual k.state].map (BitVec.ofNat 8)) rfl, hnew, stream_append, stream_singleton,
      finResidual, ht, msbBits_topResidual hbits.le, List.append_assoc]
  · refine ⟨fun _ => ⟨0, hto, ?_⟩, by simp [hp]⟩
    rw [output_fin_ok hsame, hb]
    simp [msbBits]
  · simp at hok
  · refine ⟨by simp [hp], fun _ => ⟨k.state.bits.toNat, hf ▸ hb, ?_⟩⟩
    rw [finResidual, ht] at hr
    rw [output_fin_ok hsame, msbBits_of_topResidual_eq_zero hbits.le hr, List.map_nil, List.append_nil]

end Sys2Proof.Machine
end

section
/-! The statements about a whole conversion: O39, O40 and O54. -/

open Sys2Proof Sys2Proof.Machine

/-- Settles O39: every command keeps the bits in order, and `fin_ok_stream` is the end. -/
theorem outputBitsAreTheInputBitsInOrder : Obligations.OutputBitsAreTheInputBitsInOrder := by
  intro f t pad s cs hf ht hcs k input z ho
  have hstart : (startTracked f t pad s).Converts f t pad := ⟨loopAgrees_start hf ht rfl rfl, rfl, rfl, rfl⟩
  obtain ⟨-, hkf, hkt, hkpad⟩ := issueAll_converts (fun c hc => (hcs c hc).2) hstart
  have hstream : k.StreamAgrees := by
    refine issueAll_keeps (fun j i _ hj => ?_) (startTracked_streamAgrees hf ht)
    exact issue_eq_receive j i ▸ streamAgrees_of_takes hj (receive_takes j _)
  obtain ⟨u, hu⟩ := exec_answers .fin k.state
  have hz : z = k.noteCommand .fin u := issue_of_next hu
  have hopen := (hstream ho).2.2
  have hend := fin_ok_stream hstream ho hu
  rw [hkf, hkt] at hopen hend
  rw [hkpad] at hend
  refine ⟨hopen, fun hok => ?_⟩
  rw [hz] at hok ⊢
  exact hend hok

/-- Settles O40: without RST the outputs of a conversion that is open or has succeeded are not discarded, so the record agrees with
OUTQ. -/
theorem poppedThenQueuedIsTheEmittedSequence : Obligations.PoppedThenQueuedIsTheEmittedSequence := by
  intro f t pad s cs hcs k hphase
  have hagrees : k.PhaseAgrees ∧ k.QueueAgrees ∧ k.state.mode ≠ .idle := by
    refine issueAll_keeps (P := fun k => k.PhaseAgrees ∧ k.QueueAgrees ∧ k.state.mode ≠ .idle)
      (fun j i hi ⟨hp, hq, hm⟩ => ?_)
      ⟨startTracked_phaseAgrees f t pad s, startTracked_queueAgrees f t pad s, by simp⟩
    have hz := issue_eq_receive j i ▸ receive_takes j _
    exact ⟨phaseAgrees_of_takes hp hz, queueAgrees_of_takes hp hq hz, issue_not_idle (hcs i hi) hm⟩
  obtain ⟨hp, ⟨hlive, -⟩, hm⟩ := hagrees
  exact hlive (live_of_not_idle hp hm hphase)

/-- Settles O54: the kind of the event decides its effect (`kindEffect_of_takes`). -/
theorem conversionEndsAtTheFirstEndingEvent : Obligations.ConversionEndsAtTheFirstEndingEvent := by
  intro k e s hp hx z reconfigured reset finished fed aborted
  have hz : k.Takes e z := receive_takes k e
  have hs : z.state = s := receive_state hx
  have heffect := kindEffect_of_takes hz
  rw [hs] at heffect
  have hreconfigured : reconfigured ↔ _ := eventKind_reconfigured_iff.symm
  have hreset : reset ↔ _ := (eventKind_reset_iff (st := lastStatus s)).symm
  have hfinished : finished ↔ _ := eventKind_finished_iff.symm
  have hfed : fed ↔ _ := eventKind_fed_iff.symm
  have haborted : aborted ↔ _ := eventKind_aborted_iff.symm
  rw [hreconfigured, hreset, hfinished, hfed, haborted]
  generalize eventKind e (lastStatus s) = kind at heffect
  obtain ⟨hphase, hpast, hconfig, hruns, hpushed, hemits, hsilent, hempties⟩ := heffect
  refine ⟨hs, phaseAgrees_of_takes hp hz, ?_, ?_, ?_, ?_, ?_, ?_, ?_, ?_, ?_⟩
  · rintro w f t pad rfl hw hok
    exact cfg_ok_of_receive hx hw hok
  · rintro rfl
    exact hpast
  · intro hno
    exact ⟨by simpa [EventKind.leaves_of_ne hno] using hpast, hconfig hno⟩
  · intro ho
    rw [hphase, ho]
    refine ⟨by rintro rfl; rfl, by rintro rfl; rfl, by rintro rfl; rfl, ?_⟩
    cases kind <;> simp [EventKind.phaseAfter]
  · intro hno hne
    have hidle : ¬(kind = .finished ∨ kind = .fed ∨ kind = .aborted) := fun h => hno (opened_of_run hp (hruns h))
    cases kind <;> simp_all [EventKind.phaseAfter]
  · intro h
    exact hs ▸ hemits h
  · exact fun h1 h2 h3 => hsilent h1 h2 h3
  · rintro w rfl hw hok
    exact hs ▸ pop_ok_of_takes hz hw (hs ▸ hok)
  · exact fun h => hs ▸ hempties h

end

/-! ## Proofs about what commands and runs keep and repeat (10_state.md R32; 20_memory.md R40, R41; 30_encoding.md R56) -/

section
/-! SUPPORT. The access matrix (10_state.md R32): one lemma for each group of fields that the same commands write. -/

namespace Sys2Proof.Machine

variable {s t : State} {i : Instr}

/-- Only CFG and RST write FROM, TO and PAD (R32). -/
theorem exec_keeps_config (hcfg : ∀ f u p, i ≠ .cfg f u p) (hrst : i ≠ .rst) (h : exec i s = .next t) :
    t.fromBits = s.fromBits ∧ t.toBits = s.toBits ∧ t.pad = s.pad := by
  cases i with
  | cfg f u p => exact absurd rfl (hcfg f u p)
  | rst => exact absurd rfl hrst
  | push sym => rcases execPush_cases h with ⟨-, rfl⟩ | ⟨-, -, rfl⟩ | ⟨-, -, -, rfl⟩ | ⟨-, -, -, rfl⟩ <;> simp
  | fin =>
    rcases execFin_cases h with ⟨-, rfl⟩ | ⟨-, -, -, -, rfl⟩ | ⟨-, -, -, -, rfl⟩ | ⟨-, -, -, rfl⟩ | ⟨-, -, -, rfl⟩ |
      ⟨-, -, -, -, rfl⟩ <;> simp
  | pop => rcases execPop_cases h with ⟨-, rfl⟩ | ⟨v, rest, -, rfl⟩ <;> simp
  | nop | xpush | xrun | stat =>
    obtain ⟨-, -, hf, ht, hp, -⟩ := exec_other_sameConverter rfl h
    exact ⟨hf.symm, ht.symm, hp.symm⟩

/-- Besides these only PUSH and FIN write MODE, ERR, ACC and BITS, and besides these only POP writes OUTQ (R32). -/
theorem exec_keeps_conversion (hcfg : ∀ f u p, i ≠ .cfg f u p) (hrst : i ≠ .rst) (hpush : ∀ sym, i ≠ .push sym)
    (hfin : i ≠ .fin) (h : exec i s = .next t) :
    t.mode = s.mode ∧ t.err = s.err ∧ t.acc = s.acc ∧ t.bits = s.bits ∧ (i ≠ .pop → t.outq = s.outq) := by
  cases i with
  | cfg f u p => exact absurd rfl (hcfg f u p)
  | rst => exact absurd rfl hrst
  | push sym => exact absurd rfl (hpush sym)
  | fin => exact absurd rfl hfin
  | pop => rcases execPop_cases h with ⟨-, rfl⟩ | ⟨v, rest, -, rfl⟩ <;> simp
  | nop | xpush | xrun | stat =>
    obtain ⟨hm, he, -, -, -, ha, hb, hq, -⟩ := exec_other_sameConverter rfl h
    exact ⟨hm.symm, he.symm, ha.symm, hb.symm, fun _ => hq.symm⟩

/-- Only XPUSH, XRUN and RST write XSYM (R32, R80). -/
theorem exec_keeps_slice (hxpush : ∀ sym, i ≠ .xpush sym) (hxrun : ∀ d, i ≠ .xrun d) (hrst : i ≠ .rst)
    (h : exec i s = .next t) : t.xsym = s.xsym := by
  have converter (hi : (∃ f w pad, i = .cfg f w pad) ∨ (∃ sym, i = .push sym) ∨ i = .fin ∨ i = .pop) :
      t.xsym = s.xsym := by
    have hsame := eq_of_mapsTo_self (exec_withSlice hi s.xsym s) h
    have hleft : t.xsym = (withSlice s.xsym t).xsym := congrArg State.xsym hsame
    exact hleft
  cases i with
  | xpush sym => exact absurd rfl (hxpush sym)
  | xrun d => exact absurd rfl (hxrun d)
  | rst => exact absurd rfl hrst
  | cfg f w pad => exact converter (.inl ⟨f, w, pad, rfl⟩)
  | push sym => exact converter (.inr (.inl ⟨sym, rfl⟩))
  | fin => exact converter (.inr (.inr (.inl rfl)))
  | pop => exact converter (.inr (.inr (.inr rfl)))
  | nop =>
    obtain rfl := execNop_next.mp h
    rfl
  | stat =>
    obtain rfl := execStat_next.mp h
    rfl

/-- PUSH moves MODE only to ERROR, with ERR 3 (R32, R64). -/
theorem execPush_mode {sym : BitVec 8} (h : execPush sym s = .next t) :
    t.mode = s.mode ∨ (t.mode = .error ∧ t.err = 3) := by
  rcases execPush_cases h with ⟨-, rfl⟩ | ⟨-, -, rfl⟩ | ⟨-, -, -, rfl⟩ | ⟨-, -, -, rfl⟩
  case inr.inl => exact .inr ⟨rfl, rfl⟩
  all_goals exact .inl rfl

/-- FIN moves MODE only to DONE, or to ERROR with ERR 7 (R32, R65). -/
theorem execFin_mode (h : execFin s = .next t) :
    t.mode = s.mode ∨ t.mode = .done ∨ (t.mode = .error ∧ t.err = 7) := by
  rcases execFin_cases h with ⟨-, rfl⟩ | ⟨-, -, -, -, rfl⟩ | ⟨-, -, -, -, rfl⟩ | ⟨-, -, -, rfl⟩ | ⟨-, -, -, rfl⟩ |
    ⟨-, -, -, -, rfl⟩
  · exact .inl rfl
  · exact .inl rfl
  · exact .inr (.inl rfl)
  · exact .inr (.inl rfl)
  · exact .inr (.inr ⟨rfl, rfl⟩)
  · exact .inr (.inl rfl)

end Sys2Proof.Machine
end

section
/-! SUPPORT. Commands issued twice (20_memory.md R40). -/

namespace Sys2Proof.Machine

variable {s t u : State}

/-- A second issue that leaves the same units and answers the same (R40). -/
def SameAgain (t u : State) : Prop := u.SameUnits t ∧ lastStatus u = lastStatus t ∧ lastData u = lastData t

/-- An answer from the same units as before is the same again. -/
theorem answer_sameAgain {st : Status} {data : Data} {v : State} (h : State.SameUnits u v) :
    SameAgain (answer st data v) (answer st data u) := ⟨h, by simp, by simp⟩

/-- CFG is idempotent: the operands alone decide what it does (R40, R63). -/
theorem execCfg_again {f w : BitVec 4} {pad : Bool} (ht : execCfg f w pad s = .next t)
    (hu : execCfg f w pad t = .next u) : SameAgain t u := by
  rcases execCfg_cases ht with ⟨hl, rfl⟩ | ⟨hl, rfl⟩ <;> rcases execCfg_cases hu with ⟨hl', rfl⟩ | ⟨hl', rfl⟩
  · exact answer_sameAgain rfl
  · exact absurd hl hl'
  · exact absurd hl' hl
  · exact answer_sameAgain rfl

/-- A second XRUN finds the slice empty (R40, R79). -/
theorem execXrun_again {d : BitVec 7} (hd : 0 < d.toNat) (hd64 : d.toNat ≤ 64) (ht : execXrun d s = .next t)
    (hu : execXrun d t = .next u) : lastStatus u = some .eTrunc := by
  have hempty : t.xsym = [] := by
    rcases execXrun_cases ht with ⟨-, rfl⟩ | ⟨-, -, rfl⟩ | ⟨-, -, rfl⟩ <;> rfl
  have hneeds : t.xsym.length < ceilDiv d.toNat 5 := by
    rw [hempty, List.length_nil, ceilDiv]
    omega
  rcases execXrun_cases hu with ⟨hwide, -⟩ | ⟨-, -, rfl⟩ | ⟨-, henough, -⟩
  · exact absurd hd64 (not_le.mpr hwide)
  · exact lastStatus_answer ..
  · exact absurd hneeds (not_lt.mpr henough)

/-- After a FIN that returned OK no conversion is open (R65). -/
theorem execFin_ok_mode (h : execFin s = .next t) (hok : lastStatus t = some .ok) : t.mode = .done := by
  rcases execFin_cases h with ⟨-, rfl⟩ | ⟨-, -, -, -, rfl⟩ | ⟨-, -, -, -, rfl⟩ | ⟨-, -, -, rfl⟩ | ⟨-, -, -, rfl⟩ |
    ⟨-, -, -, -, rfl⟩ <;> simp at hok ⊢

end Sys2Proof.Machine
end

section
/-! SUPPORT. A run over all that the host sends (20_memory.md R41; 30_encoding.md R56): each event leaves what still waits, adds its
one response or none, and does the same whatever waits after it. -/

namespace Sys2Proof.Machine

variable {s t : State} {e : HostEvent}

/-- An event leaves the events that wait, and adds one response if it is a command word and none if it is a reset (R56, R107). -/
theorem execEvent_responses (h : execEvent e s = .next t) : t.inputs = s.inputs ∧ ∃ added : List Response,
    t.responses = s.responses ++ added ∧ added.length = ([e].filter fun e => e != .hardwareReset).length := by
  cases e with
  | hardwareReset =>
    obtain rfl := hardwareReset_next.mp h
    exact ⟨rfl, [], (List.append_nil _).symm, rfl⟩
  | command w =>
    obtain ⟨r, hresponses, hinputs, -⟩ := execWord_givesOneResponse h
    exact ⟨hinputs, [r], hresponses, rfl⟩

/-- A run takes every event and adds one response for each command word (R56, R122). -/
theorem run_answers {events : List HostEvent} (hin : s.inputs = events) :
    ∃ t, Host.Core.run Sys2Proof.core events.length s = .next t ∧ t.inputs = [] ∧ ∃ added : List Response,
      t.responses = s.responses ++ added ∧ added.length = (events.filter fun e => e != .hardwareReset).length := by
  induction events generalizing s with
  | nil => exact ⟨s, run_zero, hin, [], (List.append_nil _).symm, rfl⟩
  | cons e rest ih =>
    obtain ⟨u, hu⟩ := execEvent_answers e { s with inputs := rest }
    obtain ⟨hinputs, first, hfirst, hone⟩ := execEvent_responses hu
    obtain ⟨t, ht, hempty, others, hothers, hcount⟩ := ih hinputs
    have hstep : step s = .next u := (step_of_input hin).trans hu
    refine ⟨t, (run_succ_of_step _ hstep).trans ht, hempty, first ++ others, ?_, ?_⟩
    · rw [hothers, hfirst, List.append_assoc]
    · rw [List.length_append, hone, hcount, ← List.length_append, ← List.filter_append, List.singleton_append]

/-- The state with other events waiting. -/
def withInputs (events : List HostEvent) (s : State) : State := { s with inputs := events }

/-- FIN does not meet the events that wait (R41, R65). -/
theorem execFin_withInputs (events : List HostEvent) (s : State) :
    MapsTo (withInputs events) (execFin s) (execFin (withInputs events s)) := by
  have hpadded : MapsTo (withInputs events) (finPadded s) (finPadded (withInputs events s)) :=
    ite_mapsTo (ite_mapsTo (respond_mapsTo rfl) (respond_mapsTo rfl)) (respond_mapsTo rfl)
  have hunpadded : MapsTo (withInputs events) (finUnpadded s) (finUnpadded (withInputs events s)) :=
    ite_mapsTo (respond_mapsTo rfl) (respond_mapsTo rfl)
  exact ite_mapsTo (respond_mapsTo rfl) (ite_mapsTo hpadded hunpadded)

/-- POP does not meet the events that wait (R41, R66). -/
theorem execPop_withInputs (events : List HostEvent) (s : State) :
    MapsTo (withInputs events) (execPop s) (execPop (withInputs events s)) := by
  cases hq : s.outq with
  | nil =>
    rw [execPop_nil hq, execPop_nil (s := withInputs events s) hq]
    exact respond_mapsTo rfl
  | cons v rest =>
    rw [execPop_cons hq, execPop_cons (s := withInputs events s) hq]
    exact respond_mapsTo rfl

/-- No command meets the events that wait (R41). -/
theorem exec_withInputs (i : Instr) (events : List HostEvent) (s : State) :
    MapsTo (withInputs events) (exec i s) (exec i (withInputs events s)) := by
  cases i with
  | nop | stat | rst => exact respond_mapsTo rfl
  | cfg => exact ite_mapsTo (respond_mapsTo rfl) (respond_mapsTo rfl)
  | push =>
    exact ite_mapsTo (respond_mapsTo rfl) <| ite_mapsTo (respond_mapsTo rfl) <|
      ite_mapsTo (respond_mapsTo rfl) (respond_mapsTo rfl)
  | fin => exact execFin_withInputs events s
  | pop => exact execPop_withInputs events s
  | xpush | xrun => exact ite_mapsTo (respond_mapsTo rfl) (ite_mapsTo (respond_mapsTo rfl) (respond_mapsTo rfl))

/-- No event meets the events that wait after it (R41). -/
theorem execEvent_withInputs (e : HostEvent) (events : List HostEvent) (s : State) :
    MapsTo (withInputs events) (execEvent e s) (execEvent e (withInputs events s)) := by
  cases e with
  | hardwareReset => exact ⟨_, rfl, rfl⟩
  | command w =>
    change MapsTo _ (execWord w s) (execWord w (withInputs events s))
    cases hw : decode w with
    | ok i =>
      rw [execWord_ok hw, execWord_ok hw]
      exact exec_withInputs i events s
    | error r =>
      rw [execWord_illegal hw, execWord_illegal hw]
      exact respond_mapsTo rfl

/-- A run over the events that wait does the same with more of them after, and leaves those (R41). -/
theorem run_with_later {events : List HostEvent} (later : List HostEvent) (hin : s.inputs = events)
    (h : Host.Core.run Sys2Proof.core events.length s = .next t) :
    Host.Core.run Sys2Proof.core events.length (withInputs (events ++ later) s) = .next (withInputs later t) := by
  induction events generalizing s with
  | nil =>
    obtain rfl : s = t := Host.Outcome.next.inj h
    rfl
  | cons e rest ih =>
    obtain ⟨u, hu, hrun⟩ := run_succ_next h
    have hevent : execEvent e (withInputs rest s) = .next u := (step_of_input hin).symm.trans hu
    have hinputs : u.inputs = rest := (execEvent_responses hevent).1
    have hlater : step (withInputs (e :: rest ++ later) s) = .next (withInputs (rest ++ later) u) :=
      (step_of_input rfl).trans (next_of_mapsTo (execEvent_withInputs e (rest ++ later) (withInputs rest s)) hevent)
    exact (run_succ_of_step _ hlater).trans (ih hinputs hrun)

end Sys2Proof.Machine
end

section
/-! SUPPORT. Making room after E_FULL (70_reset_and_hazards.md R114). -/

namespace Sys2Proof.Machine

variable {s t : State} {k : Tracked}

/-- Popping as many symbols as wait changes OUTQ and the responses and nothing else (R66). -/
theorem issueAll_pops {m : Nat} (hm : m ≤ k.state.outq.length) :
    ∃ rs, (k.issueAll (List.replicate m .pop)).state =
      { k.state with outq := k.state.outq.drop m, responses := rs } := by
  induction m with
  | zero => exact ⟨k.state.responses, rfl⟩
  | succ m ih =>
    obtain ⟨rs, hrs⟩ := ih (by omega)
    have hq : (k.issueAll (List.replicate m .pop)).state.outq = k.state.outq[m] :: k.state.outq.drop (m + 1) := by
      rw [hrs]
      exact List.drop_eq_getElem_cons hm
    have hpop : exec .pop (k.issueAll (List.replicate m .pop)).state = _ := execPop_cons hq
    rw [List.replicate_succ', issueAll_append_one, issue_of_next hpop, noteCommand_state, hrs]
    exact ⟨_, rfl⟩

/-- A PUSH rejected with E_FULL: a conversion is open, the symbol fits, and OUTQ lacks room (R64). -/
theorem execPush_full {sym : BitVec 8} (h : execPush sym s = .next t) (hfull : lastStatus t = some .eFull) :
    s.mode = .run ∧ FitsWidth sym s.fromBits.toNat ∧ s.outqDepth < s.outq.length + pushEmits s ∧
      t = answer .eFull 0 s := by
  rcases execPush_cases h with ⟨-, rfl⟩ | ⟨-, -, rfl⟩ | hfullCase | ⟨-, -, -, rfl⟩
  case inr.inr.inl => exact hfullCase
  all_goals simp at hfull

/-- A PUSH of a fitting symbol into an open conversion returns OK exactly where OUTQ has room (R64). -/
theorem execPush_ok_iff {sym : BitVec 8} (hm : s.mode = .run) (hfits : FitsWidth sym s.fromBits.toNat)
    (h : execPush sym s = .next t) : lastStatus t = some .ok ↔ s.outq.length + pushEmits s ≤ s.outqDepth := by
  rcases execPush_cases h with ⟨hno, -⟩ | ⟨-, hwide, -⟩ | ⟨-, -, hfull, rfl⟩ | ⟨-, -, hroom, rfl⟩
  · exact absurd hm hno
  · exact absurd hfits hwide
  · simp [hfull]
  · simp [hroom]

/-- What a refused PUSH lacks is in OUTQ: no PUSH emits more than OUTQ_DEPTH symbols (R70, R114). -/
theorem pushShortfall_le (hs : s.Wf) (hm : s.mode = .run) : pushShortfall s ≤ s.outq.length := by
  have hemits := pushEmits_le hs hm
  obtain ⟨⟨hdepth, -⟩, -, hw, -⟩ := hs
  obtain ⟨⟨-, hf⟩, ht, -⟩ := hw (by simp [hm])
  have hbound : pushEmits s ≤ s.outqDepth := hemits.trans ((emissionBound_le hf ht).1.trans hdepth)
  rw [pushShortfall]
  omega

/-- After E_FULL, the PUSH returns OK once the shortfall is popped, and not before (R114). -/
theorem push_after_pops {sym : BitVec 8} {m : Nat} (hwf : k.state.Wf) (hrun : k.state.mode = .run)
    (hfits : FitsWidth sym k.state.fromBits.toNat) (hm : m ≤ k.state.outq.length) :
    lastStatus ((k.issueAll (List.replicate m .pop)).issue (.push sym)).state = some .ok ↔ pushShortfall k.state ≤ m := by
  obtain ⟨rs, hrs⟩ := issueAll_pops hm
  obtain ⟨u, hu⟩ := exec_answers (.push sym) (k.issueAll (List.replicate m .pop)).state
  obtain ⟨-, -, -, -, -, -, -, ⟨hlen, -⟩, -⟩ := hwf
  rw [issue_of_next hu, noteCommand_state]
  rw [hrs] at hu
  refine (execPush_ok_iff (s := { k.state with outq := k.state.outq.drop m, responses := rs }) hrun hfits hu).trans ?_
  change (k.state.outq.drop m).length + pushEmits k.state ≤ k.state.outqDepth ↔ _
  rw [List.length_drop, pushShortfall]
  omega

/-- A FIN rejected with E_FULL: a padded conversion is open with a residual, and OUTQ is full (R65). -/
theorem execFin_full (h : execFin s = .next t) (hfull : lastStatus t = some .eFull) :
    s.mode = .run ∧ s.pad = true ∧ 0 < s.bits.toNat ∧ s.outq.length = s.outqDepth ∧ t = answer .eFull 0 s := by
  rcases execFin_cases h with ⟨-, rfl⟩ | hfullCase | ⟨-, -, -, -, rfl⟩ | ⟨-, -, -, rfl⟩ | ⟨-, -, -, rfl⟩ |
    ⟨-, -, -, -, rfl⟩
  case inr.inl => exact hfullCase
  all_goals simp at hfull

/-- A padded conversion's FIN returns OK where OUTQ has room (R65). -/
theorem execFin_padded_ok (hm : s.mode = .run) (hpad : s.pad = true) (hroom : s.outq.length ≠ s.outqDepth)
    (h : execFin s = .next t) : lastStatus t = some .ok := by
  rcases execFin_cases h with ⟨hno, -⟩ | ⟨-, -, -, hfull, -⟩ | ⟨-, -, -, -, rfl⟩ | ⟨-, -, -, rfl⟩ | ⟨-, hnopad, -⟩ |
    ⟨-, hnopad, -⟩
  · exact absurd hm hno
  · exact absurd hfull hroom
  · exact lastStatus_answer ..
  · exact lastStatus_answer ..
  · simp [hpad] at hnopad
  · simp [hpad] at hnopad

/-- After E_FULL, one POP makes the FIN return OK: a full OUTQ is not empty (R9, R114). -/
theorem fin_after_pop (hwf : k.state.Wf) (hrun : k.state.mode = .run) (hpad : k.state.pad = true)
    (hlen : k.state.outq.length = k.state.outqDepth) : lastStatus ((k.issue .pop).issue .fin).state = some .ok := by
  obtain ⟨⟨hdepth, -⟩, -⟩ := hwf
  have hpos : 1 ≤ k.state.outq.length := hlen ▸ (by decide : 1 ≤ 8).trans hdepth
  obtain ⟨rs, hrs⟩ : ∃ rs, (k.issue .pop).state = _ := issueAll_pops hpos
  obtain ⟨u, hu⟩ := exec_answers .fin (k.issue .pop).state
  rw [issue_of_next hu, noteCommand_state]
  rw [hrs] at hu
  refine execFin_padded_ok (s := { k.state with outq := k.state.outq.drop 1, responses := rs }) hrun hpad ?_ hu
  change (k.state.outq.drop 1).length ≠ k.state.outqDepth
  rw [List.length_drop]
  omega

end Sys2Proof.Machine
end

section
/-! The statements about commands and runs: O7, O9, O10, O11, O13, O27, O33, O35, O42 and O43. -/

open Sys2Proof Sys2Proof.Machine

/-- Settles O7: the step takes the word and runs what it decodes to. -/
theorem stepRunsTheDecodedCommand : Obligations.StepRunsTheDecodedCommand := fun _ _ _ _ hin hw =>
  (step_of_input hin).trans (execWord_ok hw)

/-- Settles O9: there is no event to take. -/
theorem stepWithoutInputChangesNothing : Obligations.StepWithoutInputChangesNothing := fun _ => step_of_no_input

/-- Settles O10: every event is answered and adds its responses, so by induction over the events the run does. -/
theorem runAnswersEveryCommandExactlyOnce : Obligations.RunAnswersEveryCommandExactlyOnce := fun _ => run_answers rfl

/-- Settles O11: no event meets those that wait after it, so by induction over the events the run does not. -/
theorem laterCommandsDoNotReachBack : Obligations.LaterCommandsDoNotReachBack := fun _ _ later => run_with_later later rfl

/-- Settles O13: the reset state has the invariants at every legal depth. -/
theorem resetStateIsWellFormed : Obligations.ResetStateIsWellFormed := fun _ => resetWith_wf

/-- Settles O27, status by status. -/
theorem statusCodesAreZeroToEight : Obligations.StatusCodesAreZeroToEight := by
  refine ⟨rfl, rfl, rfl, rfl, rfl, rfl, rfl, rfl, rfl, fun st => ?_⟩
  cases st <;> decide

/-- Settles O33: the response's side by `exec_givesOneResponse`, and one lemma for each group of fields. -/
theorem commandsWriteOnlyTheFieldsOfTheAccessMatrix : Obligations.CommandsWriteOnlyTheFieldsOfTheAccessMatrix := by
  intro i s t h
  obtain ⟨-, -, hinputs, hdepth, -⟩ := exec_givesOneResponse h
  refine ⟨hdepth, hinputs, fun hcfg hrst => ?_, fun hxpush hxrun hrst => exec_keeps_slice hxpush hxrun hrst h, ?_, ?_⟩
  · obtain ⟨hf, ht, hp⟩ := exec_keeps_config hcfg hrst h
    exact ⟨hf, ht, hp, fun hpush hfin => exec_keeps_conversion hcfg hrst hpush hfin h⟩
  · rintro ⟨sym, rfl⟩
    exact execPush_mode h
  · rintro rfl
    exact execFin_mode h

/-- Settles O35: each idempotent command's second issue answers from the same units; XRUN has emptied the slice and FIN has left
RUN. -/
theorem repeatedCommandsAreIdempotentOrRefused : Obligations.RepeatedCommandsAreIdempotentOrRefused := by
  refine ⟨fun i s t u hi ht hu => ?_, fun d s t u hd hd64 ht hu => execXrun_again hd hd64 ht hu, fun s t u ht hok hu => ?_⟩
  · rcases hi with ⟨f, w, pad, rfl⟩ | rfl | rfl | rfl
    · exact execCfg_again ht hu
    · obtain rfl := execStat_next.mp ht
      obtain rfl := execStat_next.mp hu
      exact answer_sameAgain rfl
    · obtain rfl := execNop_next.mp ht
      obtain rfl := execNop_next.mp hu
      exact answer_sameAgain rfl
    · obtain rfl := execRst_next.mp ht
      obtain rfl := execRst_next.mp hu
      exact answer_sameAgain rfl
  · have hdone : t.mode ≠ .run := by simp [execFin_ok_mode ht hok]
    obtain rfl := reject_next.mp ((execFin_of_not_run hdone).symm.trans hu)
    exact lastStatus_answer ..

/-- Settles O42: a refused command leaves all as it was, and POPs change OUTQ alone, so only the room decides. -/
theorem poppingMakesRoomForTheRefusedCommand : Obligations.PoppingMakesRoomForTheRefusedCommand := by
  constructor
  · intro sym s t hs h hfull
    obtain ⟨hm, hfits, -, rfl⟩ := execPush_full h hfull
    exact ⟨pushShortfall_le hs hm, fun m hle => push_after_pops (k := Tracked.fresh (answer .eFull 0 s)) hs hm hfits hle⟩
  · intro s t hs h hfull
    obtain ⟨hm, hpad, -, hlen, rfl⟩ := execFin_full h hfull
    exact fin_after_pop (k := Tracked.fresh (answer .eFull 0 s)) hs hm hpad hlen

/-- Settles O43: a legal CFG and an RST answer OK and leave OUTQ empty, whatever it held. -/
theorem reconfiguringLosesUnpoppedOutputsSilently : Obligations.ReconfiguringLosesUnpoppedOutputsSilently := by
  intro i s t hl h
  cases i with
  | cfg f w pad =>
    simp only [losesOutputs, Bool.and_eq_true, decide_eq_true_eq, Bool.not_eq_true'] at hl
    obtain ⟨⟨hwidths, -⟩, hq⟩ := hl
    rcases execCfg_cases h with ⟨-, rfl⟩ | ⟨hno, -⟩
    · exact ⟨by simpa using hq, rfl, lastStatus_answer ..⟩
    · exact absurd hwidths hno
  | rst =>
    simp only [losesOutputs, Bool.and_eq_true, Bool.not_eq_true'] at hl
    obtain rfl := execRst_next.mp h
    exact ⟨by simpa using hl.2, rfl, lastStatus_answer ..⟩
  | nop | push | fin | pop | xpush | xrun | stat => cases hl

end

/-! ## Proofs about the encoding, the assembler and the algorithms' outputs (30_encoding.md R58 to R60; 40_converter.md R72;
41_extractor.md R76, R118) -/

section
/-! SUPPORT. No bit of a legal word is dropped (30_encoding.md R58): the opcode, the must-be-zero bits and the operand fields of a
format are all its bits. -/

namespace Sys2Proof

/-- A word in a command's format is the word of that command with the word's operands (R58). -/
theorem encode_withFieldsOf {w : CmdWord} {i : Instr} (h : HasFormatOf w i) : encode (withFieldsOf w i) = w := by
  apply BitVec.eq_of_toNat_eq
  obtain ⟨hop, hzero⟩ := (hasFormatOf_iff w i).mp h
  cases i with
  | cfg f t pad =>
    change _ = 1 at hop
    change _ / 2 ^ 1 % 2 ^ 3 = 0 at hzero
    rw [withFieldsOf, toNat_encode_cfg, fieldF, fieldT, toNat_field, toNat_field, toNat_fieldP]
    omega
  | push sym =>
    change _ = 2 at hop
    change _ / 2 ^ 8 % 2 ^ 4 = 0 at hzero
    rw [withFieldsOf, toNat_encode_push, fieldSym, toNat_field]
    omega
  | xpush sym =>
    change _ = 5 at hop
    change _ / 2 ^ 8 % 2 ^ 4 = 0 at hzero
    rw [withFieldsOf, toNat_encode_xpush, fieldSym, toNat_field]
    omega
  | xrun d =>
    change _ = 6 at hop
    change _ / 2 ^ 7 % 2 ^ 5 = 0 at hzero
    rw [withFieldsOf, toNat_encode_xrun, fieldD, toNat_field]
    omega
  | nop | fin | pop | stat | rst =>
    simp only [opcodeOf, zeroRunOf, BitVec.ofNat_eq_ofNat, BitVec.toNat_ofNat, pow_zero, Nat.div_one] at hop hzero
    simp only [withFieldsOf, encode, BitVec.toNat_ofNat]
    omega

end Sys2Proof
end

section
/-! SUPPORT. The assembler (30_encoding.md R59, R60): a list of lines is accepted exactly where every line is. -/

namespace Sys2Proof.Machine

/-- Every word of a line but `.word` is some command's word (R59, R60). -/
theorem lineWords_are_encoded {line : AsmLine} (hline : ∀ v, line ≠ .word v) : ∀ w ∈ lineWords line, ∃ i, encode i = w := by
  have encoded (i : Instr) : ∀ w ∈ [encode i], ∃ j, encode j = w :=
    List.forall_mem_singleton.mpr ⟨i, rfl⟩
  cases line with
  | word v => exact absurd rfl (hline v)
  | cvt f t pad syms =>
    refine List.forall_mem_append.mpr ⟨List.forall_mem_append.mpr ⟨encoded _, ?_⟩, encoded _⟩
    exact List.forall_mem_map.mpr fun sym _ => ⟨_, rfl⟩
  | xget d syms =>
    refine List.forall_mem_append.mpr ⟨?_, encoded _⟩
    exact List.forall_mem_map.mpr fun sym _ => ⟨_, rfl⟩
  | nop | cfg | push | fin | pop | xpush | xrun | stat | rst => exact encoded _

/-- A line that is accepted gives its words (R59). -/
theorem assemble_eq_some_iff {line : AsmLine} {ws : List CmdWord} :
    assemble line = some ws ↔ line.wellFormed = true ∧ lineWords line = ws := by
  rw [assemble, Option.ite_none_right_eq_some, Option.some.injEq]

/-- A list of lines is accepted where every line is, and gives each line's words (R59). -/
theorem mapM_assemble (lines : List AsmLine) :
    lines.mapM assemble = if lines.all AsmLine.wellFormed then some (lines.map lineWords) else none := by
  induction lines with
  | nil => rfl
  | cons line rest ih =>
    rw [List.mapM_cons, ih, assemble, List.all_cons, List.map_cons]
    cases line.wellFormed <;> cases rest.all AsmLine.wellFormed <;> rfl

/-- Where it is accepted, a list of lines has the words of its lines, in order (R59). -/
theorem mapM_assemble_flatten (lines : List AsmLine) : (lines.mapM assemble).map List.flatten =
    if lines.all AsmLine.wellFormed then some (lines.flatMap lineWords) else none := by
  rw [mapM_assemble, apply_ite (Option.map List.flatten), List.flatMap_def]
  rfl

/-- Lines of one word each (R60). -/
theorem flatMap_lineWords_map {mk : Nat → AsmLine} {word : Nat → CmdWord} (h : ∀ x, lineWords (mk x) = [word x])
    (syms : List Nat) : (syms.map mk).flatMap lineWords = syms.map word := by
  rw [List.flatMap_map, List.map_eq_flatMap]
  exact List.flatMap_congr fun x _ => h x

end Sys2Proof.Machine
end

section
/-! SUPPORT. The extractor reads the front of its slice (20_memory.md R35; 41_extractor.md R76, R118). -/

namespace Sys2Proof.Machine

/-- A number of `w` bits has `w` bits (R12). -/
theorem length_msbBits (w v : Nat) : (msbBits w v).length = w := by
  induction w with
  | zero => rfl
  | succ w ih => rw [msbBits, List.length_cons, ih]

/-- The first bits of a stream lie in its first symbols (R33). -/
theorem take_stream {w d n : Nat} {syms : List Nat} (hfits : ∀ x ∈ syms, x < 2 ^ w) (hn : n ≤ syms.length)
    (hd : d ≤ n * w) : (stream w syms).take d = msbBits d (streamValue w (syms.take n) / 2 ^ (n * w - d)) := by
  have hfront : stream w (syms.take n) = msbBits (n * w) (streamValue w (syms.take n)) := by
    rw [stream_eq_msbBits fun x hx => hfits x (List.mem_of_mem_take hx), List.length_take_of_le hn]
  have hsplit : stream w syms = msbBits d (streamValue w (syms.take n) / 2 ^ (n * w - d)) ++
      (msbBits (n * w - d) (streamValue w (syms.take n)) ++ stream w (syms.drop n)) := by
    rw [← List.append_assoc, ← msbBits_add, Nat.add_sub_of_le hd, ← hfront, ← stream_append, List.take_append_drop]
  rw [hsplit]
  exact List.take_left' (length_msbBits ..)

/-- `extract` reads the leading ceil(D/5) symbols only (R75, R118). -/
theorem extract_take (d : Nat) (syms : List Nat) : extract d (syms.take (ceilDiv d 5)) = extract d syms := by
  have hbytes : extractBytes d (syms.take (ceilDiv d 5)) = extractBytes d syms := by
    simp only [extractBytes, List.take_take, Nat.min_self]
  rw [extract, extract, hbytes]

/-- The leading symbols of a slice, as numbers (R24). -/
theorem slice_take (n : Nat) (s : State) : slice { s with xsym := s.xsym.take n } = (slice s).take n := List.map_take

end Sys2Proof.Machine
end

section
/-! The statements about the encoding, the assembler and the algorithms' outputs: O2, O6, O46, O48, O50, O51 and O52. -/

open Sys2Proof Sys2Proof.Machine

/-- Settles O2: a decoded word has its command's format, and the command's operands are its fields. -/
theorem decodedWordIsItsCommandsWord : Obligations.DecodedWordIsItsCommandsWord := by
  intro w i h
  obtain ⟨hformat, hi⟩ := decode_eq_ok_iff.mp h
  calc encode i
    _ = encode (withFieldsOf w i) := congrArg encode hi
    _ = w := encode_withFieldsOf hformat

/-- Settles O6: each legal word is its command's own, and the illegal ones are refused. -/
theorem specWordsDecodeAsTheSpecSays : Obligations.SpecWordsDecodeAsTheSpecSays :=
  ⟨decode_encode .nop, decode_encode (.cfg 8 5 true), decode_encode (.cfg 5 8 false), decode_encode (.push 0xFF),
    decode_encode .fin, decode_encode .pop, decode_encode (.xpush 1), decode_encode (.xrun 35), decode_encode .stat,
    decode_encode .rst, by decide, by decide, by decide⟩

/-- Settles O46, by the closed form of `convert` without padding: the residual has ρ bits. -/
theorem fiveToEightWithoutPaddingFailsByLength : Obligations.FiveToEightWithoutPaddingFailsByLength := by
  intro syms hfits rho
  have hrho : rho = 5 * (syms.length % 8) % 8 := (Nat.mul_mod_mod ..).symm
  have hlengths : ∀ r < 8, (r = 1 ∨ r = 3 ∨ r = 6 ↔ 5 ≤ 5 * r % 8) := by decide
  have h : Convertible 5 8 syms := ⟨by decide, by decide, by decide, by decide, hfits⟩
  have hconvert := convert_false_eq h
  rw [Nat.mul_comm syms.length 5] at hconvert
  change convert 5 8 false syms = if rho < 5 ∧ streamValue 5 syms % 2 ^ rho = 0 then _ else none at hconvert
  rw [hconvert]
  refine ⟨hrho ▸ hlengths _ (Nat.mod_lt _ (by decide)), fun hlong => if_neg fun hshort => absurd hshort.1 (not_lt.mpr hlong), fun hshort => ?_⟩
  simp [hshort]

/-- Settles O48: the closed form of `extract` is the front of the stream's bits. -/
theorem extractIsTheFirstBitsOfTheStream : Obligations.ExtractIsTheFirstBitsOfTheStream := by
  intro d syms _ hfits hn
  have htail : d ≤ ceilDiv d 5 * 5 := Nat.mul_comm 5 _ ▸ (ceilDiv_five_tail d).1
  have hextract : extract d syms = streamValue 5 (syms.take (ceilDiv d 5)) / 2 ^ (ceilDiv d 5 * 5 - d) :=
    Nat.mul_comm 5 _ ▸ extract_eq hfits hn
  rw [hextract]
  exact (take_stream hfits hn htail).symm

/-- Settles O50: `extract` reads no symbol after the leading ones, and XRUN empties the slice either way. -/
theorem xrunIgnoresExtraSymbols : Obligations.XrunIgnoresExtraSymbols := by
  intro d s hd hn
  have hlong : exec (.xrun d) s = _ := execXrun_of_enough hd hn
  refine ⟨?_, _, hlong, lastStatus_answer .., rfl⟩
  have henough : ceilDiv d.toNat 5 ≤ (s.xsym.take (ceilDiv d.toNat 5)).length := (List.length_take_of_le hn).ge
  have hshort : exec (.xrun d) { s with xsym := s.xsym.take (ceilDiv d.toNat 5) } = _ := execXrun_of_enough hd henough
  rw [slice_take, extract_take] at hshort
  exact hlong.trans hshort.symm

/-- Settles O51: a line's operands fit exactly below their fields' bounds, and a line's words are encoded commands. -/
theorem assembledLinesDecodeToTheirCommands : Obligations.AssembledLinesDecodeToTheirCommands := by
  refine ⟨fun f t pad => if_congr ?_ rfl rfl, fun sym => if_congr ?_ rfl rfl, fun sym => if_congr ?_ rfl rfl,
    fun d => if_congr ?_ rfl rfl, rfl, rfl, rfl, rfl, rfl, fun v hv => if_pos ?_, fun line ws h hline w hw => ?_⟩
  · simp only [AsmLine.wellFormed, fitsWidthField, Bool.and_eq_true, decide_eq_true_eq]
    omega
  · simp only [AsmLine.wellFormed, fitsSymField, decide_eq_true_eq]
    omega
  · simp only [AsmLine.wellFormed, fitsSymField, decide_eq_true_eq]
    omega
  · simp only [AsmLine.wellFormed, fitsDField, decide_eq_true_eq]
    omega
  · simpa only [AsmLine.wellFormed, fitsWord, decide_eq_true_eq] using hv
  · obtain ⟨-, rfl⟩ := assemble_eq_some_iff.mp h
    obtain ⟨i, rfl⟩ := lineWords_are_encoded hline w hw
    exact ⟨i, decode_encode i⟩

/-- Settles O52: a pseudo-instruction's operands are its lines' operands, and its words are its lines' words in order. -/
theorem pseudoInstructionsExpandExactly : Obligations.PseudoInstructionsExpandExactly := by
  refine ⟨fun f t pad syms => ?_, fun d syms => ?_⟩
  · have hwords : ((AsmLine.cfg f t pad :: syms.map AsmLine.push) ++ [AsmLine.fin]).flatMap lineWords =
        lineWords (.cvt f t pad syms) := by
      rw [List.flatMap_append, List.flatMap_cons, flatMap_lineWords_map (word := pushWord) fun _ => rfl]
      rfl
    have hfits : ((AsmLine.cfg f t pad :: syms.map AsmLine.push) ++ [AsmLine.fin]).all AsmLine.wellFormed =
        (AsmLine.cvt f t pad syms).wellFormed := by
      simp [AsmLine.wellFormed, Function.comp_def]
    rw [mapM_assemble_flatten, hfits, hwords, assemble]
  · have hwords : (syms.map AsmLine.xpush ++ [AsmLine.xrun d]).flatMap lineWords = lineWords (.xget d syms) := by
      rw [List.flatMap_append, flatMap_lineWords_map (word := xpushWord) fun _ => rfl]
      rfl
    have hfits : (AsmLine.xget d syms).wellFormed = true ↔
        syms.length = (d + 4) / 5 ∧ (syms.map AsmLine.xpush ++ [AsmLine.xrun d]).all AsmLine.wellFormed = true := by
      simp [AsmLine.wellFormed, and_comm]
    rw [mapM_assemble_flatten, hwords, assemble, if_congr hfits rfl rfl, ite_and]

end
